-- ==== Sys2Proof/Word.lean ====
section
/-!
DEFINITION. The values the block handles (spec/00_scope.md R7, R8): naturals, bits and real samples.

A character is its code point, "the natural number that stands for a character" (R7a, R31), and is written `Nat`.

A sample is a real number written down as plain data (log 1): a rational, the sine of a rational number of turns, a real
that is not said (so that a cell can hold any real, R33, R165), what the build's own `SIN` and number format give, and
sums, products and negatives of these. The exact comparison is in Machine/Exact.lean and Machine/Reals.lean.
-/

namespace Sys2Proof

/-- One binary digit (R7b): `false` is 0 and `true` is 1. -/
abbrev Bit := Bool

/-- An 8-bit word, the size of a command word (R70) and of `STATUS` (R29). -/
abbrev Byte := BitVec 8

/-- The content of a `WAVE` cell, by the real number it is read as (`val` of R7), as a finite expression (log 1). -/
inductive Sample where
  | rat (q : Rat)
  /-- the sine of `2π·turn` -/
  | sin (turn : Rat)
  | neg (a : Sample)
  | add (a b : Sample)
  | mul (a b : Sample)
  /-- the `n`-th of the reals that are not said: a free value -/
  | unknown (n : Nat)
  /-- `SIN(2π·turn)`, for a build whose `SIN` is its own (R5) -/
  | ownSin (turn : Rat)
  /-- `val(quant(a))`, for a build whose number format is its own (R5) -/
  | rounded (a : Sample)
  deriving DecidableEq, Repr

/-- What the spec leaves open about real numbers: the reals that are not said (R165), a build's own `SIN`, and a build's
own `val` after `quant` (R5). -/
structure Reals where
  unknown : Nat → ℝ
  sine : ℝ → ℝ
  round : ℝ → ℝ

/-- The real number a sample is, under a choice of what is open. -/
noncomputable def Sample.valIn (r : Reals) : Sample → ℝ
  | .rat q => (q : ℝ)
  | .sin turn => Real.sin (2 * Real.pi * turn)
  | .neg a => - a.valIn r
  | .add a b => a.valIn r + b.valIn r
  | .mul a b => a.valIn r * b.valIn r
  | .unknown n => r.unknown n
  | .ownSin turn => r.sine (2 * Real.pi * turn)
  | .rounded a => r.round (a.valIn r)

end Sys2Proof
end

