-- ==== Sys2Proof/Config.lean ====
section
/-!
DEFINITION. What one build of the block fixes: the parameters of spec/00_scope.md R5 that are not
run-time registers, as plain data with R5's defaults, and two free values. The third, `Config.realSign`, needs the exact
arithmetic and stands in Machine/Reals.lean.

`FS`, `BAUD`, `F1`, `F2`, `CAPDUR` are registers (State). No rule reads `BUS_MAP` (R58), so it has no field.
-/

namespace Sys2Proof

/-- Parameter `TIE` (R5, R113): which bin wins when several share the greatest magnitude.
`leastIndex` is the spec's rule and default (D11); `drawn` is the reading of
spec/93_implementation_defined.md U4 that does not rest on it: some tied bin, not said which (log 6). -/
inductive Tie where
  | leastIndex
  | drawn
  deriving DecidableEq, Repr

/-- Parameters `Sample`, `quant`, `val` (R5, R7): `exact` is the default, exact reals and two identities; `own` is any
number format, of which only `val` after `quant` matters to the rules, and that is a free value (log 3). -/
inductive Numbers where
  | exact
  | own
  deriving DecidableEq, Repr

/-- Parameter `SIN` (R5): the mathematical sine by default, or any function of the reals, a free value (log 3). -/
inductive Sine where
  | mathematical
  | own
  deriving DecidableEq, Repr

/-- The build-time parameters (R5). A capacity of `none` is the reference model's unbounded buffer (R63).
Held in State as a field no step writes, so that a statement about every state is about every
build (log 7). -/
structure Params where
  /-- `CFG_W`: width in bits of the five configuration registers. -/
  cfgW : Nat
  /-- `CHAR_W`: width in bits of a `TEXT` cell. -/
  charW : Nat
  /-- `Sample`, `quant`, `val` -/
  numbers : Numbers
  /-- `SIN` -/
  sine : Sine
  /-- `AMP`: the amplitude of every tone, a real (log 9). -/
  amp : Sample
  textCap : Option Nat
  bitsCap : Option Nat
  waveCap : Option Nat
  tie : Tie
  /-- `IS_WS`: the code points counted as white space by the send check (R137). -/
  whiteSpace : List Nat
  hasSessionLayer : Bool
  deriving DecidableEq, Repr

/-- The reference build: the defaults of R5's table. -/
def Params.default : Params where
  cfgW := 32
  charW := 21
  numbers := .exact
  sine := .mathematical
  amp := .rat 1
  textCap := none
  bitsCap := none
  waveCap := none
  tie := .leastIndex
  whiteSpace := [9, 10, 11, 12, 13, 32]
  hasSessionLayer := true

/-- What a build must satisfy for the spec's rules to make sense of it (DEDUCED, log 8): the reset values
of the configuration registers fit their width (R40), and a `TEXT` cell is "wider than 8 bits" (D13),
so that `E_ENCODING` can be reached and every decoded character fits. -/
abbrev Params.wf (p : Params) : Prop := 44100 < 2 ^ p.cfgW ∧ 8 < p.charW

/-- Which of the tied bins of a window is taken when `TIE` is `drawn`: a free value, a function of the
window alone because "every command is a pure function of (configuration, input buffer)" (R56; U4,
log 6). It has no body: nothing can be proved of it. -/
opaque Config.tieDraw : List Sample → Nat

/-- What a `TEXT` cell that is too narrow for the code point of a send holds, before it is brought into the cell's range
(log 20): a free value, with no body. -/
opaque Config.wideCell : Nat → Nat

end Sys2Proof
end

