-- ==== Sys2Proof/Syntax.lean ====
section
/-!
DEFINITION. The commands of spec/opcode_table.json (spec/30_encoding.md R71). "No command has an explicit
operand" (R73), so no constructor has an argument.
-/

namespace Sys2Proof

/-- One constructor per row of the opcode table. -/
inductive Instr where
  /-- `ENC`: `TEXT` to `BITS` (R90). -/
  | enc
  /-- `DEC`: `BITS` to `TEXT` (R91). -/
  | dec
  /-- `MOD`: `BITS` to `WAVE` (R100). -/
  | mod
  /-- `DEM`: `WAVE` to `BITS` (R110). -/
  | dem
  /-- `VAL`: `TEXT` to `STATUS.VALID` (R125), a session-layer command. -/
  | val
  deriving DecidableEq, Repr

end Sys2Proof
end

