-- ==== Sys2Proof/WellFormed.lean ====
section
/-!
DEFINITION. Which commands a build has (spec/30_encoding.md R71, R72): the four block commands always, `VAL`
when `HAS_SESSION_LAYER`.
-/

namespace Sys2Proof

/-- The one check there is: `VAL` is "present when `HAS_SESSION_LAYER`" (R71). -/
def wellFormed (hasSessionLayer : Bool) : Instr → Bool
  | .enc => true
  | .dec => true
  | .mod => true
  | .dem => true
  | .val => hasSessionLayer

end Sys2Proof
end

