-- ==== Sys2Proof/Decode.lean ====
section
/-!
DEFINITION. Command words (spec/30_encoding.md R70 to R73): one format `C8`, bits 7:3 reserved and 0, bits 2:0
the opcode. The decoder is total and rejects by name; the encoder stands after it.
-/

namespace Sys2Proof

/-- Why a command word is illegal (R72). Safe: each leads to `E_ILLEGAL`, as R155 says. -/
inductive IllegalWord where
  /-- one of the reserved bits 7:3 is 1 -/
  | reservedBits
  /-- `op` is 000, 110 or 111 -/
  | unassignedOpcode
  /-- `op` is 101 and `HAS_SESSION_LAYER` is false -/
  | noSessionLayer
  deriving DecidableEq, Repr

/-- Bits 7:3 of a command word, "reserved and must be 0" (R70). -/
def reservedField (w : Byte) : BitVec 5 := w.extractLsb' 3 5

/-- Bits 2:0 of a command word, the opcode `op` (R70). -/
def opcodeField (w : Byte) : BitVec 3 := w.extractLsb' 0 3

/-- The command an opcode is assigned to, if any (R71's table). -/
def opcodeInstr (op : BitVec 3) : Option Instr :=
  if op = 0b001#3 then some .enc
  else if op = 0b010#3 then some .dec
  else if op = 0b011#3 then some .mod
  else if op = 0b100#3 then some .dem
  else if op = 0b101#3 then some .val
  else none

/-- Reading a command word: R71's assignment, R72's three ways to be illegal. -/
def decode (hasSessionLayer : Bool) (w : Byte) : Except IllegalWord Instr :=
  if reservedField w = 0 then
    match opcodeInstr (opcodeField w) with
    | none => .error .unassignedOpcode
    | some i => if wellFormed hasSessionLayer i then .ok i else .error .noSessionLayer
  else .error .reservedBits

/-- The opcode of a command (R71's table). -/
def opcodeOf : Instr → BitVec 3
  | .enc => 0b001#3
  | .dec => 0b010#3
  | .mod => 0b011#3
  | .dem => 0b100#3
  | .val => 0b101#3

/-- The command word of a command: five reserved zeros, then the opcode (R70). -/
def encode (i : Instr) : Byte := 0b00000#5 ++ opcodeOf i

/-- The number a host writes for an instruction of `nbits` bits `w`: the bits above `nbits` are 0. -/
def tableWord (nbits w : Nat) : Nat := w % 2 ^ nbits

/-- What the decoder reads from the word `w` of `nbits` bits, in the reference build (log 30). A number above
255 is no command word. -/
def decodeTableWord (nbits w : Nat) : Option Instr :=
  if tableWord nbits w < 256 then
    match decode Params.default.hasSessionLayer (BitVec.ofNat 8 (tableWord nbits w)) with
    | .ok i => some i
    | .error _ => none
  else none

end Sys2Proof
end

