-- ==== Sys2Proof/Machine/State.lean ====
section
/-!
DEFINITION. The state of the block and its session layer (spec/10_state.md R20, R39), the reset state (R40), and
the reasons a step can stop.

The block has no byte-addressed memory (spec/20_memory.md R50, R53): its memory is three sequences of
cells, each addressed by index from 0, and "cells at or beyond the length do not exist for any rule" (R34), so a
buffer IS the sequence of its cells and its length register is that sequence's length (log 26).
-/

namespace Sys2Proof.Machine

/-! ## Memory -/

/-- The three buffers (R31, R32, R33). -/
structure Memory where
  /-- `TEXT`: a Message, one code point per cell. -/
  text : List Nat
  /-- `BITS`: a BitStream, one bit per cell. -/
  bits : List Bit
  /-- `WAVE`: a Waveform, one sample per cell. -/
  wave : List Sample
  deriving DecidableEq, Repr

/-- The three buffer spaces (R50). -/
inductive Space where
  | text
  | bits
  | wave
  deriving DecidableEq, Repr

/-- A whole buffer's content, as the host loads or reads it (R57). -/
inductive BufferData where
  | text (cells : List Nat)
  | bits (cells : List Bit)
  | wave (cells : List Sample)
  deriving DecidableEq, Repr

/-- One cell, as `HostReadCell` returns it (R57). -/
inductive Cell where
  | text (c : Nat)
  | bit (b : Bit)
  | sample (x : Sample)
  deriving DecidableEq, Repr

/-! ## Error outcomes -/

/-- The two audio collaborators (R164, R165). -/
inductive AudioDevice where
  | playback
  | capture
  deriving DecidableEq, Repr

/-- The clauses of `ConfigLegal()` that can fail (spec/41_modulator.md R104). -/
inductive ConfigClause where
  | fsZero
  | baudZero
  | notDivisible
  | tonesEqual
  deriving DecidableEq, Repr

/-- The error outcomes of spec/60_exceptions.md R150, each with the "info" the table gives it. Safe: each is the
spec's own outcome, a next state and not a stop. -/
inductive Err where
  /-- `E_ENCODING`, with the least offending index -/
  | encoding (index : Nat)
  /-- `E_MALFORMED`, with `BITS_LEN` -/
  | malformed (bitsLen : Nat)
  /-- `E_AUDIO`, with the collaborator that failed -/
  | audio (device : AudioDevice)
  /-- `E_CONFIG`, with the clause that failed -/
  | config (clause : ConfigClause)
  /-- `E_ILLEGAL`, with the word -/
  | illegal (word : Byte)
  /-- `E_CAPACITY`, with the needed length -/
  | capacity (needed : Nat)
  deriving DecidableEq, Repr

/-! ## The session layer -/

/-- Which step of R131's pseudocode a send is at (log 13). -/
inductive SendStage where
  /-- the load of the text was refused; about to end the session (log 20) -/
  | unloaded
  | encode
  | modulate
  /-- about to call the playback collaborator -/
  | call
  /-- waiting for the playback collaborator -/
  | playing
  deriving DecidableEq, Repr

/-- Which step of R133's pseudocode a decoding is at (log 13). -/
inductive DecodeStage where
  /-- the load of the capture was refused; about to end the session (log 21) -/
  | unloaded
  | demodulate
  | decode
  | validate
  /-- about to deliver or to log the rejection -/
  | conclude
  deriving DecidableEq, Repr

/-- `ORCH` (R39, R130): "States: `Idle`, `Sending`, `Listening`, `Decoding`". The position inside a state is the
argument, so that there is one home for both. -/
inductive Orch where
  | idle
  | sending (stage : SendStage)
  | listening
  | decoding (stage : DecodeStage)
  deriving DecidableEq, Repr

/-- The four values the spec gives `ORCH` (R39). -/
inductive OrchName where
  | Idle
  | Sending
  | Listening
  | Decoding
  deriving DecidableEq, Repr

/-- `ORCH` as the spec names its values. -/
def Orch.name : Orch → OrchName
  | .idle => .Idle
  | .sending _ => .Sending
  | .listening => .Listening
  | .decoding _ => .Decoding

/-- An entry of `LOG`: "the error code, or `rejected`" (R170). -/
inductive LogEntry where
  | error (code : BitVec 4)
  | rejected
  deriving DecidableEq, Repr

/-- A call of the playback collaborator (R164). -/
structure PlaybackCall where
  samples : List Sample
  rate : Nat
  deriving DecidableEq, Repr

/-- The sample format a capture is asked for (R165). -/
inductive SampleFormat where
  | floatingPoint
  deriving DecidableEq, Repr

/-- A call of the capture collaborator (R165). -/
structure CaptureCall where
  rate : Nat
  channels : Nat
  /-- in seconds -/
  duration : Nat
  format : SampleFormat
  deriving DecidableEq, Repr

/-! ## The outside world -/

/-- What can arrive from outside in one step: the reset line (R180), the host primitives (R57), the requests of
the UI collaborator (R166) and the answers of the audio collaborators (R164, R165). The free inputs of
spec/92_eei_decisions.md section 3 are the arguments and the order of these (log 11). -/
inductive Event where
  /-- the external reset (R180) -/
  | reset
  /-- nothing arrives: the orchestrator takes its next stage, if it has one (log 13) -/
  | quiet
  | hostLoad (data : BufferData)
  | hostRead (space : Space)
  | hostReadCell (space : Space) (index : Nat)
  | regRead (reg : Nat)
  | regWrite (reg value : Nat)
  /-- `SEND text` (R131) -/
  | send (text : List Nat)
  /-- `RECV` (R132) -/
  | recv
  | playbackDone
  | playbackFailed
  | captureDone (samples : List Sample)
  | captureFailed
  deriving DecidableEq, Repr

/-- What the latest outside access was answered (log 14). -/
inductive Reply where
  /-- the access returns no value -/
  | nothing
  /-- "refused: it has no effect on any state and returns no value a rule may use" (R58) -/
  | refused
  | number (v : Nat)
  | buffer (data : BufferData)
  | cell (c : Cell)
  deriving DecidableEq, Repr

/-! ## The state -/

/-- Everything the spec gives the machine (R20, R39), and, last, the model's own fields. -/
structure State where
  /-- register 0, `CFG_FS` (R21) -/
  cfgFs : Nat
  /-- register 1, `CFG_BAUD` (R22) -/
  cfgBaud : Nat
  /-- register 2, `CFG_F1` (R23) -/
  cfgF1 : Nat
  /-- register 3, `CFG_F2` (R24) -/
  cfgF2 : Nat
  /-- register 4, `CFG_CAPDUR` (R39) -/
  cfgCapdur : Nat
  /-- register 6, `STATUS` (R29); its fields are read and written in Machine/Flags.lean -/
  status : Byte
  /-- the buffers `TEXT`, `BITS`, `WAVE`; registers 7, 8, 9 are their lengths (R34) -/
  mem : Memory
  /-- the orchestrator state `ORCH` (R39) -/
  orch : Orch
  /-- the output stream `DELIVERED`, oldest first (R39, R166) -/
  delivered : List (List Nat)
  /-- the output stream `LOG`, oldest first (R39, R170) -/
  log : List LogEntry
  /-- calls made to the playback collaborator, oldest first (R164; log 16) -/
  playbackCalls : List PlaybackCall
  /-- calls made to the capture collaborator, oldest first (R165; log 16) -/
  captureCalls : List CaptureCall
  /-- the build's parameters (R5; log 7); no step writes them -/
  params : Params
  /-- the error outcome `STATUS.ERR` stands for, with R150's info; "no register records it" (log 15) -/
  cause : Option Err
  /-- the answer to the latest outside access (log 14) -/
  reply : Reply
  /-- outside events not yet taken, oldest first (log 11) -/
  inbox : List Event
  deriving DecidableEq, Repr

/-- R40's table: configuration at the source's defaults, `STATUS` 0, every buffer empty, `ORCH` `Idle`, nothing
emitted. The model's own fields hold nothing, and the build is the reference build (log 7, 11, 14, 15, 16). -/
def State.reset : State where
  cfgFs := 44100
  cfgBaud := 300
  cfgF1 := 1500
  cfgF2 := 2500
  cfgCapdur := 5
  status := 0#8
  mem := { text := [], bits := [], wave := [] }
  orch := .idle
  delivered := []
  log := []
  playbackCalls := []
  captureCalls := []
  params := Params.default
  cause := none
  reply := .nothing
  inbox := []

/-! ## Stops -/

/-- A stop because the outside world broke its contract. No command raises one. -/
inductive Fault where
  /-- Raised by a capture answer whose number of samples is not `CFG_FS × CFG_CAPDUR`: the contract of
  spec/60_exceptions.md R165 is "a sequence of exactly `CFG_FS × CFG_CAPDUR` samples", and nothing may be assumed of
  another (spec/91_not_in_source.md N23). Safe (log 22). -/
  | captureLength
  deriving DecidableEq, Repr

/-- A stop because the model gives what arrived no meaning. No command ends in one. -/
inductive Refusal where
  /-- An instruction with no meaning yet, by its mnemonic. Safe. -/
  | notModelled (mnemonic : String)
  /-- Raised by an answer of an audio collaborator that no call is waiting for: the spec knows collaborator answers
  only inside a session's wait (R131, R132, R136). Safe (log 23). -/
  | unsolicitedAnswer (device : AudioDevice)
  deriving DecidableEq, Repr

end Sys2Proof.Machine
end

