-- ==== Sys2Proof/Machine/Flags.lean ====
section
/-!
DEFINITION. The fields of `STATUS` (spec/10_state.md R29): BUSY bit 0, VALID bit 1, REJ bit 2, bit 3 reserved
(reads 0), ERR bits 7:4; the error codes of spec/60_exceptions.md R150. Every write of a field goes through
`packStatus`, so the reserved bit is 0 after it.
-/

namespace Sys2Proof.Machine

/-- `STATUS.BUSY`. -/
def statusBusy (st : Byte) : Bool := st.getLsbD 0

/-- `STATUS.VALID`. -/
def statusValid (st : Byte) : Bool := st.getLsbD 1

/-- `STATUS.REJ`. -/
def statusRej (st : Byte) : Bool := st.getLsbD 2

/-- `STATUS.ERR`. -/
def statusErr (st : Byte) : BitVec 4 := st.extractLsb' 4 4

/-- The status word with the given fields and the reserved bit 0 (R29). -/
def packStatus (err : BitVec 4) (rej valid busy : Bool) : Byte :=
  err ++ 0#1 ++ BitVec.ofBool rej ++ BitVec.ofBool valid ++ BitVec.ofBool busy

/-- `STATUS.BUSY <- b`. -/
def setBusy (b : Bool) (s : State) : State :=
  { s with status := packStatus (statusErr s.status) (statusRej s.status) (statusValid s.status) b }

/-- `STATUS.VALID <- v`. -/
def setValid (v : Bool) (s : State) : State :=
  { s with status := packStatus (statusErr s.status) (statusRej s.status) v (statusBusy s.status) }

/-- `STATUS.REJ <- r`. -/
def setRej (r : Bool) (s : State) : State :=
  { s with status := packStatus (statusErr s.status) r (statusValid s.status) (statusBusy s.status) }

/-- The codes of R150's table; 0 is `OK`. Codes 7 to 15 "are reserved and never written". -/
def errCode : Option Err → BitVec 4
  | none => 0#4
  | some (.encoding _) => 1#4
  | some (.malformed _) => 2#4
  | some (.audio _) => 3#4
  | some (.config _) => 4#4
  | some (.illegal _) => 5#4
  | some (.capacity _) => 6#4

/-- `STATUS.ERR <- code(e)`; the model also keeps `e` itself, for R150's info (log 15). -/
def setErr (e : Option Err) (s : State) : State :=
  { s with
    status := packStatus (errCode e) (statusRej s.status) (statusValid s.status) (statusBusy s.status)
    cause := e }

end Sys2Proof.Machine
end

