-- ==== Sys2Proof/Machine/Operands.lean ====
section
/-!
DEFINITION. The implicit operands of the commands. "No command has an explicit operand. The input buffer, the
output buffer and the configuration registers read are fixed per opcode" (spec/30_encoding.md R73, R71); the derived
values `SPB` and `MID2` (spec/10_state.md R26, R27); `ConfigLegal()` (spec/41_modulator.md R104).
-/

namespace Sys2Proof.Machine

/-- The buffer a command reads (R51, R71). -/
def inputSpace : Instr → Space
  | .enc => .text
  | .dec => .bits
  | .mod => .bits
  | .dem => .wave
  | .val => .text

/-- The buffer a command writes (R51, R71); `VAL` "writes no buffer". -/
def outputSpace : Instr → Option Space
  | .enc => some .bits
  | .dec => some .text
  | .mod => some .wave
  | .dem => some .bits
  | .val => none

/-- `MemRead(space, i, n)` (spec/00_scope.md R9): the `n` cells from cell `i` on. -/
def memRead {α : Type} (cells : List α) (i n : Nat) : List α := (cells.drop i).take n

/-- `LEN(space)` (R9): the length register of a buffer (R34). -/
def bufferLen (m : Memory) : Space → Nat
  | .text => m.text.length
  | .bits => m.bits.length
  | .wave => m.wave.length

/-- A clause of `ConfigLegal()` that fails; `none` when the configuration is legal. When several fail, R150's "which
clause failed" does not say which is named: that it is the first in R104's listing is the model's choice (log 33). The
divisibility is tested after `CFG_BAUD > 0`, so nothing is divided by 0. -/
def configFault (s : State) : Option ConfigClause :=
  if s.cfgFs = 0 then some .fsZero
  else if s.cfgBaud = 0 then some .baudZero
  else if s.cfgFs % s.cfgBaud ≠ 0 then some .notDivisible
  else if s.cfgF1 = s.cfgF2 then some .tonesEqual
  else none

/-- `ConfigLegal()` (R104): `CFG_FS > 0`, `CFG_BAUD > 0`, `CFG_FS mod CFG_BAUD = 0`, `CFG_F1 ≠ CFG_F2`. -/
abbrev ConfigLegal (s : State) : Prop :=
  0 < s.cfgFs ∧ 0 < s.cfgBaud ∧ s.cfgFs % s.cfgBaud = 0 ∧ s.cfgF1 ≠ s.cfgF2

/-- `SPB` (R26): `CFG_FS div CFG_BAUD` in the exact case, otherwise "a read of register 10 returns 0". -/
def spb (s : State) : Nat :=
  if 0 < s.cfgBaud ∧ s.cfgFs % s.cfgBaud = 0 then s.cfgFs / s.cfgBaud else 0

/-- `MID2` (R27): `CFG_F1 + CFG_F2`, without wrap-around. -/
def mid2 (s : State) : Nat := s.cfgF1 + s.cfgF2

/-- The tone assignment "{0 → f1, 1 → f2}" (R25, R75). -/
def toneOf (s : State) (b : Bit) : Nat := if b then s.cfgF2 else s.cfgF1

end Sys2Proof.Machine
end

