-- ==== Sys2Proof/Machine/Ops.lean ====
section
/-!
DEFINITION. The operations the commands share: writing a buffer, capacity (spec/20_memory.md R63), completing a
command, and taking an error (spec/60_exceptions.md R159).
-/

namespace Sys2Proof.Machine

/-- Whether a sequence of `n` cells exceeds a capacity; an unbounded buffer is never exceeded (R63). -/
def exceeds (cap : Option Nat) (n : Nat) : Bool :=
  match cap with
  | none => false
  | some c => decide (c < n)

/-- The capacity of a buffer (R5, R63). -/
def capacityOf (p : Params) : Space → Option Nat
  | .text => p.textCap
  | .bits => p.bitsCap
  | .wave => p.waveCap

/-- The buffer's cells become `cells` and its length their number (`MemWrite` from cell 0 on and `LEN(TEXT) <- n`,
spec/00_scope.md R9). -/
def writeText (cells : List Nat) (s : State) : State := { s with mem := { s.mem with text := cells } }

/-- As `writeText`, for `BITS`. -/
def writeBits (cells : List Bit) (s : State) : State := { s with mem := { s.mem with bits := cells } }

/-- As `writeText`, for `WAVE`; the Modulator's cells are quantised already (R7, log 3). -/
def writeWave (cells : List Sample) (s : State) : State := { s with mem := { s.mem with wave := cells } }

/-- `LEN(space) <- 0`: no cell of the buffer exists any more (R34). -/
def clearBuffer : Space → State → State
  | .text, s => writeText [] s
  | .bits, s => writeBits [] s
  | .wave, s => writeWave [] s

/-- How every command ends that succeeds: `STATUS.ERR <- OK ; STATUS.BUSY <- 0` (R90, R91, R100, R110, R125). -/
def complete (s : State) : State := setBusy false (setErr none s)

/-- Taking an error, `raise E` (R159): the output buffer's length register is set to 0, `STATUS.ERR <- code(E)`,
`STATUS.BUSY <- 0`, and everything else is unchanged. "Nothing is saved, no mode changes, no control goes to a handler:
there is none"; so there is no return either ("There is nothing to return from", R160). -/
def raise (e : Err) (out : Space) (s : State) : State := setBusy false (setErr (some e) (clearBuffer out s))

/-- The error of a `CMD` write of an illegal word (R155): `STATUS.ERR <- 5`; "there is no output buffer to clear", so
`raise` does not apply, and nothing else changes. -/
def raiseIllegal (w : Byte) (s : State) : State := setErr (some (.illegal w)) s

end Sys2Proof.Machine
end

