-- ==== Sys2Proof/Machine/BitCodec.lean ====
section
/-!
DEFINITION. The Bit Codec (spec/40_bit_codec.md): `ENC` (R90) and `DEC` (R91), with the character code of
spec/30_encoding.md R74.
-/

namespace Sys2Proof.Machine

/-! ## The character code (R74) -/

/-- The 8-bit group of a character, most significant bit first: `g[j] = c[7-j]`. -/
def charBits (c : Nat) : List Bit := (List.range 8).map fun j => c.testBit (7 - j)

/-- The code point of a group: `Σ_{j=0..7} g[j]·2^(7-j)`. -/
def groupValue (g : List Bit) : Nat :=
  ((List.range 8).map fun j => (g.getD j false).toNat * 2 ^ (7 - j)).sum

/-! ## ENC -/

/-- The least index of a character whose code point exceeds 255, counted from `i` on; `none` if there is none. -/
def firstUnencodable (i : Nat) : List Nat → Option Nat
  | [] => none
  | c :: cs => if 255 < c then some i else firstUnencodable (i + 1) cs

/-- `encode(text) -> bits`: the groups of the characters "in original order". -/
def encodeText (text : List Nat) : List Bit := text.flatMap charBits

/-- The error of an `ENC`, if any: the source's own error first, then the capacity (R90, R158). -/
def encFault (s : State) : Option Err :=
  match firstUnencodable 0 s.mem.text with
  | some i => some (.encoding i)
  | none =>
    if exceeds s.params.bitsCap (8 * s.mem.text.length) then some (.capacity (8 * s.mem.text.length)) else none

/-- `ENC` (R90). -/
def execEnc (s : State) : Host.Outcome State Fault Refusal :=
  match encFault s with
  | some e => .next (raise e .bits s)
  | none => .next (complete (writeBits (encodeText s.mem.text) s))

/-! ## DEC -/

/-- `decode(bits) -> text` of a stream whose length is a multiple of 8: "consecutive groups of 8; each group's binary
value becomes one character's code point". -/
def decodeBits (bits : List Bit) : List Nat :=
  (List.range (bits.length / 8)).map fun i => groupValue (memRead bits (8 * i) 8)

/-- The error of a `DEC`, if any: a trailing partial group, then the capacity (R91). -/
def decFault (s : State) : Option Err :=
  if s.mem.bits.length % 8 ≠ 0 then some (.malformed s.mem.bits.length)
  else if exceeds s.params.textCap (s.mem.bits.length / 8) then some (.capacity (s.mem.bits.length / 8))
  else none

/-- `DEC` (R91). -/
def execDec (s : State) : Host.Outcome State Fault Refusal :=
  match decFault s with
  | some e => .next (raise e .text s)
  | none => .next (complete (writeText (decodeBits s.mem.bits) s))

end Sys2Proof.Machine
end

