-- ==== Sys2Proof/Machine/Exact.lean ====
section
/-!
DEFINITION. Exact arithmetic on samples: "the reference semantics of this spec are over exact reals" (spec/00_scope.md
R7). The sign of a sample in which nothing is open is decided exactly (log 4); in what follows an open part counts as 0,
and Machine/Reals.lean uses the sign only where there is none:

* `approx` computes a rational within a stated distance of an expression's value;
* a value that is not 0 cannot be closer to 0 than `separation` says, because it is an algebraic integer of the field
  of `level`-th roots of unity divided by `denom`, all whose conjugates are at most `height`;
* so `exactSign` looks at 32 bits first and, if they do not settle it, at as many as the separation needs.

That `exactSign` is the sign of the real number is proved in Laws/Exact.lean.
-/

namespace Sys2Proof.Machine

/-! ## Approximation -/

/-- `n < 2 ^ bitLen n`. -/
def bitLen (n : Nat) : Nat := Nat.log2 n + 1

/-- The first `n` terms of `arctan (1/m) = Σ (-1)^k / ((2k+1)·m^(2k+1))`. -/
def arctanInvSum (m : Nat) : Nat → Rat
  | 0 => 0
  | n + 1 => arctanInvSum m n + mkRat ((-1) ^ n) ((2 * n + 1) * m ^ (2 * n + 1))

/-- π within `2^-p`, by `π = 16·arctan(1/5) - 4·arctan(1/239)`. -/
def piApprox (p : Nat) : Rat := 16 * arctanInvSum 5 (p / 4 + 3) - 4 * arctanInvSum 239 (p / 4 + 3)

/-- The bits after the point with which a sine wanted within `2^-p` is computed. -/
def sineBits (p : Nat) : Nat := p + Nat.log2 (p + 8) + 6

/-- `n` terms of the alternating series of the sine from the `j`-th on, in units of `1/one`: `t` is the `j`-th term,
`x2` the square of the argument. -/
def sineSeries (one : Nat) (x2 : Int) : Nat → Nat → Int → Int
  | 0, _, _ => 0
  | n + 1, j, t =>
    if t = 0 then 0
    else t - sineSeries one x2 n (j + 1) (t * x2 / (one * ((2 * j + 2) * (2 * j + 3)) : Nat))

/-- The angle `2π·t` in units of `1/one`, rounded down. -/
def angle (one : Nat) (pi t : Rat) : Int := 2 * pi.num * t.num * one / (pi.den * t.den : Nat)

/-- The sine of `2π·t` within `2^-p`, for `0 ≤ t ≤ 1/4`, from `π` within `2^-(sineBits p)`. -/
def sineQuarter (pi t : Rat) (p : Nat) : Rat :=
  let one := 2 ^ sineBits p
  let x := angle one pi t
  mkRat (sineSeries one (x * x / one) (p + 8) 0 x) one

/-- The sine of `2π·turn` within `2^-p`, from `π` within `2^-(sineBits p)`: reduced to the first quarter turn. -/
def sineTurn (pi turn : Rat) (p : Nat) : Rat :=
  let f := turn - turn.floor
  if f ≤ 1 / 4 then sineQuarter pi f p
  else if f ≤ 1 / 2 then sineQuarter pi (1 / 2 - f) p
  else if f ≤ 3 / 4 then - sineQuarter pi (f - 1 / 2) p
  else - sineQuarter pi (1 - f) p

/-- A bound on the absolute value of a sample. -/
def absBound : Sample → Nat
  | .rat q => q.num.natAbs
  | .sin _ => 1
  | .neg a => absBound a
  | .add a b => absBound a + absBound b
  | .mul a b => absBound a * absBound b
  | .unknown _ => 0
  | .ownSin _ => 0
  | .rounded _ => 0

/-- How many sines a sample is computed from: `approx` errs by at most this many units of `2^-p`. -/
def sineCount : Sample → Nat
  | .rat _ => 0
  | .sin _ => 1
  | .neg a => sineCount a
  | .add a b => sineCount a + sineCount b
  | .mul a b => sineCount a + sineCount b
  | .unknown _ => 0
  | .ownSin _ => 0
  | .rounded _ => 0

/-- The bits with which the left factor of a product is approximated. -/
def leftBits (b : Sample) (p : Nat) : Nat := p + bitLen (absBound b + 1)

/-- The bits with which the right factor of a product is approximated. -/
def rightBits (a b : Sample) (p : Nat) : Nat := p + bitLen (absBound a) + bitLen (sineCount b)

/-- The bits of π that `approx` at `p` needs. -/
def piBits : Sample → Nat → Nat
  | .rat _, _ => 0
  | .sin _, p => sineBits p
  | .neg a, p => piBits a p
  | .add a b, p => max (piBits a p) (piBits b p)
  | .mul a b, p => max (piBits a (leftBits b p)) (piBits b (rightBits a b p))
  | .unknown _, _ => 0
  | .ownSin _, _ => 0
  | .rounded _, _ => 0

/-- A rational within `sineCount · 2^-p` of a sample, from `pi` within `2^-(piBits)` of π. -/
def approx (pi : Rat) : Sample → Nat → Rat
  | .rat q, _ => q
  | .sin r, p => sineTurn pi r p
  | .neg a, p => - approx pi a p
  | .add a b, p => approx pi a p + approx pi b p
  | .mul a b, p => approx pi a (leftBits b p) * approx pi b (rightBits a b p)
  | .unknown _, _ => 0
  | .ownSin _, _ => 0
  | .rounded _, _ => 0

/-! ## Separation from zero -/

/-- An order of roots of unity that generate a field a sample lies in. -/
def level : Sample → Nat
  | .rat _ => 4
  | .sin r => 4 * r.den
  | .neg a => level a
  | .add a b => Nat.lcm (level a) (level b)
  | .mul a b => Nat.lcm (level a) (level b)
  | .unknown _ => 4
  | .ownSin _ => 4
  | .rounded _ => 4

/-- A positive number whose product with the sample is an integer combination of roots of unity. -/
def denom : Sample → Nat
  | .rat q => q.den
  | .sin _ => 2
  | .neg a => denom a
  | .add a b => Nat.lcm (denom a) (denom b)
  | .mul a b => denom a * denom b
  | .unknown _ => 1
  | .ownSin _ => 1
  | .rounded _ => 1

/-- A bound on `denom` times the sample and on all its conjugates. -/
def height : Sample → Nat
  | .rat q => q.num.natAbs
  | .sin _ => 2
  | .neg a => height a
  | .add a b =>
    Nat.lcm (denom a) (denom b) / denom a * height a + Nat.lcm (denom a) (denom b) / denom b * height b
  | .mul a b => height a * height b
  | .unknown _ => 0
  | .ownSin _ => 0
  | .rounded _ => 0

/-- Bits that tell a sample from 0: a sample that is not 0 is at least `1 / (denom · height ^ φ(level))` in absolute
value. -/
def separation (e : Sample) : Nat :=
  bitLen (sineCount e) + 1 + bitLen (denom e) + Nat.totient (level e) * bitLen (height e)

/-! ## Comparison -/

/-- The sign of a sample as far as an approximation with `p` bits shows it. -/
def signAt (e : Sample) (p : Nat) : Option Ordering :=
  let x := approx (piApprox (piBits e p)) e p
  let u := mkRat (sineCount e) (2 ^ p)
  if u < x then some .gt else if x < -u then some .lt else none

/-- The sign of a sample, exactly, its open parts counting as 0. -/
def exactSign (e : Sample) : Ordering :=
  if height e = 0 then .eq
  else
    match signAt e 32 with
    | some o => o
    | none => (signAt e (separation e)).getD .eq

end Sys2Proof.Machine
end

