-- ==== Sys2Proof/Laws/ExactPi.lean ====
section
/-!
SUPPORT. `piApprox p` is within `2^-p` of π, and `bitLen` bounds a number.
-/

namespace Sys2Proof.Laws

open Sys2Proof.Machine

theorem lt_two_pow_bitLen (n : Nat) : n < 2 ^ bitLen n := Nat.lt_log2_self

/-- One partial sum of the arctangent series, as a real number. -/
theorem arctanInvSum_cast (m n : Nat) :
    (arctanInvSum m n : ℝ) = ∑ k ∈ Finset.range n, (-1) ^ k * ((m : ℝ)⁻¹) ^ (2 * k + 1) / ↑(2 * k + 1) := by
  induction n with
  | zero => simp [arctanInvSum]
  | succ n ih =>
    rw [Finset.sum_range_succ, ← ih, arctanInvSum, Rat.mkRat_eq_div]
    push_cast
    congr 1
    rw [inv_pow, mul_comm ((2 : ℝ) * n + 1), ← div_div, div_eq_mul_inv ((-1 : ℝ) ^ n)]

/-- The error of a partial sum of the arctangent series at most `1/m`, for `m ≥ 5`. -/
theorem arctanInvSum_error (m n : Nat) (hm : 5 ≤ m) :
    |(arctanInvSum m n : ℝ) - Real.arctan (m : ℝ)⁻¹| ≤ (1 / 16) ^ n := by
  have hm' : (5 : ℝ) ≤ m := by exact_mod_cast hm
  have hx0 : 0 < (m : ℝ)⁻¹ := by positivity
  have hx : (m : ℝ)⁻¹ ≤ 1 / 5 := by
    rw [inv_eq_one_div]
    exact one_div_le_one_div_of_le (by norm_num) hm'
  have hs := Real.hasSum_arctan (x := (m : ℝ)⁻¹) (by rw [Real.norm_eq_abs, abs_of_pos hx0]; linarith)
  have hb : ∀ k : ℕ, ‖(-1 : ℝ) ^ k * ((m : ℝ)⁻¹) ^ (2 * k + 1) / ↑(2 * k + 1)‖ ≤ 1 / 5 * (1 / 16) ^ k := by
    intro k
    have h1 : ((m : ℝ)⁻¹) ^ (2 * k + 1) ≤ 1 / 5 * (1 / 16) ^ k := by
      rw [pow_succ, pow_mul, mul_comm]
      apply mul_le_mul hx _ (by positivity) (by positivity)
      apply pow_le_pow_left₀ (by positivity)
      nlinarith
    have h2 : (1 : ℝ) ≤ ↑(2 * k + 1) := by push_cast; have : (0 : ℝ) ≤ k := k.cast_nonneg; linarith
    rw [norm_div, norm_mul, norm_pow, norm_neg, norm_one, one_pow, one_mul, Real.norm_of_nonneg (by positivity),
      Real.norm_of_nonneg (by positivity)]
    exact (div_le_self (by positivity) h2).trans h1
  have := norm_sub_le_of_geometric_bound_of_hasSum (by norm_num) hb hs n
  rw [arctanInvSum_cast, ← Real.norm_eq_abs]
  refine this.trans ?_
  have : (0 : ℝ) < (1 / 16) ^ n := by positivity
  rw [div_le_iff₀ (by norm_num)]
  nlinarith

theorem piApprox_spec (p : Nat) : |(piApprox p : ℝ) - Real.pi| ≤ 1 / 2 ^ p := by
  have h5 := arctanInvSum_error 5 (p / 4 + 3) (by norm_num)
  have h239 := arctanInvSum_error 239 (p / 4 + 3) (by norm_num)
  have hpi : Real.pi = 16 * Real.arctan ((5 : ℕ) : ℝ)⁻¹ - 4 * Real.arctan ((239 : ℕ) : ℝ)⁻¹ := by
    have := Real.four_mul_arctan_inv_5_sub_arctan_inv_239
    push_cast
    linarith
  have hp : (20 : ℝ) * (1 / 16) ^ (p / 4 + 3) ≤ 1 / 2 ^ p := by
    have hle : (2 : ℝ) ^ p ≤ 16 ^ (p / 4 + 1) := by
      rw [show (16 : ℝ) = 2 ^ 4 by norm_num, ← pow_mul]
      exact pow_le_pow_right₀ (by norm_num) (by omega)
    rw [one_div_pow, mul_one_div, div_le_div_iff₀ (by positivity) (by positivity), pow_add 16 (p / 4 + 1) 2]
    have : (0 : ℝ) < 16 ^ (p / 4 + 1) := by positivity
    nlinarith
  have hval : (piApprox p : ℝ) - Real.pi =
      16 * ((arctanInvSum 5 (p / 4 + 3) : ℝ) - Real.arctan ((5 : ℕ) : ℝ)⁻¹) -
        4 * ((arctanInvSum 239 (p / 4 + 3) : ℝ) - Real.arctan ((239 : ℕ) : ℝ)⁻¹) := by
    rw [hpi, piApprox]
    push_cast
    ring
  rw [hval]
  rw [abs_le] at h5 h239 ⊢
  constructor <;> linarith [h5.1, h5.2, h239.1, h239.2]

end Sys2Proof.Laws
end

