-- ==== Sys2Proof/Laws/ExactSine.lean ====
section
/-!
SUPPORT. `sineTurn pi r p` is within `2^-p` of the sine of `2π·r` when `pi` is within `2^-(sineBits p)` of π.
-/

namespace Sys2Proof.Laws

open Sys2Proof.Machine

/-- The `j`-th term of the sine's series at `x`, without its sign. -/
noncomputable def sineTerm (x : ℝ) (j : Nat) : ℝ := x ^ (2 * j + 1) / (2 * j + 1).factorial

theorem sineTerm_succ (x : ℝ) (j : Nat) :
    sineTerm x (j + 1) = sineTerm x j * x ^ 2 / ((2 * j + 2) * (2 * j + 3)) := by
  rw [sineTerm, sineTerm, show 2 * (j + 1) + 1 = 2 * j + 1 + 1 + 1 by ring, Nat.factorial_succ, Nat.factorial_succ]
  have : ((2 * j + 1).factorial : ℝ) ≠ 0 := by exact_mod_cast Nat.factorial_ne_zero _
  push_cast
  field_simp
  ring

theorem sineTerm_nonneg {x : ℝ} (hx : 0 ≤ x) (j : Nat) : 0 ≤ sineTerm x j := by
  unfold sineTerm; positivity

theorem sineTerm_le {x : ℝ} (hx : 0 ≤ x) (hx' : x ≤ 8 / 5) (j i : Nat) : sineTerm x (j + i) ≤ sineTerm x j := by
  induction i with
  | zero => simp
  | succ i ih =>
    refine le_trans ?_ ih
    rw [← add_assoc, sineTerm_succ, div_le_iff₀ (by positivity)]
    apply mul_le_mul_of_nonneg_left _ (sineTerm_nonneg hx _)
    have : (0 : ℝ) ≤ ↑(j + i) := Nat.cast_nonneg _
    nlinarith

theorem floor_div_bounds (a : Int) (b : Nat) (hb : 0 < b) :
    ((a / b : Int) : ℝ) ≤ (a : ℝ) / b ∧ (a : ℝ) / b < ((a / b : Int) : ℝ) + 1 := by
  have hb' : (0 : ℝ) < b := by exact_mod_cast hb
  have hb'' : (0 : Int) < (b : Int) := by exact_mod_cast hb
  have h1 : (a / b : Int) * b ≤ a := Int.ediv_mul_le a hb''.ne'
  have h2 : a < (a / b + 1) * b := Int.lt_ediv_add_one_mul_self a hb''
  refine ⟨?_, ?_⟩
  · rw [le_div_iff₀ hb']; exact_mod_cast h1
  · rw [div_lt_iff₀ hb']; exact_mod_cast h2

/-- One term of `sineSeries` stays within 3 units of the series' term. -/
theorem sineSeries_term {one : Nat} (hone : 0 < one) {x : ℝ} (hx : 0 ≤ x) (hx' : x ≤ 8 / 5) {x2 : Int} (h20 : 0 ≤ x2)
    (h2 : (x2 : ℝ) / one ≤ x ^ 2) (h2' : x ^ 2 ≤ (x2 : ℝ) / one + 1 / one) {j : Nat} {t : Int} (ht : 0 ≤ t)
    (he : |(t : ℝ) / one - sineTerm x j| ≤ 3 / one) :
    0 ≤ t * x2 / (one * ((2 * j + 2) * (2 * j + 3)) : Nat) ∧
      |((t * x2 / (one * ((2 * j + 2) * (2 * j + 3)) : Nat) : Int) : ℝ) / one - sineTerm x (j + 1)| ≤ 3 / one := by
  set c : Nat := (2 * j + 2) * (2 * j + 3) with hc
  have hc0 : 0 < one * c := by positivity
  refine ⟨Int.ediv_nonneg (mul_nonneg ht h20) (by positivity), ?_⟩
  obtain ⟨hl, hu⟩ := floor_div_bounds (t * x2) (one * c) hc0
  set r : Int := t * x2 / (one * c : Nat)
  have ho : (0 : ℝ) < one := by exact_mod_cast hone
  have hc6 : (6 : ℝ) ≤ c := by
    have : 6 ≤ c := by rw [hc]; nlinarith [Nat.zero_le j]
    exact_mod_cast this
  have hterm : sineTerm x (j + 1) = sineTerm x j * x ^ 2 / c := by rw [sineTerm_succ, hc]; push_cast; rfl
  have hτ0 := sineTerm_nonneg hx j
  have hτ : sineTerm x j ≤ 8 / 5 := by
    have := sineTerm_le hx hx' 0 j
    rw [zero_add] at this
    refine this.trans ?_
    simpa [sineTerm] using hx'
  have hval : ((t * x2 : Int) : ℝ) / ((one * c : Nat) : ℝ) = (t : ℝ) / one * ((x2 : ℝ) / one) / c * one := by
    push_cast; field_simp
  rw [hval] at hl hu
  set a : ℝ := (t : ℝ) / one
  set b : ℝ := (x2 : ℝ) / one
  set u : ℝ := 1 / one with hu1
  have hu0 : 0 < u := by positivity
  have h3 : (3 : ℝ) / one = 3 * u := by rw [hu1]; ring
  have hb0 : 0 ≤ b := by positivity
  have hrl : (r : ℝ) / one ≤ a * b / c := by rw [div_le_iff₀ ho]; exact hl
  have hru : a * b / c ≤ (r : ℝ) / one + u := by
    have : (r : ℝ) / one + u = ((r : ℝ) + 1) / one := by rw [hu1]; ring
    rw [this, le_div_iff₀ ho]; exact hu.le
  rw [h3] at he ⊢
  rw [abs_le] at he
  have hx2 : x ^ 2 ≤ 64 / 25 := by nlinarith
  -- the product is within 9.28 units, so a sixth of it within 1.55
  have hp1 : a * b - sineTerm x j * x ^ 2 ≤ 9.28 * u := by nlinarith [he.1, he.2]
  have hp2 : -(9.28 * u) ≤ a * b - sineTerm x j * x ^ 2 := by nlinarith [he.1, he.2]
  have hd : a * b / c - sineTerm x j * x ^ 2 / c = (a * b - sineTerm x j * x ^ 2) / c := by ring
  have hd1 : (a * b - sineTerm x j * x ^ 2) / c ≤ 2 * u := by
    rw [div_le_iff₀ (by linarith)]; nlinarith
  have hd2 : -(2 * u) ≤ (a * b - sineTerm x j * x ^ 2) / c := by
    rw [le_div_iff₀ (by linarith)]; nlinarith
  rw [hterm, abs_le]
  constructor <;> linarith

/-- `n` terms of `sineSeries` are within `3n` units of the series' alternating sum. -/
theorem sineSeries_sum {one : Nat} (hone : 0 < one) {x : ℝ} (hx : 0 ≤ x) (hx' : x ≤ 8 / 5) {x2 : Int} (h20 : 0 ≤ x2)
    (h2 : (x2 : ℝ) / one ≤ x ^ 2) (h2' : x ^ 2 ≤ (x2 : ℝ) / one + 1 / one) (n : Nat) :
    ∀ (j : Nat) (t : Int), 0 ≤ t → |(t : ℝ) / one - sineTerm x j| ≤ 3 / one →
      |(sineSeries one x2 n j t : ℝ) / one - ∑ i ∈ Finset.range n, (-1) ^ i * sineTerm x (j + i)| ≤ 3 * n / one := by
  have ho : (0 : ℝ) < one := by exact_mod_cast hone
  induction n with
  | zero => intro j t _ _; simp [sineSeries]
  | succ n ih =>
    intro j t ht he
    rw [sineSeries]
    split
    · next h0 =>
      subst h0
      have hτ : sineTerm x j ≤ 3 / one := by
        rw [Int.cast_zero, zero_div, zero_sub, abs_neg] at he
        exact (le_abs_self _).trans he
      rw [Int.cast_zero, zero_div, zero_sub, abs_neg]
      refine (Finset.abs_sum_le_sum_abs _ _).trans ?_
      have : ∀ i ∈ Finset.range (n + 1), |(-1 : ℝ) ^ i * sineTerm x (j + i)| ≤ 3 / one := by
        intro i _
        rw [abs_mul, abs_pow, abs_neg, abs_one, one_pow, one_mul, abs_of_nonneg (sineTerm_nonneg hx _)]
        exact (sineTerm_le hx hx' j i).trans hτ
      refine (Finset.sum_le_sum this).trans (le_of_eq ?_)
      simp only [Finset.sum_const, Finset.card_range, nsmul_eq_mul]
      push_cast
      ring
    · obtain ⟨hn, hb⟩ := sineSeries_term hone hx hx' h20 h2 h2' ht he
      have := ih (j + 1) _ hn hb
      rw [Finset.sum_range_succ']
      have hs : ∑ k ∈ Finset.range n, (-1 : ℝ) ^ (k + 1) * sineTerm x (j + (k + 1)) =
          - ∑ k ∈ Finset.range n, (-1 : ℝ) ^ k * sineTerm x (j + 1 + k) := by
        rw [← Finset.sum_neg_distrib]
        refine Finset.sum_congr rfl fun k _ => ?_
        rw [pow_succ, show j + (k + 1) = j + 1 + k by ring]
        ring
      rw [hs, pow_zero, one_mul, add_zero, Int.cast_sub, sub_div]
      have h3 : (3 : ℝ) * ((n + 1 : Nat) : ℝ) / one = 3 * n / one + 3 / one := by push_cast; ring
      rw [h3]
      rw [abs_le] at this he ⊢
      constructor <;> linarith [this.1, this.2, he.1, he.2]

/-- The imaginary part of the exponential's partial sum is the sine's. -/
theorem exp_sum_im (x : ℝ) (n : Nat) :
    (∑ m ∈ Finset.range (2 * n), ((x : ℂ) * Complex.I) ^ m / (m.factorial : ℂ)).im =
      ∑ i ∈ Finset.range n, (-1) ^ i * sineTerm x i := by
  induction n with
  | zero => simp
  | succ n ih =>
    rw [show 2 * (n + 1) = 2 * n + 1 + 1 by ring, Finset.sum_range_succ, Finset.sum_range_succ, Finset.sum_range_succ,
      Complex.add_im, Complex.add_im, ih]
    have h1 : (((x : ℂ) * Complex.I) ^ (2 * n) / ((2 * n).factorial : ℂ)).im = 0 := by
      rw [mul_pow, pow_mul Complex.I, Complex.I_sq]
      have : ((x : ℂ) ^ (2 * n) * (-1) ^ n / ((2 * n).factorial : ℂ)) =
          ((x ^ (2 * n) * (-1) ^ n / ((2 * n).factorial : ℝ) : ℝ) : ℂ) := by push_cast; rfl
      rw [this, Complex.ofReal_im]
    have h2 : (((x : ℂ) * Complex.I) ^ (2 * n + 1) / ((2 * n + 1).factorial : ℂ)).im = (-1) ^ n * sineTerm x n := by
      rw [mul_pow, pow_succ Complex.I, pow_mul Complex.I, Complex.I_sq]
      have : ((x : ℂ) ^ (2 * n + 1) * ((-1) ^ n * Complex.I) / ((2 * n + 1).factorial : ℂ)) =
          (((-1) ^ n * sineTerm x n : ℝ) : ℂ) * Complex.I := by
        unfold sineTerm; push_cast; ring
      rw [this, Complex.im_ofReal_mul, Complex.I_im, mul_one]
    rw [h1, h2, add_zero]

theorem eight_pow_le_factorial (n : Nat) : 8 ^ n ≤ 16 * (2 * n).factorial := by
  induction n with
  | zero => simp
  | succ n ih =>
    rcases n with _ | n
    · decide
    · rw [show 2 * (n + 1 + 1) = 2 * (n + 1) + 1 + 1 by ring, Nat.factorial_succ, Nat.factorial_succ, pow_succ]
      set f := (2 * (n + 1)).factorial
      have : 8 ≤ (2 * (n + 1) + 1 + 1) * (2 * (n + 1) + 1) := by nlinarith
      calc 8 ^ (n + 1) * 8 ≤ (16 * f) * ((2 * (n + 1) + 1 + 1) * (2 * (n + 1) + 1)) := Nat.mul_le_mul ih this
        _ = _ := by ring

/-- The remainder of the sine's series after `p + 8` terms. -/
theorem sine_remainder {x : ℝ} (hx : 0 ≤ x) (hx' : x ≤ 8 / 5) (p : Nat) :
    |∑ i ∈ Finset.range (p + 8), (-1) ^ i * sineTerm x i - Real.sin x| ≤ 1 / 2 ^ (p + 3) := by
  set n := p + 8 with hn
  have hnorm : ‖(x : ℂ) * Complex.I‖ = x := by simp [abs_of_nonneg hx]
  have hb := Complex.exp_bound' (x := (x : ℂ) * Complex.I) (n := 2 * n) (by
    rw [hnorm, div_le_iff₀ (by positivity)]
    have : (16 : ℝ) ≤ ((2 * n).succ : ℝ) := by exact_mod_cast (show 16 ≤ (2 * n).succ by omega)
    linarith)
  rw [hnorm] at hb
  have him := (Complex.abs_im_le_norm _).trans hb
  rw [Complex.sub_im, exp_sum_im, Complex.exp_ofReal_mul_I_im] at him
  rw [abs_sub_comm]
  refine him.trans ?_
  have hf : (8 : ℝ) ^ n ≤ 16 * ((2 * n).factorial : ℝ) := by exact_mod_cast eight_pow_le_factorial n
  have hf0 : (0 : ℝ) < ((2 * n).factorial : ℝ) := by exact_mod_cast Nat.factorial_pos _
  have hx4 : x ^ (2 * n) ≤ 4 ^ n := by
    rw [pow_mul]
    exact pow_le_pow_left₀ (by positivity) (by nlinarith) n
  have h8 : (8 : ℝ) ^ n = 4 ^ n * 2 ^ n := by rw [← mul_pow]; norm_num
  have h2 : (2 : ℝ) ^ n = 2 ^ (p + 3) * 32 := by rw [hn, show p + 8 = p + 3 + 5 by ring, pow_add]; norm_num
  rw [div_mul_eq_mul_div, div_le_div_iff₀ hf0 (by positivity), one_mul]
  have h2p : (0 : ℝ) < 2 ^ (p + 3) := by positivity
  have : (4 : ℝ) ^ n * 2 * 2 ^ (p + 3) ≤ (2 * n).factorial := by
    rw [h8, h2] at hf
    nlinarith [pow_pos (show (0 : ℝ) < 4 by norm_num) n]
  calc x ^ (2 * n) * 2 * 2 ^ (p + 3) ≤ 4 ^ n * 2 * 2 ^ (p + 3) := by gcongr
    _ ≤ _ := this

theorem two_halves (p : Nat) : (1 : ℝ) / 2 ^ (p + 3) + 1 / 2 ^ (p + 3) ≤ 1 / 2 ^ p := by
  rw [← add_div, div_le_div_iff₀ (by positivity) (by positivity), pow_add]
  have : (0 : ℝ) < 2 ^ p := by positivity
  nlinarith

/-- The bits of `sineBits` pay for the errors of `p + 8` terms. -/
theorem sineBits_suffice (p : Nat) :
    3 * ((p + 8 : Nat) : ℝ) / ((2 ^ sineBits p : Nat) : ℝ) + 2 / ((2 ^ sineBits p : Nat) : ℝ) ≤ 1 / 2 ^ (p + 3) := by
  have hlog : p + 8 < 2 ^ (Nat.log2 (p + 8) + 1) := Nat.lt_log2_self
  have hlog' : ((p + 8 : Nat) : ℝ) + 1 ≤ 2 ^ (Nat.log2 (p + 8) + 1) := by exact_mod_cast hlog
  have hone : ((2 ^ sineBits p : Nat) : ℝ) = 2 ^ (p + 3) * (4 * 2 ^ (Nat.log2 (p + 8) + 1)) := by
    rw [sineBits]; push_cast; ring
  generalize (2 : ℝ) ^ (Nat.log2 (p + 8) + 1) = m at hlog' hone
  have h2p : (0 : ℝ) < 2 ^ (p + 3) := by positivity
  have hp : (0 : ℝ) ≤ ((p + 8 : Nat) : ℝ) := Nat.cast_nonneg _
  have hm : 0 < m := by linarith
  rw [← add_div, hone, div_le_div_iff₀ (by positivity) h2p, one_mul, mul_comm]
  exact mul_le_mul_of_nonneg_left (by linarith) h2p.le

theorem angle_bounds (one : Nat) (pi t : Rat) :
    (angle one pi t : ℝ) ≤ 2 * pi * t * one ∧ (2 * pi * t * one : ℝ) < angle one pi t + 1 := by
  have hd : 0 < pi.den * t.den := Nat.mul_pos pi.den_pos t.den_pos
  have := floor_div_bounds (2 * pi.num * t.num * one) (pi.den * t.den) hd
  have hv : ((2 * pi.num * t.num * one : Int) : ℝ) / ((pi.den * t.den : Nat) : ℝ) = 2 * pi * t * one := by
    conv_rhs => rw [Rat.cast_def pi, Rat.cast_def t]
    have h1 : (pi.den : ℝ) ≠ 0 := by exact_mod_cast pi.den_nz
    have h2 : (t.den : ℝ) ≠ 0 := by exact_mod_cast t.den_nz
    push_cast
    field_simp
  rwa [hv] at this

/-- `sineQuarter` is within `2^-p` of the sine on the first quarter turn. -/
theorem sineQuarter_spec {pi t : Rat} {p : Nat} (hpi : |(pi : ℝ) - Real.pi| ≤ 1 / 2 ^ sineBits p) (ht : 0 ≤ t)
    (ht' : t ≤ 1 / 4) : |(sineQuarter pi t p : ℝ) - Real.sin (2 * Real.pi * t)| ≤ 1 / 2 ^ p := by
  set one : Nat := 2 ^ sineBits p with hone
  have hone0 : 0 < one := by positivity
  have ho : (0 : ℝ) < one := by exact_mod_cast hone0
  have hone64 : (64 : ℝ) ≤ one := by
    have : 2 ^ 6 ≤ one := Nat.pow_le_pow_right (by norm_num) (by unfold sineBits; omega)
    exact_mod_cast this
  have hpi' : |(pi : ℝ) - Real.pi| ≤ 1 / one := by rw [hone]; push_cast; exact hpi
  have ht0 : (0 : ℝ) ≤ t := by exact_mod_cast ht
  have ht1 : (t : ℝ) ≤ 1 / 4 := by
    have : ((t : Rat) : ℝ) ≤ ((1 / 4 : Rat) : ℝ) := by exact_mod_cast ht'
    simpa using this
  rw [abs_le] at hpi'
  have hu64 : 1 / (one : ℝ) ≤ 1 / 64 := one_div_le_one_div_of_le (by norm_num) hone64
  have hpi0 : (3 : ℝ) ≤ pi := by linarith [Real.pi_gt_d2, hpi'.1]
  have hpi1 : (pi : ℝ) ≤ 3.2 := by linarith [Real.pi_lt_d2, hpi'.2]
  obtain ⟨hl, hu⟩ := angle_bounds one pi t
  set X := angle one pi t with hX
  have hy0 : (0 : ℝ) ≤ 2 * pi * t * one := by positivity
  have hX0 : 0 ≤ X := by
    have : (-1 : ℝ) < X := by linarith
    have : (-1 : Int) < X := by exact_mod_cast this
    omega
  set x : ℝ := (X : ℝ) / one with hx
  have hx0 : 0 ≤ x := by positivity
  have hxl : x ≤ 2 * pi * t := by rw [hx, div_le_iff₀ ho]; exact hl
  have hxu : 2 * pi * t ≤ x + 1 / one := by
    rw [hx, ← add_div, le_div_iff₀ ho]; exact hu.le
  have hx85 : x ≤ 8 / 5 := by nlinarith
  obtain ⟨h2, h2'⟩ := floor_div_bounds (X * X) one hone0
  set x2 : Int := X * X / one with hx2
  have hxx : ((X * X : Int) : ℝ) / one = x ^ 2 * one := by rw [hx]; push_cast; field_simp
  rw [hxx] at h2 h2'
  have h20 : 0 ≤ x2 := Int.ediv_nonneg (mul_nonneg hX0 hX0) (by positivity)
  have hb1 : (x2 : ℝ) / one ≤ x ^ 2 := by rw [div_le_iff₀ ho]; exact h2
  have hb2 : x ^ 2 ≤ (x2 : ℝ) / one + 1 / one := by rw [← add_div, le_div_iff₀ ho]; exact h2'.le
  have hT : |(X : ℝ) / one - sineTerm x 0| ≤ 3 / one := by
    have : sineTerm x 0 = (X : ℝ) / one := by simp [sineTerm, hx]
    rw [this, sub_self, abs_zero]; positivity
  have hs := sineSeries_sum hone0 hx0 hx85 h20 hb1 hb2 (p + 8) 0 X hX0 hT
  simp only [zero_add] at hs
  have hr := sine_remainder hx0 hx85 p
  have hlip : |Real.sin x - Real.sin (2 * Real.pi * t)| ≤ 2 / one := by
    have h := Real.abs_sin_sub_sin_le (x) (2 * Real.pi * t)
    refine h.trans ?_
    rw [abs_le]
    have h21 : (2 : ℝ) / one = 1 / one + 1 / one := by ring
    rw [h21]
    constructor <;> nlinarith [hpi'.1, hpi'.2]
  have hval : (sineQuarter pi t p : ℝ) = (sineSeries one x2 (p + 8) 0 X : ℝ) / one := by
    rw [sineQuarter, Rat.mkRat_eq_div]; push_cast; rw [hone]; push_cast; rfl
  rw [hval]
  have hbits := sineBits_suffice p
  rw [← hone] at hbits
  have h23 := two_halves p
  rw [abs_le] at hs hr hlip ⊢
  constructor <;> linarith [hs.1, hs.2, hr.1, hr.2, hlip.1, hlip.2]

/-- `sineTurn` is within `2^-p` of the sine of a number of turns. -/
theorem sineTurn_spec {pi : Rat} {p : Nat} (hpi : |(pi : ℝ) - Real.pi| ≤ 1 / 2 ^ sineBits p) (r : Rat) :
    |(sineTurn pi r p : ℝ) - Real.sin (2 * Real.pi * r)| ≤ 1 / 2 ^ p := by
  have hf0 : 0 ≤ r - r.floor := by
    have : (r.floor : Rat) ≤ r := Int.floor_le r
    linarith
  have hf1 : r - r.floor < 1 := by
    have : r < (r.floor : Rat) + 1 := Int.lt_floor_add_one r
    linarith
  have hper : Real.sin (2 * Real.pi * r) = Real.sin (2 * Real.pi * ((r - r.floor : Rat) : ℝ)) := by
    have : 2 * Real.pi * ((r - r.floor : Rat) : ℝ) = 2 * Real.pi * r - r.floor * (2 * Real.pi) := by
      push_cast; ring
    rw [this, Real.sin_sub_int_mul_two_pi]
  rw [hper, sineTurn]
  generalize r - r.floor = f at hf0 hf1 ⊢
  split_ifs with h1 h2 h3
  · exact sineQuarter_spec hpi hf0 h1
  · have := sineQuarter_spec (t := 1 / 2 - f) hpi (by linarith) (by linarith)
    have he : Real.sin (2 * Real.pi * ((1 / 2 - f : Rat) : ℝ)) = Real.sin (2 * Real.pi * f) := by
      rw [← Real.sin_pi_sub]; congr 1; push_cast; ring
    rwa [he] at this
  · have := sineQuarter_spec (t := f - 1 / 2) hpi (by linarith) (by linarith)
    have he : Real.sin (2 * Real.pi * ((f - 1 / 2 : Rat) : ℝ)) = - Real.sin (2 * Real.pi * f) := by
      rw [← Real.sin_sub_pi]; congr 1; push_cast; ring
    rw [he] at this
    rw [Rat.cast_neg, ← abs_neg]
    convert this using 2
    ring
  · have := sineQuarter_spec (t := 1 - f) hpi (by linarith) (by linarith)
    have he : Real.sin (2 * Real.pi * ((1 - f : Rat) : ℝ)) = - Real.sin (2 * Real.pi * f) := by
      rw [← Real.sin_two_pi_sub]; congr 1; push_cast; ring
    rw [he] at this
    rw [Rat.cast_neg, ← abs_neg]
    convert this using 2
    ring

end Sys2Proof.Laws
end

