-- ==== Sys2Proof/Laws/ExactApprox.lean ====
section
/-!
SUPPORT. `approx` is within `sineCount · 2^-p` of a sample's value, its open parts counting as 0.
-/

/-- The real number a sample is when its open parts are 0. -/
noncomputable def Sys2Proof.Sample.zeroVal : Sys2Proof.Sample → ℝ
  | .rat q => (q : ℝ)
  | .sin turn => Real.sin (2 * Real.pi * turn)
  | .neg a => - a.zeroVal
  | .add a b => a.zeroVal + b.zeroVal
  | .mul a b => a.zeroVal * b.zeroVal
  | .unknown _ => 0
  | .ownSin _ => 0
  | .rounded _ => 0

namespace Sys2Proof.Laws

open Sys2Proof.Machine

theorem absBound_spec (e : Sample) : |e.zeroVal| ≤ absBound e := by
  induction e with
  | rat q =>
    rw [Sample.zeroVal, absBound, Rat.cast_def, abs_div, Nat.cast_natAbs, Int.cast_abs, Nat.abs_cast]
    exact div_le_self (abs_nonneg _) (by exact_mod_cast q.den_pos)
  | sin r => simpa [Sample.zeroVal, absBound] using Real.abs_sin_le_one _
  | neg a ih => simpa [Sample.zeroVal, absBound] using ih
  | add a b iha ihb =>
    rw [Sample.zeroVal, absBound, Nat.cast_add]
    exact (abs_add_le _ _).trans (add_le_add iha ihb)
  | mul a b iha ihb =>
    rw [Sample.zeroVal, absBound, Nat.cast_mul, abs_mul]
    exact mul_le_mul iha ihb (abs_nonneg _) (Nat.cast_nonneg _)
  | unknown n => simp [Sample.zeroVal, absBound]
  | ownSin turn => simp [Sample.zeroVal, absBound]
  | rounded a => simp [Sample.zeroVal, absBound]

theorem closer_of_le {x : ℝ} {m n : Nat} (h : |x| ≤ 1 / 2 ^ n) (hmn : m ≤ n) : |x| ≤ 1 / 2 ^ m :=
  h.trans (one_div_le_one_div_of_le (by positivity) (pow_le_pow_right₀ (by norm_num) hmn))

/-- The error of a product of approximations: each factor is precise enough for the other's size. -/
theorem product_error {x y a b : ℝ} {A B ca cb p : Nat} (hx : |x - a| ≤ ca / 2 ^ (p + bitLen (B + 1)))
    (hy : |y - b| ≤ cb / 2 ^ (p + bitLen A + bitLen cb)) (ha : |a| ≤ A) (hb : |b| ≤ B) :
    |x * y - a * b| ≤ (ca + cb) / 2 ^ p := by
  have hB : (B : ℝ) + 1 ≤ 2 ^ bitLen (B + 1) := by exact_mod_cast (lt_two_pow_bitLen (B + 1)).le
  have hA : (A : ℝ) ≤ 2 ^ bitLen A := by exact_mod_cast (lt_two_pow_bitLen A).le
  have hc : (cb : ℝ) ≤ 2 ^ bitLen cb := by exact_mod_cast (lt_two_pow_bitLen cb).le
  have hα1 : (1 : ℝ) ≤ 2 ^ bitLen A := one_le_pow₀ (by norm_num)
  have hγ1 : (1 : ℝ) ≤ 2 ^ bitLen cb := one_le_pow₀ (by norm_num)
  have hP1 : (1 : ℝ) ≤ 2 ^ p := one_le_pow₀ (by norm_num)
  rw [pow_add] at hx
  rw [pow_add, pow_add] at hy
  generalize (2 : ℝ) ^ bitLen (B + 1) = β at hB hx
  generalize (2 : ℝ) ^ bitLen A = α at hA hy hα1
  generalize (2 : ℝ) ^ bitLen cb = γ at hc hy hγ1
  generalize (2 : ℝ) ^ p = P at hP1 hx hy ⊢
  have hA0 : (0 : ℝ) ≤ A := A.cast_nonneg
  have hB0 : (0 : ℝ) ≤ B := B.cast_nonneg
  have hca0 : (0 : ℝ) ≤ ca := ca.cast_nonneg
  have hcb0 : (0 : ℝ) ≤ cb := cb.cast_nonneg
  have hβ : 0 < β := by linarith
  have hα : 0 < α := by linarith
  have hγ : 0 < γ := by linarith
  have hP : 0 < P := by linarith
  have hy1 : |y - b| ≤ 1 := by
    refine hy.trans ((div_le_one (by positivity)).2 (hc.trans ?_))
    exact le_mul_of_one_le_left hγ.le (one_le_mul_of_one_le_of_one_le hP1 hα1)
  have hyB : |y| ≤ B + 1 := by
    have := abs_add_le (y - b) b
    rw [sub_add_cancel] at this
    linarith
  have h1 : |x - a| * |y| ≤ ca / P := by
    refine (mul_le_mul hx hyB (abs_nonneg _) (by positivity)).trans ?_
    rw [div_mul_eq_mul_div, div_le_div_iff₀ (by positivity) hP]
    have : ca * (B + 1) * P ≤ ca * β * P := by gcongr
    linarith
  have h2 : |a| * |y - b| ≤ cb / P := by
    refine (mul_le_mul ha hy (abs_nonneg _) hA0).trans ?_
    rw [mul_div_assoc', div_le_div_iff₀ (by positivity) hP]
    have : A * cb * P * 1 ≤ α * cb * P * γ := by gcongr
    linarith
  have hsplit : x * y - a * b = (x - a) * y + a * (y - b) := by ring
  rw [hsplit, add_div]
  refine (abs_add_le _ _).trans ?_
  rw [abs_mul, abs_mul]
  exact add_le_add h1 h2

/-- What `approx` computes. -/
theorem approx_spec (pi : Rat) (e : Sample) :
    ∀ p, |(pi : ℝ) - Real.pi| ≤ 1 / 2 ^ piBits e p → |(approx pi e p : ℝ) - e.zeroVal| ≤ sineCount e / 2 ^ p := by
  induction e with
  | rat q => intro p _; simp [approx, Sample.zeroVal, sineCount]
  | sin r =>
    intro p h
    simpa [approx, Sample.zeroVal, sineCount] using sineTurn_spec h r
  | neg a ih =>
    intro p h
    rw [approx, Sample.zeroVal, sineCount, Rat.cast_neg, ← abs_neg]
    convert ih p h using 2
    ring
  | add a b iha ihb =>
    intro p h
    rw [piBits] at h
    have ha := iha p (closer_of_le h (le_max_left _ _))
    have hb := ihb p (closer_of_le h (le_max_right _ _))
    rw [approx, Sample.zeroVal, sineCount, Rat.cast_add, Nat.cast_add, add_div, add_sub_add_comm]
    exact (abs_add_le _ _).trans (add_le_add ha hb)
  | mul a b iha ihb =>
    intro p h
    rw [piBits] at h
    have ha := iha (leftBits b p) (closer_of_le h (le_max_left _ _))
    have hb := ihb (rightBits a b p) (closer_of_le h (le_max_right _ _))
    rw [approx, Sample.zeroVal, sineCount, Rat.cast_mul, Nat.cast_add]
    exact product_error ha hb (absBound_spec a) (absBound_spec b)
  | unknown n => intro p _; simp [approx, Sample.zeroVal, sineCount]
  | ownSin turn => intro p _; simp [approx, Sample.zeroVal, sineCount]
  | rounded a => intro p _; simp [approx, Sample.zeroVal, sineCount]

end Sys2Proof.Laws
end

