-- ==== Sys2Proof/Laws/ExactSeparation.lean ====
section
/-!
SUPPORT. A sample that is not 0 is at least `1 / (denom · height ^ φ(level))` in absolute value: `denom` times it is an
integer polynomial at a primitive `level`-th root of unity, whose norm is a nonzero integer, and whose conjugates are
at most `height`.
-/

namespace Sys2Proof.Laws

open Sys2Proof.Machine Polynomial

/-- The first `n`-th root of unity. -/
noncomputable def rootOfUnity (n : Nat) : ℂ := Complex.exp (2 * Real.pi * Complex.I / n)

theorem rootOfUnity_primitive {n : Nat} (hn : 0 < n) : IsPrimitiveRoot (rootOfUnity n) n :=
  Complex.isPrimitiveRoot_exp n hn.ne'

theorem rootOfUnity_norm {n : Nat} (hn : 0 < n) : ‖rootOfUnity n‖ = 1 :=
  (rootOfUnity_primitive hn).norm'_eq_one hn.ne'

theorem rootOfUnity_pow_div {m n : Nat} (hm : 0 < m) (h : n ∣ m) : rootOfUnity m ^ (m / n) = rootOfUnity n := by
  obtain ⟨k, rfl⟩ := h
  have hn : 0 < n := Nat.pos_of_mul_pos_right hm
  have hk : 0 < k := Nat.pos_of_mul_pos_left hm
  rw [Nat.mul_div_cancel_left k hn, rootOfUnity, rootOfUnity, ← Complex.exp_nat_mul]
  congr 1
  have h1 : (n : ℂ) ≠ 0 := by exact_mod_cast hn.ne'
  have h2 : (k : ℂ) ≠ 0 := by exact_mod_cast hk.ne'
  push_cast
  field_simp

/-! ## Integer polynomials at a root of unity -/

/-- `z` is an integer polynomial at the first `n`-th root of unity, at most `b` on the unit circle. -/
def IntegerAt (n b : Nat) (z : ℂ) : Prop :=
  ∃ p : ℤ[X], aeval (rootOfUnity n) p = z ∧ ∀ w : ℂ, ‖w‖ = 1 → ‖aeval w p‖ ≤ b

theorem IntegerAt.lift {m n b : Nat} {z : ℂ} (hm : 0 < m) (hnm : n ∣ m) (h : IntegerAt n b z) : IntegerAt m b z := by
  obtain ⟨p, hp, hb⟩ := h
  refine ⟨expand ℤ (m / n) p, ?_, fun w hw => ?_⟩
  · rw [expand_aeval, rootOfUnity_pow_div hm hnm, hp]
  · rw [expand_aeval]; exact hb _ (by rw [norm_pow, hw, one_pow])

theorem IntegerAt.int (n : Nat) (k : ℤ) : IntegerAt n k.natAbs k :=
  ⟨C k, by simp, fun w _ => by simp [Nat.cast_natAbs]⟩

theorem IntegerAt.neg {n b : Nat} {z : ℂ} (h : IntegerAt n b z) : IntegerAt n b (-z) := by
  obtain ⟨p, hp, hb⟩ := h
  exact ⟨-p, by rw [map_neg, hp], fun w hw => by rw [map_neg, norm_neg]; exact hb w hw⟩

theorem IntegerAt.add {n a b : Nat} {y z : ℂ} (hy : IntegerAt n a y) (hz : IntegerAt n b z) :
    IntegerAt n (a + b) (y + z) := by
  obtain ⟨p, hp, ha⟩ := hy
  obtain ⟨q, hq, hb⟩ := hz
  refine ⟨p + q, by rw [map_add, hp, hq], fun w hw => ?_⟩
  rw [map_add, Nat.cast_add]
  exact (norm_add_le _ _).trans (add_le_add (ha w hw) (hb w hw))

theorem IntegerAt.mul {n a b : Nat} {y z : ℂ} (hy : IntegerAt n a y) (hz : IntegerAt n b z) :
    IntegerAt n (a * b) (y * z) := by
  obtain ⟨p, hp, ha⟩ := hy
  obtain ⟨q, hq, hb⟩ := hz
  refine ⟨p * q, by rw [map_mul, hp, hq], fun w hw => ?_⟩
  rw [map_mul, norm_mul, Nat.cast_mul]
  exact mul_le_mul (ha w hw) (hb w hw) (norm_nonneg _) (Nat.cast_nonneg _)

theorem IntegerAt.natMul {n b : Nat} {z : ℂ} (k : Nat) (h : IntegerAt n b z) : IntegerAt n (k * b) (k * z) := by
  simpa using (IntegerAt.int n k).mul h

/-- Twice the sine of a rational number of turns is an integer combination of roots of unity. -/
theorem integerAt_sine (r : Rat) : IntegerAt (4 * r.den) 2 (2 * (Real.sin (2 * Real.pi * r) : ℂ)) := by
  set d := r.den with hd
  have hd0 : 0 < d := r.den_pos
  have hd1 : (d : ℂ) ≠ 0 := by exact_mod_cast hd0.ne'
  -- `2 sin = i⁻¹ (e^{iθ} - e^{-iθ})`, `i⁻¹ = ζ^{3d}`, `e^{±iθ} = ζ^{4(±a mod d)}`
  have hpow : ∀ k : ℤ, rootOfUnity (4 * d) ^ (4 * (k % d).toNat) = Complex.exp (2 * Real.pi * Complex.I * k / d) := by
    intro k
    have hk0 : 0 ≤ k % d := Int.emod_nonneg _ (by exact_mod_cast hd0.ne')
    rw [rootOfUnity, ← Complex.exp_nat_mul, Complex.exp_eq_exp_iff_exists_int]
    refine ⟨-(k / d), ?_⟩
    have hk : ((k % d).toNat : ℂ) = k - d * ((k / d : ℤ) : ℂ) := by
      have h1 : (((k % d).toNat : ℤ) : ℂ) = ((k % d : ℤ) : ℂ) := by rw [Int.toNat_of_nonneg hk0]
      rw [Int.cast_natCast] at h1
      rw [h1, Int.emod_def]; push_cast; ring
    push_cast
    rw [hk]
    field_simp
    ring
  refine ⟨X ^ (3 * d) * (X ^ (4 * (r.num % d).toNat) - X ^ (4 * ((-r.num) % d).toNat)), ?_, fun w hw => ?_⟩
  · have hi : rootOfUnity (4 * d) ^ (3 * d) = -Complex.I := by
      have h4 : rootOfUnity (4 * d) ^ d = Complex.I := by
        have := rootOfUnity_pow_div (m := 4 * d) (n := 4) (by omega) (Dvd.intro _ rfl)
        rw [Nat.mul_div_cancel_left d (by norm_num)] at this
        rw [this, rootOfUnity]
        have : 2 * (Real.pi : ℂ) * Complex.I / (4 : ℕ) = Real.pi / 2 * Complex.I := by push_cast; ring
        rw [this, Complex.exp_pi_div_two_mul_I]
      rw [show 3 * d = d * 3 by ring, pow_mul, h4, pow_succ, Complex.I_sq]; ring
    rw [map_mul, map_sub, map_pow, map_pow, map_pow, aeval_X, hi, hpow, hpow]
    rw [Complex.ofReal_sin, Complex.sin]
    have hr : (((2 * Real.pi * (r : ℝ) : ℝ)) : ℂ) * Complex.I = 2 * Real.pi * Complex.I * r.num / d := by
      rw [Rat.cast_def r]; push_cast; rw [← hd]; ring
    have hr' : -(((2 * Real.pi * (r : ℝ) : ℝ)) : ℂ) * Complex.I = -(2 * Real.pi * Complex.I * r.num / d) := by
      rw [neg_mul, hr]
    have hn : 2 * (Real.pi : ℂ) * Complex.I * ((-r.num : ℤ) : ℂ) / d = -(2 * Real.pi * Complex.I * r.num / d) := by
      push_cast; ring
    rw [hr', hr, hn]
    ring
  · rw [map_mul, map_sub, map_pow, map_pow, map_pow, aeval_X, norm_mul, norm_pow, hw, one_pow, one_mul]
    refine (norm_sub_le _ _).trans ?_
    rw [norm_pow, norm_pow, hw, one_pow, one_pow]
    norm_num

/-! ## Every sample -/

theorem level_pos (e : Sample) : 0 < level e := by
  induction e with
  | rat q => norm_num [level]
  | sin r => rw [level]; have := r.den_pos; omega
  | neg a ih => exact ih
  | add a b iha ihb => exact Nat.lcm_pos iha ihb
  | mul a b iha ihb => exact Nat.lcm_pos iha ihb
  | unknown n => norm_num [level]
  | ownSin turn => norm_num [level]
  | rounded a _ => norm_num [level]

theorem denom_pos (e : Sample) : 0 < denom e := by
  induction e with
  | rat q => exact q.den_pos
  | sin r => norm_num [denom]
  | neg a ih => exact ih
  | add a b iha ihb => exact Nat.lcm_pos iha ihb
  | mul a b iha ihb => exact Nat.mul_pos iha ihb
  | unknown n => norm_num [denom]
  | ownSin turn => norm_num [denom]
  | rounded a _ => norm_num [denom]

/-- `denom` times a sample is an integer polynomial at a `level`-th root of unity, at most `height` on the circle. -/
theorem integerAt_sample (e : Sample) : IntegerAt (level e) (height e) (denom e * (e.zeroVal : ℂ)) := by
  induction e with
  | rat q =>
    have : ((denom (.rat q) : ℕ) : ℂ) * ((Sample.zeroVal (.rat q) : ℝ) : ℂ) = (q.num : ℂ) := by
      have h : (q.den : ℂ) ≠ 0 := by exact_mod_cast q.den_nz
      rw [denom, Sample.zeroVal, Rat.cast_def]; push_cast; field_simp
    rw [this]
    exact IntegerAt.int _ _
  | sin r => simpa [level, height, denom, Sample.zeroVal] using integerAt_sine r
  | neg a ih =>
    have : (denom (.neg a) : ℂ) * ((Sample.zeroVal (.neg a) : ℝ) : ℂ) = -(denom a * (a.zeroVal : ℂ)) := by
      rw [denom, Sample.zeroVal]; push_cast; ring
    rw [this]
    exact ih.neg
  | add a b iha ihb =>
    have hm : 0 < Nat.lcm (level a) (level b) := level_pos (.add a b)
    have ha := (iha.lift hm (Nat.dvd_lcm_left _ _)).natMul (Nat.lcm (denom a) (denom b) / denom a)
    have hb := (ihb.lift hm (Nat.dvd_lcm_right _ _)).natMul (Nat.lcm (denom a) (denom b) / denom b)
    have := ha.add hb
    rw [level, height, denom, Sample.zeroVal]
    convert this using 1
    have h1 : ((Nat.lcm (denom a) (denom b) : ℕ) : ℂ) = ((Nat.lcm (denom a) (denom b) / denom a : ℕ) : ℂ) * denom a := by
      exact_mod_cast (Nat.div_mul_cancel (Nat.dvd_lcm_left _ _)).symm
    have h2 : ((Nat.lcm (denom a) (denom b) : ℕ) : ℂ) = ((Nat.lcm (denom a) (denom b) / denom b : ℕ) : ℂ) * denom b := by
      exact_mod_cast (Nat.div_mul_cancel (Nat.dvd_lcm_right _ _)).symm
    rw [← mul_assoc, ← mul_assoc, ← h1, ← h2]
    push_cast
    ring
  | mul a b iha ihb =>
    have hm : 0 < Nat.lcm (level a) (level b) := level_pos (.mul a b)
    have := (iha.lift hm (Nat.dvd_lcm_left _ _)).mul (ihb.lift hm (Nat.dvd_lcm_right _ _))
    rw [level, height, denom, Sample.zeroVal]
    convert this using 1
    push_cast
    ring
  | unknown n => simpa [level, height, denom, Sample.zeroVal] using IntegerAt.int 4 0
  | ownSin turn => simpa [level, height, denom, Sample.zeroVal] using IntegerAt.int 4 0
  | rounded a _ => simpa [level, height, denom, Sample.zeroVal] using IntegerAt.int 4 0

/-! ## The norm -/

theorem isIntegral_aeval {K : Type} [Field K] {ζ : K} (h : IsIntegral ℤ ζ) (p : ℤ[X]) : IsIntegral ℤ (aeval ζ p) := by
  rw [aeval_eq_sum_range]
  exact IsIntegral.sum _ fun i _ => (h.pow i).smul _

/-- The norm of a nonzero integer combination of roots of unity is a nonzero integer, and its conjugates are at most
`b`: so it is not small. -/
theorem separated_in {K : Type} [Field K] [CharZero K] {_ : Algebra ℚ K} {n b : Nat} [NeZero n]
    (hcyc : IsCyclotomicExtension {n} ℚ K) {z : ℂ} (h : IntegerAt n b z) (hz : z ≠ 0) : 1 ≤ ‖z‖ * (b : ℝ) ^ (n.totient - 1) := by
  classical
  obtain ⟨p, hp, hb⟩ := h
  have hn : 0 < n := NeZero.pos n
  have hirr := Polynomial.cyclotomic.irreducible_rat hn
  have hζ := IsCyclotomicExtension.zeta_spec n ℚ K
  have hfin : FiniteDimensional ℚ K := IsCyclotomicExtension.finiteDimensional {n} ℚ K
  generalize IsCyclotomicExtension.zeta n ℚ K = ζ at hζ
  -- each embedding sends `β` to the polynomial at a root of unity
  have himage : ∀ σ : K →ₐ[ℚ] ℂ, σ (aeval ζ p) = aeval (σ ζ) p := by
    intro σ
    exact (Polynomial.aeval_algHom_apply (σ.restrictScalars ℤ) ζ p).symm
  have hunit : ∀ σ : K →ₐ[ℚ] ℂ, ‖σ ζ‖ = 1 := fun σ =>
    (hζ.map_of_injective (f := σ) σ.toRingHom.injective).norm'_eq_one hn.ne'
  have hbound : ∀ σ : K →ₐ[ℚ] ℂ, ‖σ (aeval ζ p)‖ ≤ b := fun σ => by rw [himage]; exact hb _ (hunit σ)
  -- one of them sends it to `z`
  let ρ : primitiveRoots n ℂ := ⟨rootOfUnity n, (mem_primitiveRoots hn).2 (rootOfUnity_primitive hn)⟩
  let σ₀ : K →ₐ[ℚ] ℂ := (hζ.embeddingsEquivPrimitiveRoots ℂ hirr).symm ρ
  have hσ₀ : σ₀ ζ = rootOfUnity n := by
    have h1 := hζ.embeddingsEquivPrimitiveRoots_apply_coe ℂ hirr σ₀
    rw [← h1]
    exact congrArg Subtype.val ((hζ.embeddingsEquivPrimitiveRoots ℂ hirr).apply_symm_apply ρ)
  have hz₀ : σ₀ (aeval ζ p) = z := by rw [himage, hσ₀, hp]
  -- the norm is an integer other than 0
  have hint : IsIntegral ℤ (aeval ζ p) := by
    have hζi : IsIntegral ℤ ζ := hζ.isIntegral hn
    exact isIntegral_aeval hζi p
  obtain ⟨k, hk⟩ := IsIntegrallyClosed.algebraMap_eq_of_integral (Algebra.isIntegral_norm ℚ hint)
  have hprod := Algebra.norm_eq_prod_embeddings ℚ ℂ (aeval ζ p)
  rw [← hk] at hprod
  have hne : (aeval ζ p : K) ≠ 0 := by
    intro h0
    rw [h0, map_zero] at hz₀
    exact hz hz₀.symm
  have hk0 : k ≠ 0 := by
    rintro rfl
    rw [map_zero] at hk
    exact Algebra.norm_ne_zero_iff.2 hne hk.symm
  have hk1 : (1 : ℝ) ≤ ‖∏ σ : K →ₐ[ℚ] ℂ, σ (aeval ζ p)‖ := by
    rw [← hprod]
    have : (1 : ℤ) ≤ |k| := Int.one_le_abs hk0
    simpa using (show (1 : ℝ) ≤ |(k : ℝ)| by exact_mod_cast this)
  refine hk1.trans ?_
  rw [norm_prod, ← Finset.mul_prod_erase _ _ (Finset.mem_univ σ₀), hz₀]
  refine mul_le_mul_of_nonneg_left ?_ (norm_nonneg _)
  refine (Finset.prod_le_prod (fun _ _ => norm_nonneg _) (fun σ _ => hbound σ)).trans (le_of_eq ?_)
  rw [Finset.prod_const, Finset.card_erase_of_mem (Finset.mem_univ _), Finset.card_univ, AlgHom.card,
    IsCyclotomicExtension.finrank K hirr]

theorem IntegerAt.separated {n b : Nat} (hn : 0 < n) {z : ℂ} (h : IntegerAt n b z) (hz : z ≠ 0) :
    1 ≤ ‖z‖ * (b : ℝ) ^ n.totient := by
  have : NeZero n := ⟨hn.ne'⟩
  have : NeZero (n : ℚ) := ⟨by exact_mod_cast hn.ne'⟩
  have h1 := separated_in (CyclotomicField.isCyclotomicExtension n ℚ) h hz
  have hb : (1 : ℝ) ≤ b := by
    have : b ≠ 0 := by
      rintro rfl
      obtain ⟨p, hp, hb⟩ := h
      have := hb _ (rootOfUnity_norm hn)
      rw [hp, Nat.cast_zero] at this
      exact hz (norm_le_zero_iff.1 this)
    exact_mod_cast Nat.one_le_iff_ne_zero.2 this
  refine h1.trans (mul_le_mul_of_nonneg_left ?_ (norm_nonneg _))
  exact pow_le_pow_right₀ hb (Nat.sub_le _ _)

/-- How far from 0 a sample is that is not 0. -/
theorem sample_separated {e : Sample} (h : e.zeroVal ≠ 0) :
    1 ≤ denom e * |e.zeroVal| * (height e : ℝ) ^ (level e).totient := by
  have hd : (denom e : ℂ) ≠ 0 := by exact_mod_cast (denom_pos e).ne'
  have hv : (e.zeroVal : ℂ) ≠ 0 := by exact_mod_cast h
  have := (integerAt_sample e).separated (level_pos e) (mul_ne_zero hd hv)
  rwa [norm_mul, Complex.norm_natCast, Complex.norm_real, Real.norm_eq_abs] at this

/-- A sample of height 0 is 0. -/
theorem zeroVal_eq_zero_of_height {e : Sample} (h : height e = 0) : e.zeroVal = 0 := by
  by_contra hne
  have := sample_separated hne
  have ht : (level e).totient ≠ 0 := (Nat.totient_pos.2 (level_pos e)).ne'
  rw [h, Nat.cast_zero, zero_pow ht, mul_zero] at this
  linarith

end Sys2Proof.Laws
end

