-- ==== Sys2Proof/Laws/Exact.lean ====
section
/-!
SUPPORT. The exact sign of a sample is the sign of the real number it is, its open parts counting as 0:
`exactSign_eq_zeroVal`; so it is the sign under one choice of what is open: `exactSign_is_real`.
-/

namespace Sys2Proof.Laws

open Sys2Proof.Machine

/-! ## The sign -/

/-- `approx` with its own π, and the unit `signAt` compares it with. -/
theorem approx_close (e : Sample) (p : Nat) :
    |(approx (piApprox (piBits e p)) e p : ℝ) - e.zeroVal| ≤ ((mkRat (sineCount e) (2 ^ p) : Rat) : ℝ) := by
  have h := approx_spec _ e p (piApprox_spec (piBits e p))
  rw [Rat.mkRat_eq_div]
  push_cast
  exact h

/-- What `signAt` shows is so. -/
theorem signAt_sound (e : Sample) (p : Nat) :
    (signAt e p = some .gt → 0 < e.zeroVal) ∧ (signAt e p = some .lt → e.zeroVal < 0) ∧ signAt e p ≠ some .eq := by
  have hc := approx_close e p
  unfold signAt
  dsimp only
  generalize approx (piApprox (piBits e p)) e p = x at hc ⊢
  generalize mkRat (sineCount e) (2 ^ p) = u at hc ⊢
  rw [abs_le] at hc
  split_ifs with h1 h2
  · have : (u : ℝ) < x := by exact_mod_cast h1
    exact ⟨fun _ => by linarith [hc.2], by simp, by simp⟩
  · have : (x : ℝ) < -u := by exact_mod_cast h2
    exact ⟨by simp, fun _ => by linarith [hc.1], by simp⟩
  · simp

/-- With the bits of `separation`, `signAt` shows the sign of every sample that is not 0. -/
theorem signAt_separation {e : Sample} (h : e.zeroVal ≠ 0) : signAt e (separation e) ≠ none := by
  have hc := approx_close e (separation e)
  have hs := sample_separated h
  have hu : ((mkRat (sineCount e) (2 ^ separation e) : Rat) : ℝ) = sineCount e / 2 ^ separation e := by
    rw [Rat.mkRat_eq_div]; push_cast; rfl
  -- the value is more than two units away from 0
  have h2 : 2 * ((mkRat (sineCount e) (2 ^ separation e) : Rat) : ℝ) < |e.zeroVal| := by
    rw [hu, separation, pow_add, pow_add, pow_add, pow_one, mul_comm (level e).totient, pow_mul]
    have hc : (sineCount e : ℝ) < 2 ^ bitLen (sineCount e) := by exact_mod_cast lt_two_pow_bitLen _
    have hd : (denom e : ℝ) < 2 ^ bitLen (denom e) := by exact_mod_cast lt_two_pow_bitLen _
    have hh : (height e : ℝ) ^ (level e).totient ≤ (2 ^ bitLen (height e)) ^ (level e).totient :=
      pow_le_pow_left₀ (Nat.cast_nonneg _) (by exact_mod_cast (lt_two_pow_bitLen _).le) _
    have hη : 0 ≤ (height e : ℝ) ^ (level e).totient := by positivity
    have hH : (0 : ℝ) < (2 ^ bitLen (height e)) ^ (level e).totient := by positivity
    have hC : (0 : ℝ) < 2 ^ bitLen (sineCount e) := by positivity
    have hD : (0 : ℝ) < 2 ^ bitLen (denom e) := by positivity
    generalize (height e : ℝ) ^ (level e).totient = η at hs hh hη
    generalize ((2 : ℝ) ^ bitLen (height e)) ^ (level e).totient = H at hh hH ⊢
    generalize (2 : ℝ) ^ bitLen (sineCount e) = C at hc hC ⊢
    generalize (2 : ℝ) ^ bitLen (denom e) = D at hd hD ⊢
    have h1 : 1 ≤ |e.zeroVal| * (D * H) := by
      refine hs.trans ?_
      have : denom e * η ≤ D * H := mul_le_mul hd.le hh hη hD.le
      nlinarith [abs_nonneg e.zeroVal]
    rw [mul_div_assoc', div_lt_iff₀ (by positivity)]
    calc 2 * (sineCount e : ℝ) < 2 * C * 1 := by linarith
      _ ≤ 2 * C * (|e.zeroVal| * (D * H)) := by gcongr
      _ = _ := by ring
  unfold signAt
  dsimp only
  generalize approx (piApprox (piBits e (separation e))) e (separation e) = x at hc ⊢
  generalize mkRat (sineCount e) (2 ^ separation e) = u at hc h2 ⊢
  rw [abs_le] at hc
  split_ifs with h3 h4
  · simp
  · simp
  · exfalso
    have h3' : (x : ℝ) ≤ u := by exact_mod_cast not_lt.1 h3
    have h4' : -(u : ℝ) ≤ x := by exact_mod_cast not_lt.1 h4
    have : |e.zeroVal| ≤ 2 * u := by rw [abs_le]; constructor <;> linarith [hc.1, hc.2]
    linarith

/-- `exactSign` is the sign of the real number a sample is when its open parts are 0. -/
theorem exactSign_eq_zeroVal (e : Sample) : exactSign e = cmp e.zeroVal 0 := by
  have key : ∀ p o, signAt e p = some o → o = cmp e.zeroVal 0 := by
    intro p o h
    obtain ⟨hg, hl, he⟩ := signAt_sound e p
    rcases o with _ | _ | _
    · exact (cmp_eq_lt_iff _ _ |>.2 (hl h)).symm
    · exact absurd h he
    · exact (cmp_eq_gt_iff _ _ |>.2 (hg h)).symm
  unfold exactSign
  split
  · next h => rw [zeroVal_eq_zero_of_height h, cmp_self_eq_eq]
  · split
    · next h => exact key _ _ h
    · by_cases h0 : e.zeroVal = 0
      · rcases hq : signAt e (separation e) with _ | o
        · rw [h0, cmp_self_eq_eq]; rfl
        · rw [Option.getD_some]; exact key _ _ hq
      · rcases hq : signAt e (separation e) with _ | o
        · exact absurd hq (signAt_separation h0)
        · rw [Option.getD_some]; exact key _ _ hq

theorem valIn_zero (e : Sample) :
    e.valIn { unknown := fun _ => 0, sine := fun _ => 0, round := fun _ => 0 } = e.zeroVal := by
  induction e with
  | rat q => rfl
  | sin turn => rfl
  | neg a ih => rw [Sample.valIn, ih, Sample.zeroVal]
  | add a b iha ihb => rw [Sample.valIn, iha, ihb, Sample.zeroVal]
  | mul a b iha ihb => rw [Sample.valIn, iha, ihb, Sample.zeroVal]
  | unknown n => rfl
  | ownSin turn => rfl
  | rounded a _ => rfl

/-- `exactSign` is the sign of every sample under one choice of what is open. -/
theorem exactSign_is_real : ∃ r : Reals, ∀ e, exactSign e = cmp (e.valIn r) 0 :=
  ⟨_, fun e => by rw [exactSign_eq_zeroVal, valIn_zero]⟩

end Sys2Proof.Laws
end

