-- ==== Sys2Proof/Machine/Reals.lean ====
section
/-!
DEFINITION. Samples as real numbers (spec/00_scope.md R7c): sums, differences and products are the expressions
themselves, and comparisons are those of the reals. What is open (a real that is not said, a build's own sine or number
format) is a free value, the same for every sample of the machine (log 1, log 3).
-/

namespace Sys2Proof

/-- The signs of all samples under some choice of what is open. The defaults only show that there is such a choice. -/
structure RealSign where
  sign : Sample → Ordering := Machine.exactSign
  isReal : ∃ r : Reals, ∀ e, sign e = cmp (e.valIn r) 0 := by exact Laws.exactSign_is_real
  deriving Inhabited

/-- The signs of samples under the machine's own choice of what is open. It has no body: nothing can be proved of it but
that it is the sign of real numbers, so what is proved holds whatever the reals are (log 1). -/
opaque Config.realSign : RealSign

namespace Machine

/-! ## Expressions -/

/-- The sample 0. -/
def zeroSample : Sample := .rat 0

/-- The cosine of `2π·turn`. -/
def cosTurn (turn : Rat) : Sample := .sin (turn + 1 / 4)

/-- The difference of two samples. -/
def subSample (a b : Sample) : Sample := .add a (.neg b)

/-- The sum of a list of samples (`Σ` of R9). -/
def sumSamples (xs : List Sample) : Sample := xs.foldr .add zeroSample

/-! ## Comparison -/

/-- Whether nothing in a sample is open. -/
def isClosed : Sample → Bool
  | .rat _ => true
  | .sin _ => true
  | .neg a => isClosed a
  | .add a b => isClosed a && isClosed b
  | .mul a b => isClosed a && isClosed b
  | .unknown _ => false
  | .ownSin _ => false
  | .rounded _ => false

/-- The sign of a sample: computed where nothing is open, and else that of the machine's reals. -/
def signOf (e : Sample) : Ordering := if isClosed e then exactSign e else Config.realSign.sign e

/-- `a < b` as real numbers. -/
def sampleLt (a b : Sample) : Bool := signOf (subSample b a) == .gt

end Machine

end Sys2Proof
end

