-- ==== Sys2Proof/Machine/Demodulator.lean ====
section
/-!
DEFINITION. The Demodulator (spec/42_demodulator.md): `DEM` (R110 to R117). The sums are exact; magnitudes are
compared by their squares and only the bins `0 .. floor(L/2)` are searched, the formulations (a) and (b) that R121
allows (log 5).
-/

namespace Sys2Proof.Machine

/-! ## The transform (R112) -/

/-- `Σ_n x[n] · wave(k·n/L)`, for `wave` the sine or the cosine of a turn. -/
def correlate (wave : Rat → Sample) (x : List Sample) (k : Nat) : Sample :=
  sumSamples (x.zipIdx.map fun xn => .mul xn.1 (wave (mkRat (k * xn.2) x.length)))

/-- `Re X[k] = Σ_n x[n] · cos(2π·k·n/L)`. -/
def dftRe (x : List Sample) (k : Nat) : Sample := correlate cosTurn x k

/-- `Im X[k] = - Σ_n x[n] · sin(2π·k·n/L)`. -/
def dftIm (x : List Sample) (k : Nat) : Sample := .neg (correlate .sin x k)

/-- `M[k]² = Re(X[k])² + Im(X[k])²`. -/
def magSq (x : List Sample) (k : Nat) : Sample :=
  .add (.mul (dftRe x k) (dftRe x k)) (.mul (dftIm x k) (dftIm x k))

/-! ## The peak (R113) -/

/-- A scan that keeps a running peak "replaced only on a *strictly* greater magnitude" (R122), hence the least index
among the greatest. -/
def scanPeak (x : List Sample) : List Nat → Nat → Nat
  | [], peak => peak
  | k :: ks, peak => scanPeak x ks (if sampleLt (magSq x peak) (magSq x k) then k else peak)

/-- The scan of R122, "starting from `PEAKMAG = M[0]`, `PEAKBIN = 0`", over the bins `1 .. floor(L/2)` (R121b). -/
def leastPeak (x : List Sample) : Nat := scanPeak x (List.range' 1 (x.length / 2)) 0

/-- The bins of `0 .. floor(L/2)` that share the greatest magnitude, which is that of `peak` (U4). -/
def tiedBins (x : List Sample) (peak : Nat) : List Nat :=
  (List.range (x.length / 2 + 1)).filter fun k => k == peak || !sampleLt (magSq x k) (magSq x peak)

/-- `PeakBin(M, L)` (R113): the least index, or, for the parameter `TIE = drawn`, a tied bin that is not said (log 6). -/
def peakBin (tie : Tie) (x : List Sample) : Nat :=
  match tie with
  | .leastIndex => leastPeak x
  | .drawn =>
    (tiedBins x (leastPeak x)).getD (Config.tieDraw x % (tiedBins x (leastPeak x)).length) (leastPeak x)

/-! ## Classification (R114, R115) -/

/-- `kabs = min(kpk, L - kpk)` (R114). -/
def absBin (kpk len : Nat) : Nat := min kpk (len - kpk)

/-- The window's bit: 1 iff `2·kabs·CFG.FS >= MID2·L` (R115). -/
def classify (s : State) (x : List Sample) : Bit :=
  decide (mid2 s * x.length ≤ 2 * absBin (peakBin s.params.tie x) x.length * s.cfgFs)

/-! ## The windows (R111, R116) -/

/-- `NW = ceil(N / SPB)`, the number of windows. -/
def windowCount (s : State) : Nat := (s.mem.wave.length + spb s - 1) / spb s

/-- Window `w`: the cells from `w·SPB` on, `min(SPB, N - w·SPB)` of them. -/
def window (s : State) (w : Nat) : List Sample :=
  memRead s.mem.wave (w * spb s) (min (spb s) (s.mem.wave.length - w * spb s))

/-- `demodulate(waveform, config) -> bits` (R110). -/
def demodulate (s : State) : List Bit := (List.range (windowCount s)).map fun w => classify s (window s w)

/-- The error of a `DEM`, if any: the configuration (R117), then the capacity (R110, R158). -/
def demFault (s : State) : Option Err :=
  match configFault s with
  | some c => some (.config c)
  | none => if exceeds s.params.bitsCap (windowCount s) then some (.capacity (windowCount s)) else none

/-- `DEM` (R110). -/
def execDem (s : State) : Host.Outcome State Fault Refusal :=
  match demFault s with
  | some e => .next (raise e .bits s)
  | none => .next (complete (writeBits (demodulate s) s))

end Sys2Proof.Machine
end

