-- ==== Sys2Proof/Machine/Modulator.lean ====
section
/-!
DEFINITION. The Modulator (spec/41_modulator.md): `MOD` (R100 to R104).
-/

namespace Sys2Proof.Machine

/-- `SIN(2π·turn)`, by the build's parameter `SIN` (R5). -/
def sineOf (p : Params) (turn : Rat) : Sample :=
  match p.sine with
  | .mathematical => .sin turn
  | .own => .ownSin turn

/-- The content of a `WAVE` cell in which the real `a` is stored, "as `quant(r)`" and read "through `val`" (R7): `a`
itself in exact numbers, and what the build's number format makes of it in another. -/
def quantised (p : Params) (a : Sample) : Sample :=
  match p.numbers with
  | .exact => a
  | .own => .rounded a

/-- The cell of a tone at a phase, `AMP · SIN(2π·turn)` as it is stored (R101, R105). -/
def toneAt (p : Params) (turn : Rat) : Sample := quantised p (.mul p.amp (sineOf p turn))

/-- `Tone(f, n) = AMP · SIN(2π · f · n / CFG.FS)` (R101), as it is stored. -/
def tone (p : Params) (fs f n : Nat) : Sample := toneAt p (mkRat (f * n) fs)

/-- The segment of a bit: `SPB` samples of its tone, `n` restarting at 0 (R100, R102). -/
def bitSegment (s : State) (b : Bit) : List Sample :=
  (List.range (spb s)).map fun n => tone s.params s.cfgFs (toneOf s b) n

/-- `modulate(bits, config) -> waveform`: "concatenate segments in bit order" (R100, R76). -/
def modulate (s : State) : List Sample := s.mem.bits.flatMap (bitSegment s)

/-- The error of a `MOD`, if any: the configuration, then the capacity (R100, R158). -/
def modFault (s : State) : Option Err :=
  match configFault s with
  | some c => some (.config c)
  | none =>
    if exceeds s.params.waveCap (s.mem.bits.length * spb s) then some (.capacity (s.mem.bits.length * spb s))
    else none

/-- `MOD` (R100). -/
def execMod (s : State) : Host.Outcome State Fault Refusal :=
  match modFault s with
  | some e => .next (raise e .wave s)
  | none => .next (complete (writeWave (modulate s) s))

end Sys2Proof.Machine
end

