-- ==== Sys2Proof/Machine/Validator.lean ====
section
/-!
DEFINITION. The Validator (spec/43_validator.md): `VAL` (R125 to R127).
-/

namespace Sys2Proof.Machine

/-- "A character is considered valid if its numeric code point lies between 32 and 126 inclusive". -/
def printable (c : Nat) : Bool := decide (32 ≤ c ∧ c ≤ 126)

/-- `is_valid(text) -> bool`: "true iff every character's code point lies in [32,126] inclusive"; true of the empty
text (R126). -/
def isValid (text : List Nat) : Bool := text.all printable

/-- `VAL` (R125): "`STATUS.VALID <- v`, `STATUS.ERR <- OK`, `STATUS.BUSY <- 0`"; it has no error. -/
def execVal (s : State) : Host.Outcome State Fault Refusal :=
  .next (complete (setValid (isValid s.mem.text) s))

end Sys2Proof.Machine
end

