-- ==== Sys2Proof/Machine/Dispatch.lean ====
section
/-!
DEFINITION. One arm per command (spec/30_encoding.md R71).
-/

namespace Sys2Proof.Machine

/-- What a command does. -/
def exec (i : Instr) (s : State) : Host.Outcome State Fault Refusal :=
  match i with
  | .enc => Sys2Proof.Machine.execEnc s
  | .dec => Sys2Proof.Machine.execDec s
  | .mod => Sys2Proof.Machine.execMod s
  | .dem => Sys2Proof.Machine.execDem s
  | .val => Sys2Proof.Machine.execVal s

end Sys2Proof.Machine
end

