-- ==== Sys2Proof/Machine/HostAccess.lean ====
section
/-!
DEFINITION. The host's access primitives (spec/20_memory.md R57), the register map (spec/10_state.md R20), the `CMD`
write (R28) and rejection while busy (spec/60_exceptions.md R157).
-/

namespace Sys2Proof.Machine

/-- The answer to an access (log 14). -/
def answer (r : Reply) (s : State) : State := { s with reply := r }

/-- "The request does nothing; `STATUS.REJ <- 1`" (R157). -/
def reject (s : State) : State := answer .refused (setRej true s)

/-- A register access that is refused: "it has no effect on any state and returns no value a rule may use" (R58). -/
def refuse (s : State) : State := answer .refused s

/-! ## Buffers -/

/-- `HostRead(space)`: the sequence `space[0 .. LEN-1]` (R57). -/
def bufferOf (m : Memory) : Space → BufferData
  | .text => .text m.text
  | .bits => .bits m.bits
  | .wave => .wave m.wave

/-- The cell `space[i]`, if `i < LEN(space)` (R57, U11). -/
def cellOf (m : Memory) (space : Space) (i : Nat) : Option Cell :=
  match space with
  | .text => m.text[i]?.map .text
  | .bits => m.bits[i]?.map .bit
  | .wave => m.wave[i]?.map .sample

/-- Whether each element fits its cell: "a code point below `2^CHAR_W`; a bit; a `Sample`" (R57). -/
def cellsFit (p : Params) : BufferData → Bool
  | .text cells => cells.all fun c => decide (c < 2 ^ p.charW)
  | .bits _ => true
  | .wave _ => true

/-- Whether a load is longer than the buffer's capacity (R57). -/
def loadTooLong (p : Params) : BufferData → Bool
  | .text cells => exceeds p.textCap cells.length
  | .bits cells => exceeds p.bitsCap cells.length
  | .wave cells => exceeds p.waveCap cells.length

/-- "Replaces the whole buffer" (R57). -/
def loadBuffer : BufferData → State → State
  | .text cells, s => writeText cells s
  | .bits cells, s => writeBits cells s
  | .wave cells, s => writeWave cells s

/-- Whether a load takes effect: each element fits its cell (log 19) and the sequence the capacity (R57). -/
def loadFits (p : Params) (data : BufferData) : Bool := cellsFit p data && !loadTooLong p data

/-- `HostLoad(space, seq)` (R57): rejected while busy; refused, with nothing changed, if it does not fit. -/
def hostLoad (data : BufferData) (s : State) : State :=
  if statusBusy s.status then reject s
  else if loadFits s.params data then loadBuffer data s
  else refuse s

/-- `HostRead(space)` (R57); refused while busy (U13, log 31). -/
def hostRead (space : Space) (s : State) : State :=
  if statusBusy s.status then refuse s else answer (.buffer (bufferOf s.mem space)) s

/-- `HostReadCell(space, i)` (R57); refused while busy (U13, log 31). -/
def hostReadCell (space : Space) (i : Nat) (s : State) : State :=
  if statusBusy s.status then refuse s
  else
    match cellOf s.mem space i with
    | some c => answer (.cell c) s
    | none => refuse s

/-! ## Registers -/

/-- The value of a register that can be read (R20's access column); `none` for `CMD`, for register 4 without the
session layer (log 25) and for a number that does not exist. -/
def registerValue (s : State) (n : Nat) : Option Nat :=
  match n with
  | 0 => some s.cfgFs
  | 1 => some s.cfgBaud
  | 2 => some s.cfgF1
  | 3 => some s.cfgF2
  | 4 => if s.params.hasSessionLayer then some s.cfgCapdur else none
  | 5 => none
  | 6 => some s.status.toNat
  | 7 => some s.mem.text.length
  | 8 => some s.mem.bits.length
  | 9 => some s.mem.wave.length
  | 10 => some (spb s)
  | 11 => some (mid2 s)
  | _ => none

/-- `RegRead(n)` (R57): while busy only `STATUS` can be read. -/
def regRead (n : Nat) (s : State) : State :=
  if statusBusy s.status && n != 6 then refuse s
  else
    match registerValue s n with
    | some v => answer (.number v) s
    | none => refuse s

/-- A write of a command word `v` to `CMD` while idle (R28): an illegal word raises `E_ILLEGAL` (R155), a legal one
runs its command. A number that does not fit 8 bits is refused ("`v` must be below `2^width`", R57, log 17). -/
def writeCommand (v : Nat) (s : State) : Host.Outcome State Fault Refusal :=
  if v < 256 then
    match decode s.params.hasSessionLayer (BitVec.ofNat 8 v) with
    | .ok i => exec i s
    | .error _ => .next (raiseIllegal (BitVec.ofNat 8 v) s)
  else .next (refuse s)

/-- A write of a configuration register while idle: any value of the register's width is stored (R21 to R24, R39).
R57 says that `v` must be below `2^width` and not what happens otherwise; that such a write is refused and changes
nothing is the model's choice (log 32). -/
def writeConfig (n v : Nat) (s : State) : State :=
  if v < 2 ^ s.params.cfgW then
    match n with
    | 0 => { s with cfgFs := v }
    | 1 => { s with cfgBaud := v }
    | 2 => { s with cfgF1 := v }
    | 3 => { s with cfgF2 := v }
    | 4 => if s.params.hasSessionLayer then { s with cfgCapdur := v } else refuse s
    | _ => refuse s
  else refuse s

/-- A write of `STATUS` while idle: a 1 in bit 2 clears `REJ`; every other bit is read only (R29, log 18). -/
def writeStatus (v : Nat) (s : State) : State :=
  if v < 256 then (if v.testBit 2 then setRej false s else s) else refuse s

/-- `RegWrite(n, v)` (R57, R58). While busy, registers 0 to 5 reject with `REJ` and the others have no effect
(log 18). -/
def regWrite (n v : Nat) (s : State) : Host.Outcome State Fault Refusal :=
  if statusBusy s.status then .next (if n ≤ 5 then reject s else refuse s)
  else if n ≤ 4 then .next (writeConfig n v s)
  else if n = 5 then writeCommand v s
  else if n = 6 then .next (writeStatus v s)
  else .next (refuse s)

end Sys2Proof.Machine
end

