-- ==== Sys2Proof/Machine/Session.lean ====
section
/-!
DEFINITION. The Session Orchestrator (spec/44_session.md): SEND (R131), RECV (R132), Decoding (R133), the state
machine (R130); the answers of the audio collaborators (spec/60_exceptions.md R164, R165); reset
(spec/70_reset_and_hazards.md R180); and one step of the machine as an outside event (log 11, log 13).
-/

namespace Sys2Proof.Machine

/-! ## Ends of a session -/

/-- `ORCH <- Idle ; STATUS.BUSY <- 0` (R131, R133). -/
def endSession (s : State) : State := setBusy false { s with orch := .idle }

/-- `fail: LOG(STATUS.ERR) ; ORCH <- Idle ; STATUS.BUSY <- 0` (R131, R133). -/
def failSession (s : State) : State := endSession { s with log := s.log ++ [.error (statusErr s.status)] }

/-- `LOG(rejected) ; ORCH <- Idle ; STATUS.BUSY <- 0` (R133), "not an error code" (R169). -/
def rejectSession (s : State) : State := endSession { s with log := s.log ++ [.rejected] }

/-! ## SEND and RECV requests -/

/-- "Empty or whitespace-only send text" (R137). -/
def skipped (p : Params) (text : List Nat) : Bool := text.all fun c => p.whiteSpace.contains c

/-- The `TEXT` cell a code point of a send is put in (R131). One of `2^CHAR_W` or more, which no cell can hold, becomes a
value that is not said, but one above 255, so that `ENC` raises `E_ENCODING` as for every "character code point > 255"
(R131, R151; log 20). -/
def heldCode (p : Params) (c : Nat) : Nat :=
  if c < 2 ^ p.charW then c else Config.wideCell c % (2 ^ p.charW - 256) + 256

/-- The text of a send as `TEXT` holds it. -/
def heldText (p : Params) (text : List Nat) : List Nat := text.map (heldCode p)

/-- A `SEND` request while idle (R131): skipped with no state change at all (R137), or `ORCH <- Sending ;
STATUS.BUSY <- 1 ; HostLoad(TEXT, text)`. The load of a text longer than a finite `TEXT` is refused and changes nothing
(R57). A session may use nothing of an earlier one (R35, R131) and the refusal is not `E_CAPACITY` (R156): that the
session then ends as rejected is the model's choice (log 20). -/
def startSend (text : List Nat) (s : State) : State :=
  if skipped s.params text then s
  else if exceeds s.params.textCap text.length then setBusy true { s with orch := .sending .unloaded }
  else writeText (heldText s.params text) (setBusy true { s with orch := .sending .encode })

/-- A `SEND` request: the session layer must be there (R79, log 25) and idle (R135). -/
def requestSend (text : List Nat) (s : State) : State :=
  if !s.params.hasSessionLayer then refuse s
  else if statusBusy s.status then reject s
  else startSend text s

/-- What a `RECV` asks the capture collaborator for: `Capture(rate = CFG.FS, channels = 1, duration = CFG.CAPDUR,
format = floating point)` (R132, R165). -/
def captureCallOf (s : State) : CaptureCall where
  rate := s.cfgFs
  channels := 1
  duration := s.cfgCapdur
  format := .floatingPoint

/-- A `RECV` request while idle: `ORCH <- Listening ; STATUS.BUSY <- 1`, and the call of the capture collaborator
(R132). -/
def startRecv (s : State) : State :=
  setBusy true { s with orch := .listening, captureCalls := s.captureCalls ++ [captureCallOf s] }

/-- A `RECV` request: the session layer must be there (R79, log 25) and idle (R135). -/
def requestRecv (s : State) : State :=
  if !s.params.hasSessionLayer then refuse s
  else if statusBusy s.status then reject s
  else startRecv s

/-! ## The stages of a session -/

/-- A stage that issues a command. "Inside the sequence the `STATUS.BUSY <- 0` that ends each block command is
overridden: `BUSY` stays 1 until `ORCH` returns to `Idle`" (R131). A command that fails ends the session. -/
def commandStage (i : Instr) (next : Orch) (s : State) : Host.Outcome State Fault Refusal :=
  match exec i s with
  | .next t =>
    .next (if statusErr t.status = 0 then setBusy true { t with orch := next } else failSession t)
  | .fault f => .fault f
  | .refused r => .refused r

/-- `Playback(HostRead(WAVE), CFG.FS)` (R131, R164): the call; the orchestrator then waits. -/
def callPlayback (s : State) : State :=
  { s with
    orch := .sending .playing
    playbackCalls := s.playbackCalls ++ [{ samples := s.mem.wave, rate := s.cfgFs }] }

/-- The end of R133: `if STATUS.VALID = 1 and LEN(TEXT) > 0 then Deliver(HostRead(TEXT)) else LOG(rejected)`, then
`ORCH <- Idle ; STATUS.BUSY <- 0`. -/
def concludeDecoding (s : State) : State :=
  if statusValid s.status && decide (0 < s.mem.text.length) then
    endSession { s with delivered := s.delivered ++ [s.mem.text] }
  else rejectSession s

/-- The orchestrator's next stage, when nothing arrives from outside: R131's and R133's pseudocode, one line a step
(log 13). Idle, or waiting for a collaborator, it does nothing: "it is idle until a command is written" (R171). -/
def advance (s : State) : Host.Outcome State Fault Refusal :=
  match s.orch with
  | .idle => .next s
  | .sending .unloaded => .next (rejectSession s)
  | .sending .encode => commandStage .enc (.sending .modulate) s
  | .sending .modulate => commandStage .mod (.sending .call) s
  | .sending .call => .next (callPlayback s)
  | .sending .playing => .next s
  | .listening => .next s
  | .decoding .unloaded => .next (rejectSession s)
  | .decoding .demodulate => commandStage .dem (.decoding .decode) s
  | .decoding .decode => commandStage .dec (.decoding .validate) s
  | .decoding .validate => commandStage .val (.decoding .conclude) s
  | .decoding .conclude => .next (concludeDecoding s)

/-! ## The answers of the audio collaborators -/

/-- Playback reports completion: `STATUS.ERR <- OK ; ORCH <- Idle ; STATUS.BUSY <- 0` (R131). -/
def playbackDone (s : State) : Host.Outcome State Fault Refusal :=
  if s.orch = .sending .playing then .next (endSession (setErr none s))
  else .refused (.unsolicitedAnswer .playback)

/-- Playback fails: `STATUS.ERR <- E_AUDIO ; goto fail` (R131, R153). -/
def playbackFailed (s : State) : Host.Outcome State Fault Refusal :=
  if s.orch = .sending .playing then .next (failSession (setErr (some (.audio .playback)) s))
  else .refused (.unsolicitedAnswer .playback)

/-- `HostLoad(WAVE, r.samples) ; ORCH <- Decoding` (R132). The load of a capture longer than a finite `WAVE` is refused
and changes nothing (R57); that the session then ends as rejected, for the reasons of `startSend`, is the model's choice
(log 21). -/
def loadCapture (samples : List Sample) (s : State) : State :=
  if exceeds s.params.waveCap samples.length then { s with orch := .decoding .unloaded }
  else { writeWave samples s with orch := .decoding .demodulate }

/-- Capture answers with samples: exactly `CFG_FS × CFG_CAPDUR` of them, by contract (R165, log 22). -/
def captureDone (samples : List Sample) (s : State) : Host.Outcome State Fault Refusal :=
  if s.orch = .listening then
    if samples.length = s.cfgFs * s.cfgCapdur then .next (loadCapture samples s) else .fault .captureLength
  else .refused (.unsolicitedAnswer .capture)

/-- Capture fails: `STATUS.ERR <- E_AUDIO ; LOG(E_AUDIO) ; ORCH <- Idle ; STATUS.BUSY <- 0` (R132, R153). -/
def captureFailed (s : State) : Host.Outcome State Fault Refusal :=
  if s.orch = .listening then .next (failSession (setErr (some (.audio .capture)) s))
  else .refused (.unsolicitedAnswer .capture)

/-! ## One event -/

/-- The external reset (R180): "every piece of state to the value of R40". The build's parameters and the outside
world's later events are not the block's state and stay (log 24). -/
def resetEvent (s : State) : State := { State.reset with params := s.params, inbox := s.inbox }

/-- What one outside event does (log 11). -/
def takeEvent (e : Event) (s : State) : Host.Outcome State Fault Refusal :=
  match e with
  | .reset => .next (resetEvent s)
  | .quiet => advance s
  | .hostLoad data => .next (hostLoad data s)
  | .hostRead space => .next (hostRead space s)
  | .hostReadCell space i => .next (hostReadCell space i s)
  | .regRead n => .next (regRead n s)
  | .regWrite n v => regWrite n v s
  | .send text => .next (requestSend text s)
  | .recv => .next (requestRecv s)
  | .playbackDone => playbackDone s
  | .playbackFailed => playbackFailed s
  | .captureDone samples => captureDone samples s
  | .captureFailed => captureFailed s

/-- The event a step takes: the oldest of the inbox, or none arriving. -/
def nextEvent (s : State) : Event := s.inbox.headD .quiet

/-- The state in which a step takes its event: the event is off the inbox and the last answer is gone (log 14). -/
def received (s : State) : State := { s with inbox := s.inbox.tail, reply := .nothing }

end Sys2Proof.Machine
end

