-- ==== Sys2Proof/Machine/Step.lean ====
section
/-!
DEFINITION. One step of the machine (spec/00_scope.md R10, R11; spec/20_memory.md R59): it takes the oldest outside
event, or, when none is there, lets the orchestrator go on (log 11).
-/

namespace Sys2Proof.Machine

/-- One step. -/
def step (s : State) : Host.Outcome State Fault Refusal := takeEvent (nextEvent s) (received s)

/-- The instruction `w` of `nbits` bits as the next thing the host writes to `CMD` (log 12). -/
def State.withFetchWord (s : State) (nbits w : Nat) : State :=
  { s with inbox := .regWrite 5 (tableWord nbits w) :: s.inbox }

end Sys2Proof.Machine
end

