-- ==== Sys2Proof/Machine/Datapath.lean ====
section
/-!
DEFINITION. The datapath refinements (spec/40_bit_codec.md R94, R95; spec/41_modulator.md R105;
spec/42_demodulator.md R122): the hidden registers of spec/10_state.md R36 and one tick of each unit. They are "not
observable" and "none survives from one command to the next", so they are not in State and no step runs them (log 27);
statements say that they compute what the commands compute.
-/

namespace Sys2Proof.Machine

/-! ## ENC as a parallel-load shift register (R94) -/

/-- The hidden registers of `ENC`: `SR`, `BITCNT`, the character index, and the `BITS` cells put out so far. -/
structure EncDatapath where
  sr : Byte
  bitcnt : BitVec 3
  index : Nat
  out : List Bit
  deriving DecidableEq, Repr

/-- At the start of the command. -/
def EncDatapath.start : EncDatapath where
  sr := 0
  bitcnt := 0
  index := 0
  out := []

/-- The shift register once the next character is in it: `SR <- c[7:0]` when `BITCNT` is 0. -/
def encLoaded (text : List Nat) (d : EncDatapath) : Byte :=
  if d.bitcnt = 0 then BitVec.ofNat 8 (text.getD d.index 0) else d.sr

/-- One shift: "output `SR[7]` as the next `BITS` cell, `SR <- (SR << 1) mod 256`; `BITCNT` counts the eight shifts from
0 to 7 and wraps to 0, at which point the next character is loaded". -/
def encTick (text : List Nat) (d : EncDatapath) : EncDatapath where
  sr := encLoaded text d <<< 1
  bitcnt := d.bitcnt + 1
  index := if d.bitcnt + 1 = 0 then d.index + 1 else d.index
  out := d.out ++ [(encLoaded text d).getLsbD 7]

/-- `k` shifts from the start of the command. -/
def encShifts (text : List Nat) : Nat → EncDatapath
  | 0 => .start
  | k + 1 => encTick text (encShifts text k)

/-! ## DEC as a serial-in shift register (R95) -/

/-- The hidden registers of `DEC`: `SR`, `BITCNT`, and the `TEXT` cells put out so far. -/
structure DecDatapath where
  sr : Byte
  bitcnt : BitVec 3
  out : List Nat
  deriving DecidableEq, Repr

/-- "`SR <- 0`, `BITCNT <- 0` at the start". -/
def DecDatapath.start : DecDatapath where
  sr := 0
  bitcnt := 0
  out := []

/-- The shift register once the cell `b` is in it: `SR <- ((SR << 1) mod 256) + b`. -/
def decShifted (d : DecDatapath) (b : Bit) : Byte := (d.sr <<< 1) + (BitVec.ofBool b).setWidth 8

/-- One cell: "when `BITCNT` wraps to 0 the value `SR` is the next character". -/
def decTick (d : DecDatapath) (b : Bit) : DecDatapath where
  sr := decShifted d b
  bitcnt := d.bitcnt + 1
  out := if d.bitcnt + 1 = 0 then d.out ++ [(decShifted d b).toNat] else d.out

/-- All cells of a stream. -/
def decShifts (bits : List Bit) : DecDatapath := bits.foldl decTick .start

/-! ## MOD as a dual-tone generator with a sample counter (R105) -/

/-- The hidden registers of `MOD`: the bit index, `SAMPCNT`, the phase accumulator (in turns), and the `WAVE` cells put
out so far, by the counter and by the accumulator. -/
structure ModDatapath where
  index : Nat
  sampcnt : Nat
  phase : Rat
  counted : List Sample
  accumulated : List Sample
  deriving DecidableEq, Repr

/-- At the start of the command. -/
def ModDatapath.start : ModDatapath where
  index := 0
  sampcnt := 0
  phase := 0
  counted := []
  accumulated := []

/-- "The current bit selects which of two frequency words (`CFG_F1`, `CFG_F2`) drives the phase". -/
def modWord (s : State) (d : ModDatapath) : Nat := toneOf s (s.mem.bits.getD d.index false)

/-- One sample: `SAMPCNT` "returns to 0 at each bit boundary"; the accumulator adds `f/CFG_FS` turns per sample and is
"cleared at every bit boundary". -/
def modTick (s : State) (d : ModDatapath) : ModDatapath where
  index := if d.sampcnt + 1 = spb s then d.index + 1 else d.index
  sampcnt := if d.sampcnt + 1 = spb s then 0 else d.sampcnt + 1
  phase := if d.sampcnt + 1 = spb s then 0 else d.phase + mkRat (modWord s d) s.cfgFs
  counted := d.counted ++ [tone s.params s.cfgFs (modWord s d) d.sampcnt]
  accumulated := d.accumulated ++ [toneAt s.params d.phase]

/-- `k` samples from the start of the command. -/
def modTicks (s : State) : Nat → ModDatapath
  | 0 => .start
  | k + 1 => modTick s (modTicks s k)

/-! ## DEM as a windowed peak detector (R122) -/

/-- The hidden registers of `DEM`: `SAMPCNT`, the window store, and the `BITS` cells put out so far. -/
structure DemDatapath where
  sampcnt : Nat
  store : List Sample
  out : List Bit
  deriving DecidableEq, Repr

/-- At the start of the command. -/
def DemDatapath.start : DemDatapath where
  sampcnt := 0
  store := []
  out := []

/-- The running `(PEAKMAG, PEAKBIN)`, `PEAKMAG` by its square (R121a), after the bins `0 .. n`: "starting from
`PEAKMAG = M[0]`, `PEAKBIN = 0`" and "replaced only on a *strictly* greater magnitude". -/
def runningPeak (x : List Sample) : Nat → Sample × Nat
  | 0 => (magSq x 0, 0)
  | n + 1 =>
    if sampleLt (runningPeak x n).1 (magSq x (n + 1)) then (magSq x (n + 1), n + 1) else runningPeak x n

/-- Closing the window: "the magnitudes are scanned for `k = 0, 1, ..., L-1`", "the comparator of rule R115 emits the
bit; `SAMPCNT` returns to 0". -/
def demClose (s : State) (d : DemDatapath) : DemDatapath where
  sampcnt := 0
  store := []
  out := d.out ++
    [decide (mid2 s * d.sampcnt ≤ 2 * absBin (runningPeak d.store (d.sampcnt - 1)).2 d.sampcnt * s.cfgFs)]

/-- One sample: it goes into the window store, and "at `SAMPCNT = SPB`" the window is closed. -/
def demTick (s : State) (d : DemDatapath) (x : Sample) : DemDatapath :=
  let d := { d with sampcnt := d.sampcnt + 1, store := d.store ++ [x] }
  if d.sampcnt = spb s then demClose s d else d

/-- "Or at the end of the waveform with `SAMPCNT > 0`, the window is closed". -/
def demFlush (s : State) (d : DemDatapath) : DemDatapath := if 0 < d.sampcnt then demClose s d else d

/-- All samples of the waveform. -/
def demTicks (s : State) : DemDatapath := demFlush s (s.mem.wave.foldl (demTick s) .start)

end Sys2Proof.Machine
end

