-- ==== Sys2Proof/Safety.lean ====
section
/-!
DEFINITION. The terms statements use: what real number a sample stands for, the rules of spec/41_modulator.md and
spec/42_demodulator.md read over the real and complex numbers, the canonical form of the buffers, and the invariant
of the machine. No step of the machine uses anything of this file.
-/

namespace Sys2Proof

/-- The machine's choice of what the spec leaves open about reals: the one whose signs the machine compares by. A free
value, like `Config.realSign` (log 1, log 3). -/
noncomputable def Config.reals : Reals := Classical.choose Config.realSign.isReal

/-- The real number a sample stands for: what it is read as through `val` of spec/00_scope.md R5 and R7. -/
noncomputable def Sample.val (e : Sample) : ℝ := e.valIn Config.reals

namespace Machine

/-! ## The rules over the reals -/

/-- The parameter `SIN` (R5): the mathematical sine, or a function that is not said. -/
noncomputable def sineFn (p : Params) : ℝ → ℝ :=
  match p.sine with
  | .mathematical => Real.sin
  | .own => Config.reals.sine

/-- `val(quant(r))` (R5, R7): the identity, or a function that is not said. -/
noncomputable def storedAs (p : Params) : ℝ → ℝ :=
  match p.numbers with
  | .exact => id
  | .own => Config.reals.round

/-- `Tone(f, n) = AMP · SIN(2π · f · n / CFG.FS)` as the real number it is stored and read as (R101, R7). -/
noncomputable def realTone (p : Params) (fs f n : Nat) : ℝ :=
  storedAs p (p.amp.val * sineFn p (2 * Real.pi * f * n / fs))

/-- `X[k] = Σ_{n=0..L-1} x[n] · exp(-2πi · k · n / L)` (R112). -/
noncomputable def dft (x : List ℝ) (k : Nat) : ℂ :=
  ∑ n ∈ Finset.range x.length,
    (x.getD n 0 : ℂ) * Complex.exp (-(2 * Real.pi * Complex.I * k * n / x.length))

/-- `M[k] = |X[k]|` (R112). -/
noncomputable def magnitude (x : List ℝ) (k : Nat) : ℝ := ‖dft x k‖

/-- `kpk` is the peak bin of a window (R113): the least `k` in `0 .. L-1` such that `M[k] >= M[j]` for every `j` in
`0 .. L-1`. -/
def IsPeakBin (x : List ℝ) (kpk : Nat) : Prop :=
  kpk < x.length ∧ (∀ j < x.length, magnitude x j ≤ magnitude x kpk) ∧
    ∀ k < kpk, ∃ j < x.length, magnitude x k < magnitude x j

/-- `kpk` is a bin of greatest magnitude, not necessarily the least (U4). -/
def IsGreatestBin (x : List ℝ) (kpk : Nat) : Prop :=
  kpk < x.length ∧ ∀ j < x.length, magnitude x j ≤ magnitude x kpk

/-- `fdom = kabs · CFG.FS / L`, the dominant frequency of a window whose peak bin is `kpk` (R114). -/
noncomputable def dominantFrequency (fs len kpk : Nat) : ℝ := absBin kpk len * fs / len

/-! ## Capacities -/

/-- `n` cells fit a capacity; an unbounded buffer holds any number (R63). -/
abbrev Fits (cap : Option Nat) (n : Nat) : Prop := ∀ c ∈ cap, n ≤ c

/-- The output length of a command (R63): "`8·TEXT_LEN` for ENC, `BITS_LEN div 8` for DEC, `BITS_LEN·SPB` for MOD,
`ceil(WAVE_LEN / SPB)` for DEM". `VAL` writes no buffer. -/
def neededLength (s : State) : Instr → Nat
  | .enc => 8 * s.mem.text.length
  | .dec => s.mem.bits.length / 8
  | .mod => s.mem.bits.length * spb s
  | .dem => (s.mem.wave.length + spb s - 1) / spb s
  | .val => 0

/-! ## How a command ends -/

/-- `t` is a state a command that succeeds can leave behind in `s`: `ERR` is `OK`, `BUSY` 0, `REJ` as it was, the
reserved bit 0, and nothing but the buffers and `STATUS` has changed. Which buffers and whether `VALID` changed is
the command's own matter. -/
structure Completed (s t : State) : Prop where
  err : statusErr t.status = 0#4
  cause : t.cause = none
  busy : statusBusy t.status = false
  rej : statusRej t.status = statusRej s.status
  reserved : t.status.getLsbD 3 = false
  frame : t = { s with mem := t.mem, status := t.status, cause := none }

/-- `t` is `s` after `raise e` with the code `code` and the output buffer `out` (R159). -/
structure Failed (code : BitVec 4) (out : Space) (e : Err) (s t : State) : Prop where
  err : statusErr t.status = code
  cause : t.cause = some e
  busy : statusBusy t.status = false
  valid : statusValid t.status = statusValid s.status
  rej : statusRej t.status = statusRej s.status
  reserved : t.status.getLsbD 3 = false
  cleared : bufferLen t.mem out = 0
  others : ∀ space, space ≠ out → bufferOf t.mem space = bufferOf s.mem space
  frame : t = { s with mem := t.mem, status := t.status, cause := some e }

/-- `t` is `s` after a request made while busy (R157): "the request does nothing; `STATUS.REJ <- 1`". -/
structure Rejected (s t : State) : Prop where
  rej : statusRej t.status = true
  err : statusErr t.status = statusErr s.status
  valid : statusValid t.status = statusValid s.status
  busy : statusBusy t.status = statusBusy s.status
  frame : t = { s with status := t.status, reply := .refused }

/-- A session has ended with the code `code` (R131, R133): back in `Idle`, not busy. -/
structure SessionEnded (code : BitVec 4) (t : State) : Prop where
  err : statusErr t.status = code
  busy : statusBusy t.status = false
  orch : t.orch = .idle

/-- The block command a stage of a session issues (R131, R133). -/
def stageCommand : Orch → Option Instr
  | .idle => none
  | .sending .unloaded => none
  | .sending .encode => some .enc
  | .sending .modulate => some .mod
  | .sending .call => none
  | .sending .playing => none
  | .listening => none
  | .decoding .unloaded => none
  | .decoding .demodulate => some .dem
  | .decoding .decode => some .dec
  | .decoding .validate => some .val
  | .decoding .conclude => none

/-- The session is about to end because its load was refused (log 20, log 21). -/
def isUnloaded : Orch → Bool
  | .sending .unloaded => true
  | .decoding .unloaded => true
  | _ => false

/-- From `s` to `t` the event `e` ends a session because a step of it fails (R131 to R133): the command of the stage fails
when the orchestrator issues it, or the collaborator it waits for does. The session ends with that failure's code and
one `LOG` entry of it. -/
structure SessionFails (e : Event) (s t : State) : Prop where
  step :
    (e = .quiet ∧ ∃ i u, stageCommand s.orch = some i ∧ exec i s = .next u ∧ statusErr u.status = statusErr t.status) ∨
      (e = .playbackFailed ∧ s.orch = .sending .playing ∧ statusErr t.status = 3#4) ∨
      (e = .captureFailed ∧ s.orch = .listening ∧ statusErr t.status = 3#4)
  failed : statusErr t.status ≠ 0#4
  ended : t.orch = .idle
  logged : t.log = s.log ++ [.error (statusErr t.status)]
  delivered : t.delivered = s.delivered

/-- An event of the host or the UI: not the reset line, not the absence of an event, not a collaborator's answer. -/
def Event.isRequest : Event → Bool
  | .reset => false
  | .quiet => false
  | .playbackDone => false
  | .playbackFailed => false
  | .captureDone _ => false
  | .captureFailed => false
  | .hostLoad _ => true
  | .hostRead _ => true
  | .hostReadCell _ _ => true
  | .regRead _ => true
  | .regWrite _ _ => true
  | .send _ => true
  | .recv => true

/-- `k` steps of the machine, ending early at a stop. -/
def steps : Nat → State → Host.Outcome State Fault Refusal
  | 0, s => .next s
  | k + 1, s =>
    match step s with
    | .next t => steps k t
    | .fault f => .fault f
    | .refused r => .refused r

/-! ## Well-formed states -/

/-- The canonical form of the buffers: each `TEXT` cell is below `2^CHAR_W` (R31) and no buffer is longer than its
capacity (R34, R63). Cells beyond a length do not exist, so equal buffers are equal data (log 26). -/
abbrev Memory.wf (p : Params) (m : Memory) : Prop :=
  (∀ c ∈ m.text, c < 2 ^ p.charW) ∧ exceeds p.textCap m.text.length = false ∧
    exceeds p.bitsCap m.bits.length = false ∧ exceeds p.waveCap m.wave.length = false

/-- What every step keeps. -/
structure StateInv (s : State) : Prop where
  /-- the build is one the rules make sense of (log 8) -/
  params : s.params.wf
  /-- each configuration register is below `2^CFG_W` (R20 to R24, R39) -/
  cfgFs : s.cfgFs < 2 ^ s.params.cfgW
  cfgBaud : s.cfgBaud < 2 ^ s.params.cfgW
  cfgF1 : s.cfgF1 < 2 ^ s.params.cfgW
  cfgF2 : s.cfgF2 < 2 ^ s.params.cfgW
  cfgCapdur : s.cfgCapdur < 2 ^ s.params.cfgW
  /-- the buffers are in canonical form -/
  mem : s.mem.wf s.params
  /-- the reserved bit of `STATUS` "reads 0" (R29) -/
  reserved : s.status.getLsbD 3 = false
  /-- `STATUS.ERR` is the code of an outcome of R150; codes 7 to 15 are "never written" -/
  err : statusErr s.status = errCode s.cause
  /-- between steps "`STATUS.BUSY = 1` exactly when `ORCH ≠ Idle`" (R39, R11) -/
  busy : statusBusy s.status = true ↔ s.orch.name ≠ .Idle
  /-- without the session layer there is no session (R39, R79) -/
  session : s.params.hasSessionLayer = false → s.orch = .idle
  /-- about to deliver, `STATUS.VALID` says whether the text at hand is valid (R133) -/
  conclude : s.orch = .decoding .conclude → statusValid s.status = isValid s.mem.text
  /-- every delivered text is "non-empty and all of whose code points are in [32,126]" (R166) -/
  delivered : ∀ t ∈ s.delivered, t ≠ [] ∧ ∀ c ∈ t, 32 ≤ c ∧ c ≤ 126

end Machine

end Sys2Proof
end

