-- ==== Sys2Proof/Certificates/Slice0/Obligations.lean ====
section
/-!
DEFINITION. The statements for the provers. Each says a rule of spec/ about the machine; "log n" is
notes/assumptions/<n>.md. A statement that rests on a choice of the model says so.
-/

open Sys2Proof Sys2Proof.Machine

/-! ## Command words (spec/30_encoding.md) -/

/-- R71: the five words and their commands, and the buffers each command reads and writes. -/
def Obligations.CommandWordsAreAssigned : Prop :=
  (∀ hs : Bool,
    decode hs 0b00000001#8 = .ok .enc ∧ decode hs 0b00000010#8 = .ok .dec ∧ decode hs 0b00000011#8 = .ok .mod ∧
      decode hs 0b00000100#8 = .ok .dem) ∧
    decode true 0b00000101#8 = .ok .val ∧ decode false 0b00000101#8 = .error .noSessionLayer ∧
    (inputSpace .enc = .text ∧ outputSpace .enc = some .bits) ∧ (inputSpace .dec = .bits ∧ outputSpace .dec = some .text) ∧
    (inputSpace .mod = .bits ∧ outputSpace .mod = some .wave) ∧ (inputSpace .dem = .wave ∧ outputSpace .dem = some .bits) ∧
    inputSpace .val = .text ∧ outputSpace .val = none

/-- R72, R155: which words are illegal, how many, and that writing one while idle changes `STATUS.ERR` and nothing
else. -/
def Obligations.IllegalWordsOnlySetErr : Prop :=
  (∀ (hs : Bool) (w : Byte),
    (∃ e, decode hs w = .error e) ↔
      8 ≤ w.toNat ∨ w.toNat % 8 = 0 ∨ w.toNat % 8 = 6 ∨ w.toNat % 8 = 7 ∨ (w.toNat % 8 = 5 ∧ hs = false)) ∧
    ((List.range 256).countP fun v => (decode true (BitVec.ofNat 8 v)).toOption.isNone) = 251 ∧
    ((List.range 256).countP fun v => (decode false (BitVec.ofNat 8 v)).toOption.isNone) = 252 ∧
    ∀ (s : State) (w : Byte) (e : IllegalWord),
      statusBusy s.status = false → decode s.params.hasSessionLayer w = .error e →
        ∃ t, takeEvent (.regWrite 5 w.toNat) s = .next t ∧ statusErr t.status = 5#4 ∧
          statusValid t.status = statusValid s.status ∧ statusRej t.status = statusRej s.status ∧
          statusBusy t.status = false ∧ t = { s with status := t.status, cause := some (.illegal w) }

/-- R70, R71, R72 together: a word decodes to a command exactly when it is that command's word and the build has the
command. So decoding an encoded command gives it back, and no other word does. -/
def Obligations.DecodeEncodeAgree : Prop :=
  ∀ (hs : Bool) (w : Byte) (i : Instr), decode hs w = .ok i ↔ wellFormed hs i = true ∧ w = encode i

/-- R28: a command word written to `CMD` while idle runs its command to completion; `CMD` cannot be read; a write while
busy starts nothing and sets `REJ`. -/
def Obligations.CommandWriteRunsCommand : Prop :=
  (∀ (s : State) (w : Byte) (i : Instr), statusBusy s.status = false → decode s.params.hasSessionLayer w = .ok i →
    takeEvent (.regWrite 5 w.toNat) s = exec i s) ∧
    (∀ s : State, takeEvent (.regRead 5) s = .next { s with reply := .refused }) ∧
    ∀ (s : State) (v : Nat), statusBusy s.status = true →
      ∃ t, takeEvent (.regWrite 5 v) s = .next t ∧ Rejected s t

/-- What `step` adds around a command: it takes the oldest event off the inbox and forgets the last answer (log 11, log
14); a command word at the head of the inbox runs as its command. -/
def Obligations.StepRunsDecodedCommand : Prop :=
  (∀ (s : State) (e : Event) (es : List Event), s.inbox = e :: es →
    step s = takeEvent e { s with inbox := es, reply := .nothing }) ∧
    (∀ s : State, s.inbox = [] → step s = takeEvent .quiet { s with reply := .nothing }) ∧
    ∀ (s : State) (w : Byte) (i : Instr) (es : List Event),
      s.inbox = .regWrite 5 w.toNat :: es → statusBusy s.status = false →
        decode s.params.hasSessionLayer w = .ok i → step s = exec i { s with inbox := es, reply := .nothing }

/-! ## ENC and DEC (spec/40_bit_codec.md) -/

/-- R90: what `ENC` puts out, and its two errors, the encoding error first. -/
def Obligations.EncodesText : Prop :=
  ∀ s : State,
    ((∀ c ∈ s.mem.text, c ≤ 255) → Fits s.params.bitsCap (8 * s.mem.text.length) →
      ∃ t, exec .enc s = .next t ∧ Completed s t ∧ statusValid t.status = statusValid s.status ∧
        t.mem = { s.mem with bits := t.mem.bits } ∧ t.mem.bits.length = 8 * s.mem.text.length ∧
        ∀ i c, s.mem.text[i]? = some c → ∀ j < 8, t.mem.bits[8 * i + j]? = some (c.testBit (7 - j))) ∧
    (∀ i c, s.mem.text[i]? = some c → 255 < c → (∀ j d, j < i → s.mem.text[j]? = some d → d ≤ 255) →
      ∃ t, exec .enc s = .next t ∧ Failed 1#4 .bits (.encoding i) s t) ∧
    ((∀ c ∈ s.mem.text, c ≤ 255) → ¬ Fits s.params.bitsCap (8 * s.mem.text.length) →
      ∃ t, exec .enc s = .next t ∧ Failed 6#4 .bits (.capacity (8 * s.mem.text.length)) s t)

/-- R91: what `DEC` puts out, and its two errors, the malformed length first. -/
def Obligations.DecodesBits : Prop :=
  ∀ s : State,
    (s.mem.bits.length % 8 = 0 → Fits s.params.textCap (s.mem.bits.length / 8) →
      ∃ t, exec .dec s = .next t ∧ Completed s t ∧ statusValid t.status = statusValid s.status ∧
        t.mem = { s.mem with text := t.mem.text } ∧ t.mem.text.length = s.mem.bits.length / 8 ∧
        ∀ i < s.mem.bits.length / 8,
          t.mem.text[i]? = some (∑ j ∈ Finset.range 8, (s.mem.bits.getD (8 * i + j) false).toNat * 2 ^ (7 - j))) ∧
    (s.mem.bits.length % 8 ≠ 0 →
      ∃ t, exec .dec s = .next t ∧ Failed 2#4 .text (.malformed s.mem.bits.length) s t) ∧
    (s.mem.bits.length % 8 = 0 → ¬ Fits s.params.textCap (s.mem.bits.length / 8) →
      ∃ t, exec .dec s = .next t ∧ Failed 6#4 .text (.capacity (s.mem.bits.length / 8)) s t)

/-- R151, R152: `E_ENCODING` is raised by `ENC` on a code point above 255 and by nothing else, and aborts a send;
`E_MALFORMED` is raised by `DEC` on a length that is no multiple of 8 and by nothing else. -/
def Obligations.DataErrorsHaveOneSource : Prop :=
  (∀ s t, exec .enc s = .next t →
    (statusErr t.status = 1#4 ↔ ∃ c ∈ s.mem.text, 255 < c) ∧ (statusErr t.status = 1#4 → ∃ e, Failed 1#4 .bits e s t)) ∧
    (∀ s t, exec .dec s = .next t →
      (statusErr t.status = 2#4 ↔ s.mem.bits.length % 8 ≠ 0) ∧
        (statusErr t.status = 2#4 → ∃ e, Failed 2#4 .text e s t)) ∧
    (∀ i s t, i ≠ .enc → exec i s = .next t → statusErr t.status ≠ 1#4) ∧
    (∀ i s t, i ≠ .dec → exec i s = .next t → statusErr t.status ≠ 2#4) ∧
    ∀ s : State, s.orch = .sending .encode → (∃ c ∈ s.mem.text, 255 < c) →
      ∃ t, takeEvent .quiet s = .next t ∧ SessionEnded 1#4 t ∧ t.playbackCalls = s.playbackCalls ∧
        t.mem.wave = s.mem.wave

/-- R92: `LDT s; ENC; DEC` gives back every text of code points at most 255, and `LDB b; DEC; ENC` every stream whose
length is a multiple of 8, where the buffers can hold what they must. -/
def Obligations.CodecRoundTrip : Prop :=
  (∀ (s : State) (text : List Nat), statusBusy s.status = false → s.params.wf → (∀ c ∈ text, c ≤ 255) →
    Fits s.params.textCap text.length → Fits s.params.bitsCap (8 * text.length) →
      ∃ t u v, takeEvent (.hostLoad (.text text)) s = .next t ∧ exec .enc t = .next u ∧ exec .dec u = .next v ∧
        v.mem.text = text ∧ statusErr v.status = 0#4) ∧
    ∀ (s : State) (bits : List Bit), statusBusy s.status = false → bits.length % 8 = 0 →
      Fits s.params.bitsCap bits.length → Fits s.params.textCap (bits.length / 8) →
        ∃ t u v, takeEvent (.hostLoad (.bits bits)) s = .next t ∧ exec .dec t = .next u ∧ exec .enc u = .next v ∧
          v.mem.bits = bits ∧ statusErr v.status = 0#4

/-- R93: the lengths after a successful `ENC` and a successful `DEC`. -/
def Obligations.BitCountInvariant : Prop :=
  (∀ s t, exec .enc s = .next t → statusErr t.status = 0#4 → t.mem.bits.length = 8 * t.mem.text.length) ∧
    ∀ s t, exec .dec s = .next t → statusErr t.status = 0#4 →
      t.mem.text.length = t.mem.bits.length / 8 ∧ t.mem.bits.length % 8 = 0

/-! ## MOD (spec/41_modulator.md) -/

/-- R100: what `MOD` puts out, sample by sample as the real numbers they are stored and read as (R7), and its two errors, the configuration first. -/
def Obligations.ModulatesBits : Prop :=
  ∀ s : State,
    (ConfigLegal s → Fits s.params.waveCap (s.mem.bits.length * (s.cfgFs / s.cfgBaud)) →
      ∃ t, exec .mod s = .next t ∧ Completed s t ∧ statusValid t.status = statusValid s.status ∧
        t.mem = { s.mem with wave := t.mem.wave } ∧
        t.mem.wave.length = s.mem.bits.length * (s.cfgFs / s.cfgBaud) ∧
        ∀ i b n, s.mem.bits[i]? = some b → n < s.cfgFs / s.cfgBaud →
          ∃ x, t.mem.wave[i * (s.cfgFs / s.cfgBaud) + n]? = some x ∧
            x.val = realTone s.params s.cfgFs (if b then s.cfgF2 else s.cfgF1) n) ∧
    (¬ ConfigLegal s → ∃ t c, exec .mod s = .next t ∧ Failed 4#4 .wave (.config c) s t) ∧
    (ConfigLegal s → ¬ Fits s.params.waveCap (s.mem.bits.length * (s.cfgFs / s.cfgBaud)) →
      ∃ t, exec .mod s = .next t ∧
        Failed 6#4 .wave (.capacity (s.mem.bits.length * (s.cfgFs / s.cfgBaud))) s t)

/-- R101: a waveform is a concatenation of two fixed templates, whatever the position of a bit and its neighbours; a
template's samples are `AMP · SIN(2π·f·n/CFG.FS)`, and with R5's sine and number format the first is 0 and none exceeds
`AMP` in absolute value. -/
def Obligations.WaveformIsTwoTemplates : Prop :=
  (∀ s t, exec .mod s = .next t → statusErr t.status = 0#4 →
    ∃ T0 T1 : List Sample,
      T0.map Sample.val = (List.range (s.cfgFs / s.cfgBaud)).map (fun n => realTone s.params s.cfgFs s.cfgF1 n) ∧
      T1.map Sample.val = (List.range (s.cfgFs / s.cfgBaud)).map (fun n => realTone s.params s.cfgFs s.cfgF2 n) ∧
      t.mem.wave = s.mem.bits.flatMap fun b => if b then T1 else T0) ∧
    ∀ (p : Params) (fs f n : Nat), p.sine = .mathematical → p.numbers = .exact →
      realTone p fs f 0 = 0 ∧ |realTone p fs f n| ≤ |p.amp.val|

/-- R102: every segment starts at phase 0 (so, with R5's sine and number format, at the value 0), equal bits give equal segments, and nothing stands between segments; at the
defaults the 1500 Hz tone would have come back to 0 at the end of its segment and the 2500 Hz tone would not. -/
def Obligations.PhaseRestarts : Prop :=
  (∀ s t, exec .mod s = .next t → statusErr t.status = 0#4 →
    t.mem.wave.length = s.mem.bits.length * (s.cfgFs / s.cfgBaud) ∧
      (∀ i b, s.mem.bits[i]? = some b →
        ∃ x, t.mem.wave[i * (s.cfgFs / s.cfgBaud)]? = some x ∧
          x.val = realTone s.params s.cfgFs (if b then s.cfgF2 else s.cfgF1) 0 ∧
          (s.params.sine = .mathematical → s.params.numbers = .exact → x.val = 0)) ∧
      ∀ i j b n, s.mem.bits[i]? = some b → s.mem.bits[j]? = some b → n < s.cfgFs / s.cfgBaud →
        t.mem.wave[i * (s.cfgFs / s.cfgBaud) + n]? = t.mem.wave[j * (s.cfgFs / s.cfgBaud) + n]?) ∧
    realTone Params.default 44100 1500 147 = 0 ∧ realTone Params.default 44100 2500 147 = Real.sin (2 * Real.pi / 3)

/-- R103: the length of the waveform, that a segment lasts exactly one bit interval, and the length of two characters
at the defaults. -/
def Obligations.WaveLengthInvariant : Prop :=
  ∀ s t, exec .mod s = .next t → statusErr t.status = 0#4 →
    t.mem.wave.length = t.mem.bits.length * spb t ∧ spb t * t.cfgBaud = t.cfgFs ∧
      (spb t : ℝ) / t.cfgFs = 1 / t.cfgBaud ∧
      (s.cfgFs = 44100 → s.cfgBaud = 300 → s.mem.bits.length = 16 → t.mem.wave.length = 2352)

/-- R104, R117, R154: `MOD` and `DEM` raise `E_CONFIG` exactly when one of the four clauses fails, and then only empty
their output; no other command raises it. -/
def Obligations.ConfigurationIsChecked : Prop :=
  (∀ i s t out, i = .mod ∨ i = .dem → outputSpace i = some out → exec i s = .next t →
    (statusErr t.status = 4#4 ↔ ¬ (0 < s.cfgFs ∧ 0 < s.cfgBaud ∧ s.cfgFs % s.cfgBaud = 0 ∧ s.cfgF1 ≠ s.cfgF2)) ∧
      (statusErr t.status = 4#4 → ∃ c, Failed 4#4 out (.config c) s t)) ∧
    ∀ i s t, i ≠ .mod → i ≠ .dem → exec i s = .next t → statusErr t.status ≠ 4#4

/-! ## DEM (spec/42_demodulator.md) -/

/-- R110 with R111 to R117: one bit per window, by the true peak of the window's transform over the reals and the
comparison of its dominant frequency with the midpoint; and the two errors. When `TIE` is not the least index, the
peak is some bin of greatest magnitude (R113, U4). -/
def Obligations.DemodulatesWindows : Prop :=
  ∀ s : State,
    (ConfigLegal s → Fits s.params.bitsCap ((s.mem.wave.length + spb s - 1) / spb s) →
      ∃ t, exec .dem s = .next t ∧ Completed s t ∧ statusValid t.status = statusValid s.status ∧
        t.mem = { s.mem with bits := t.mem.bits } ∧
        t.mem.bits.length = (s.mem.wave.length + spb s - 1) / spb s ∧
        ∀ w < (s.mem.wave.length + spb s - 1) / spb s,
          ∃ (len : Nat) (x : List ℝ) (kpk : Nat) (b : Bit),
            len = min (spb s) (s.mem.wave.length - w * spb s) ∧ 0 < len ∧
            x = ((s.mem.wave.drop (w * spb s)).take len).map Sample.val ∧ x.length = len ∧
            IsGreatestBin x kpk ∧ (s.params.tie = .leastIndex → IsPeakBin x kpk) ∧
            t.mem.bits[w]? = some b ∧
            (b = true ↔ ((s.cfgF1 : ℝ) + s.cfgF2) / 2 ≤ dominantFrequency s.cfgFs len kpk) ∧
            (b = true ↔ (s.cfgF1 + s.cfgF2) * len ≤ 2 * min kpk (len - kpk) * s.cfgFs)) ∧
    (¬ ConfigLegal s → ∃ t c, exec .dem s = .next t ∧ Failed 4#4 .bits (.config c) s t) ∧
    (ConfigLegal s → ¬ Fits s.params.bitsCap ((s.mem.wave.length + spb s - 1) / spb s) →
      ∃ t, exec .dem s = .next t ∧ Failed 6#4 .bits (.capacity ((s.mem.wave.length + spb s - 1) / spb s)) s t)

/-- R121(c): a window's bit is 1 exactly when some bin at or above the threshold exceeds every bin below it. -/
def Obligations.SplitSearchDecidesTheBit : Prop :=
  ∀ (s : State) (x : List Sample), s.params.tie = .leastIndex → 0 < x.length →
    (classify s x = true ↔
      ∃ k ≤ x.length / 2, mid2 s * x.length ≤ 2 * k * s.cfgFs ∧
        ∀ j, 2 * j * s.cfgFs < mid2 s * x.length → j ≤ x.length / 2 →
          magnitude (x.map Sample.val) j < magnitude (x.map Sample.val) k)

/-- The corner cases of R110: a waveform of one constant value (silence among them, and a window of one sample) is all
zeros. It rests on the least-index rule. -/
def Obligations.ConstantWaveformGivesZeros : Prop :=
  ∀ (s : State) (a : ℝ), ConfigLegal s → s.params.tie = .leastIndex →
    Fits s.params.bitsCap ((s.mem.wave.length + spb s - 1) / spb s) → (∀ x ∈ s.mem.wave, x.val = a) →
      ∃ t, exec .dem s = .next t ∧ statusErr t.status = 0#4 ∧
        t.mem.bits = List.replicate ((s.mem.wave.length + spb s - 1) / spb s) false

/-- R118: multiplying every sample by one real other than 0 changes no bit. It rests on the least-index rule. -/
def Obligations.AmplitudeDoesNotMatter : Prop :=
  ∀ (s : State) (wave : List Sample) (r : ℝ), s.params.tie = .leastIndex → r ≠ 0 →
    wave.map Sample.val = s.mem.wave.map (fun x => r * x.val) →
      ∃ t u, exec .dem s = .next t ∧ exec .dem { s with mem := { s.mem with wave := wave } } = .next u ∧
        u.mem.bits = t.mem.bits ∧ u.status = t.status

/-- R119: after `MOD; DEM` under one legal configuration there are as many bits as before, and they are the bits that
were there exactly when each of the two templates that occurs is classified as its bit. -/
def Obligations.RoundTripIsTwoFacts : Prop :=
  ∀ s : State, ConfigLegal s → Fits s.params.waveCap (s.mem.bits.length * spb s) →
    Fits s.params.bitsCap s.mem.bits.length →
      ∃ t u, exec .mod s = .next t ∧ exec .dem t = .next u ∧ statusErr u.status = 0#4 ∧
        u.mem.bits.length = s.mem.bits.length ∧
        (u.mem.bits = s.mem.bits ↔ ∀ b ∈ s.mem.bits, classify s (bitSegment s b) = b)

/-- R119's sufficient condition: with both tones multiples of the baud rate and `0 < F1 < F2 < FS/2`, `MOD; DEM` gives
back every bit sequence, whatever the (nonzero) amplitude and the tie rule, with R5's sine and number format. -/
def Obligations.AlignedTonesRoundTrip : Prop :=
  ∀ s : State, 0 < s.cfgBaud → s.cfgFs % s.cfgBaud = 0 → s.cfgF1 % s.cfgBaud = 0 → s.cfgF2 % s.cfgBaud = 0 →
    0 < s.cfgF1 → s.cfgF1 < s.cfgF2 → 2 * s.cfgF2 < s.cfgFs →
    s.params.sine = .mathematical → s.params.numbers = .exact → s.params.amp.val ≠ 0 →
    Fits s.params.waveCap (s.mem.bits.length * spb s) → Fits s.params.bitsCap s.mem.bits.length →
      ∃ t u, exec .mod s = .next t ∧ exec .dem t = .next u ∧ statusErr u.status = 0#4 ∧ u.mem.bits = s.mem.bits

/-- R193: with the tones the other way round, and as clean, every bit comes back inverted (R5's sine and number
format). -/
def Obligations.ReversedTonesInvert : Prop :=
  ∀ s : State, 0 < s.cfgBaud → s.cfgFs % s.cfgBaud = 0 → s.cfgF1 % s.cfgBaud = 0 → s.cfgF2 % s.cfgBaud = 0 →
    0 < s.cfgF2 → s.cfgF2 < s.cfgF1 → 2 * s.cfgF1 < s.cfgFs →
    s.params.sine = .mathematical → s.params.numbers = .exact → s.params.amp.val ≠ 0 →
    Fits s.params.waveCap (s.mem.bits.length * spb s) → Fits s.params.bitsCap s.mem.bits.length →
      ∃ t u, exec .mod s = .next t ∧ exec .dem t = .next u ∧ statusErr u.status = 0#4 ∧
        u.mem.bits = s.mem.bits.map fun b => !b

/-- R119 at the defaults ("it holds at the defaults"): with 44100, 300, 1500, 2500, amplitude 1 and R5's sine and
number format, `MOD; DEM` gives back every bit sequence. -/
def Obligations.DefaultTonesRoundTrip : Prop :=
  ∀ s : State, s.cfgFs = 44100 → s.cfgBaud = 300 → s.cfgF1 = 1500 → s.cfgF2 = 2500 →
    s.params.sine = .mathematical → s.params.numbers = .exact → s.params.amp.val = 1 →
    Fits s.params.waveCap (s.mem.bits.length * 147) → Fits s.params.bitsCap s.mem.bits.length →
      ∃ t u, exec .mod s = .next t ∧ exec .dem t = .next u ∧ statusErr u.status = 0#4 ∧ u.mem.bits = s.mem.bits

/-- R187: a waveform that is not a whole number of windows gives one bit more, and a `DEC` after it fails. -/
def Obligations.TrailingWindowSpoilsDecoding : Prop :=
  ∀ s : State, ConfigLegal s → s.mem.wave.length % spb s ≠ 0 → s.mem.wave.length / spb s % 8 = 0 →
    Fits s.params.bitsCap (s.mem.wave.length / spb s + 1) →
      ∃ t u, exec .dem s = .next t ∧ statusErr t.status = 0#4 ∧
        t.mem.bits.length = s.mem.wave.length / spb s + 1 ∧ exec .dec t = .next u ∧
        Failed 2#4 .text (.malformed (s.mem.wave.length / spb s + 1)) t u

/-! ## VAL (spec/43_validator.md) -/

/-- R125, R126, R127: `VALID` is 1 exactly when every code point lies in [32,126], so on the empty text; no buffer is
written and there is no error. -/
def Obligations.ValidatesText : Prop :=
  ∀ s : State, ∃ t, exec .val s = .next t ∧ Completed s t ∧ t.mem = s.mem ∧
    (statusValid t.status = true ↔ ∀ c ∈ s.mem.text, 32 ≤ c ∧ c ≤ 126) ∧
    (s.mem.text = [] → statusValid t.status = true)

/-! ## Errors (spec/60_exceptions.md) -/

/-- R159: whatever command fails, its output buffer is empty, `STATUS.ERR` is the code of its error, and nothing else has
changed but `BUSY`;
in a session the orchestrator has then logged and returned to `Idle`. -/
def Obligations.ErrorEntry : Prop :=
  ∀ i s t, exec i s = .next t → statusErr t.status ≠ 0#4 →
    (∃ out e, outputSpace i = some out ∧ statusErr t.status = errCode (some e) ∧
      Failed (statusErr t.status) out e s t) ∧
      ∀ next : Orch, ∃ u, commandStage i next s = .next u ∧ SessionEnded (statusErr t.status) u ∧
        u.log = s.log ++ [.error (statusErr t.status)] ∧ u.mem = t.mem

/-- R158: the order in which the conditions of one `CMD` write are looked at, and that the first failing step of a
session ends it. -/
def Obligations.ErrorPriority : Prop :=
  (∀ (s : State) (v : Nat), statusBusy s.status = true → ∃ t, takeEvent (.regWrite 5 v) s = .next t ∧ Rejected s t) ∧
    (∀ (s : State) (w : Byte) (e : IllegalWord), statusBusy s.status = false →
      decode s.params.hasSessionLayer w = .error e →
        ∃ t, takeEvent (.regWrite 5 w.toNat) s = .next t ∧ statusErr t.status = 5#4) ∧
    (∀ (s : State) (w : Byte) (i : Instr), statusBusy s.status = false → decode s.params.hasSessionLayer w = .ok i →
      ∃ t, takeEvent (.regWrite 5 w.toNat) s = .next t ∧
        ∀ cfg enc dec cap : Prop,
          (cfg ↔ (i = .mod ∨ i = .dem) ∧ ¬ ConfigLegal s) → (enc ↔ i = .enc ∧ ∃ c ∈ s.mem.text, 255 < c) →
          (dec ↔ i = .dec ∧ s.mem.bits.length % 8 ≠ 0) →
          (cap ↔ ∃ out, outputSpace i = some out ∧ ¬ Fits (capacityOf s.params out) (neededLength s i)) →
            (cfg → statusErr t.status = 4#4) ∧ (enc → statusErr t.status = 1#4) ∧ (dec → statusErr t.status = 2#4) ∧
              (¬ cfg → ¬ enc → ¬ dec → cap → statusErr t.status = 6#4) ∧
              (¬ cfg → ¬ enc → ¬ dec → ¬ cap → statusErr t.status = 0#4)) ∧
    ∀ i s t next, exec i s = .next t → statusErr t.status ≠ 0#4 →
      ∃ u, commandStage i next s = .next u ∧ u.orch = .idle

/-- `E_CAPACITY` (R156, R63) is raised exactly instead of a truncated result, never with unbounded buffers; a load
beyond capacity is refused and is not this error, and no event brings the error but one that issues a command that
raises it. That a `CMD` write of 256 or more issues none is the model's choice (log 17). -/
def Obligations.CapacityNeverTruncates : Prop :=
  (∀ i s t out, outputSpace i = some out → exec i s = .next t →
    (statusErr t.status = 0#4 →
      Fits (capacityOf s.params out) (neededLength s i) ∧ bufferLen t.mem out = neededLength s i) ∧
    (statusErr t.status = 6#4 →
      ¬ Fits (capacityOf s.params out) (neededLength s i) ∧ Failed 6#4 out (.capacity (neededLength s i)) s t) ∧
    (s.params.textCap = none → s.params.bitsCap = none → s.params.waveCap = none → statusErr t.status ≠ 6#4)) ∧
    (∀ (s : State) (data : BufferData), statusBusy s.status = false → loadTooLong s.params data = true →
      takeEvent (.hostLoad data) s = .next { s with reply := .refused }) ∧
    ∀ e s t, takeEvent e s = .next t → statusErr t.status = 6#4 →
      statusErr s.status = 6#4 ∨
        ∃ i u, exec i s = .next u ∧ statusErr u.status = 6#4 ∧
          ((e = .regWrite 5 (encode i).toNat ∧ statusBusy s.status = false) ∨
            (e = .quiet ∧ stageCommand s.orch = some i))

/-- R157: the requests that are rejected while busy, and how `REJ` is cleared. A write of `STATUS` while idle with a 0 in
its bit changes nothing (R29). -/
def Obligations.BusyRejectsRequests : Prop :=
  (∀ s : State, statusBusy s.status = true →
    (∀ n v, n ≤ 5 → ∃ t, takeEvent (.regWrite n v) s = .next t ∧ Rejected s t) ∧
    (∀ data, ∃ t, takeEvent (.hostLoad data) s = .next t ∧ Rejected s t) ∧
    (s.params.hasSessionLayer = true →
      (∀ text, ∃ t, takeEvent (.send text) s = .next t ∧ Rejected s t) ∧
      ∃ t, takeEvent .recv s = .next t ∧ Rejected s t)) ∧
    (∀ s : State, ∃ t, takeEvent .reset s = .next t ∧ statusRej t.status = false) ∧
    (∀ (s : State) (v : Byte), statusBusy s.status = false → v.getLsbD 2 = true →
      ∃ t, takeEvent (.regWrite 6 v.toNat) s = .next t ∧ statusRej t.status = false ∧
        statusErr t.status = statusErr s.status ∧ statusValid t.status = statusValid s.status ∧
        statusBusy t.status = false ∧ t = { s with status := t.status }) ∧
    ∀ (s : State) (v : Byte), statusBusy s.status = false → v.getLsbD 2 = false →
      takeEvent (.regWrite 6 v.toNat) s = .next s

/-- The writers of `STATUS` (R29): `REJ` is set only by a request while busy and cleared only by reset or by writing a 1 to it while idle;
`VALID` changes only by `VAL` (from the host or as a stage of a session) and by reset; the reserved bit stays 0.
That of the `CMD` writes only that of 5 runs `VAL`, and none of 256 or more, is the model's choice (log 17). -/
def Obligations.StatusFlagsHaveFewWriters : Prop :=
  ∀ e s t, takeEvent e s = .next t →
    (statusRej s.status = true → statusRej t.status = true ∨ e = .reset ∨
      ∃ v, e = .regWrite 6 v ∧ v.testBit 2 = true ∧ statusBusy s.status = false) ∧
    (statusRej t.status = true → statusRej s.status = true ∨ (statusBusy s.status = true ∧ e.isRequest = true)) ∧
    (statusValid t.status = statusValid s.status ∨ e = .reset ∨
      (e = .regWrite 5 5 ∧ statusBusy s.status = false) ∨ (e = .quiet ∧ s.orch = .decoding .validate)) ∧
    (s.status.getLsbD 3 = false → t.status.getLsbD 3 = false)

/-! ## Registers and host access (spec/10_state.md, spec/20_memory.md) -/

/-- R20 to R24, R39: what each register reads, and that any value of its width can be written to a configuration
register. Register 4 is there with the session layer (log 25). -/
def Obligations.RegisterMap : Prop :=
  ∀ s : State, statusBusy s.status = false →
    (takeEvent (.regRead 0) s = .next { s with reply := .number s.cfgFs } ∧
      takeEvent (.regRead 1) s = .next { s with reply := .number s.cfgBaud } ∧
      takeEvent (.regRead 2) s = .next { s with reply := .number s.cfgF1 } ∧
      takeEvent (.regRead 3) s = .next { s with reply := .number s.cfgF2 } ∧
      (s.params.hasSessionLayer = true → takeEvent (.regRead 4) s = .next { s with reply := .number s.cfgCapdur }) ∧
      takeEvent (.regRead 6) s = .next { s with reply := .number s.status.toNat } ∧
      takeEvent (.regRead 7) s = .next { s with reply := .number s.mem.text.length } ∧
      takeEvent (.regRead 8) s = .next { s with reply := .number s.mem.bits.length } ∧
      takeEvent (.regRead 9) s = .next { s with reply := .number s.mem.wave.length }) ∧
    ∀ v < 2 ^ s.params.cfgW,
      takeEvent (.regWrite 0 v) s = .next { s with cfgFs := v } ∧
        takeEvent (.regWrite 1 v) s = .next { s with cfgBaud := v } ∧
        takeEvent (.regWrite 2 v) s = .next { s with cfgF1 := v } ∧
        takeEvent (.regWrite 3 v) s = .next { s with cfgF2 := v } ∧
        (s.params.hasSessionLayer = true → takeEvent (.regWrite 4 v) s = .next { s with cfgCapdur := v })

/-- R26, R27: the two derived registers, `SPB >= 1` under a legal configuration, their values at the defaults, and that
`MID2` fits `CFG_W + 1` bits without wrap-around. -/
def Obligations.DerivedRegisters : Prop :=
  ∀ s : State, statusBusy s.status = false →
    (0 < s.cfgBaud → s.cfgFs % s.cfgBaud = 0 →
      takeEvent (.regRead 10) s = .next { s with reply := .number (s.cfgFs / s.cfgBaud) }) ∧
    (¬ (0 < s.cfgBaud ∧ s.cfgFs % s.cfgBaud = 0) →
      takeEvent (.regRead 10) s = .next { s with reply := .number 0 } ∧
        (∃ t, exec .mod s = .next t ∧ statusErr t.status = 4#4) ∧ ∃ t, exec .dem s = .next t ∧ statusErr t.status = 4#4) ∧
    (ConfigLegal s → 1 ≤ s.cfgFs / s.cfgBaud) ∧
    takeEvent (.regRead 11) s = .next { s with reply := .number (s.cfgF1 + s.cfgF2) } ∧
    (s.cfgF1 < 2 ^ s.params.cfgW → s.cfgF2 < 2 ^ s.params.cfgW → s.cfgF1 + s.cfgF2 < 2 ^ (s.params.cfgW + 1)) ∧
    (s.cfgFs = 44100 → s.cfgBaud = 300 → takeEvent (.regRead 10) s = .next { s with reply := .number 147 }) ∧
    (s.cfgF1 = 1500 → s.cfgF2 = 2500 → takeEvent (.regRead 11) s = .next { s with reply := .number 4000 })

/-- R58: an access to a register that does not exist, a read of `CMD` and a write of a read-only register have no
effect and return no value. -/
def Obligations.RefusedRegisterAccess : Prop :=
  ∀ (s : State) (n v : Nat),
    (12 ≤ n → takeEvent (.regRead n) s = .next { s with reply := .refused }) ∧
      takeEvent (.regRead 5) s = .next { s with reply := .refused } ∧
      (7 ≤ n → takeEvent (.regWrite n v) s = .next { s with reply := .refused })

/-- The host primitives, idle and busy (R57). What R57 leaves open is the model's choice: a load with a code point that
does not fit its cell (log 19) and a write of a value that does not fit its register (log 17, log 18, log 32) are refused
and change nothing, and so are reads while busy (log 31). -/
def Obligations.HostPrimitives : Prop :=
  ∀ s : State,
    (statusBusy s.status = false →
      (∀ cells, (∀ c ∈ cells, c < 2 ^ s.params.charW) → Fits s.params.textCap cells.length →
        takeEvent (.hostLoad (.text cells)) s = .next { s with mem := { s.mem with text := cells } }) ∧
      (∀ cells, Fits s.params.bitsCap cells.length →
        takeEvent (.hostLoad (.bits cells)) s = .next { s with mem := { s.mem with bits := cells } }) ∧
      (∀ cells, Fits s.params.waveCap cells.length →
        takeEvent (.hostLoad (.wave cells)) s = .next { s with mem := { s.mem with wave := cells } }) ∧
      (∀ data, loadTooLong s.params data = true →
        takeEvent (.hostLoad data) s = .next { s with reply := .refused }) ∧
      (∀ cells, (∃ c ∈ cells, 2 ^ s.params.charW ≤ c) →
        takeEvent (.hostLoad (.text cells)) s = .next { s with reply := .refused }) ∧
      takeEvent (.hostRead .text) s = .next { s with reply := .buffer (.text s.mem.text) } ∧
      takeEvent (.hostRead .bits) s = .next { s with reply := .buffer (.bits s.mem.bits) } ∧
      takeEvent (.hostRead .wave) s = .next { s with reply := .buffer (.wave s.mem.wave) } ∧
      (∀ i c, s.mem.text[i]? = some c →
        takeEvent (.hostReadCell .text i) s = .next { s with reply := .cell (.text c) }) ∧
      (∀ i b, s.mem.bits[i]? = some b →
        takeEvent (.hostReadCell .bits i) s = .next { s with reply := .cell (.bit b) }) ∧
      (∀ i x, s.mem.wave[i]? = some x →
        takeEvent (.hostReadCell .wave i) s = .next { s with reply := .cell (.sample x) }) ∧
      (∀ space i, bufferLen s.mem space ≤ i →
        takeEvent (.hostReadCell space i) s = .next { s with reply := .refused }) ∧
      (∀ n v, n ≤ 4 → 2 ^ s.params.cfgW ≤ v →
        takeEvent (.regWrite n v) s = .next { s with reply := .refused }) ∧
      ∀ n v, n = 5 ∨ n = 6 → 256 ≤ v → takeEvent (.regWrite n v) s = .next { s with reply := .refused }) ∧
    (statusBusy s.status = true →
      (∀ data, ∃ t, takeEvent (.hostLoad data) s = .next t ∧ Rejected s t) ∧
      (∀ n v, n ≤ 5 → ∃ t, takeEvent (.regWrite n v) s = .next t ∧ Rejected s t) ∧
      (∀ space, takeEvent (.hostRead space) s = .next { s with reply := .refused }) ∧
      (∀ space i, takeEvent (.hostReadCell space i) s = .next { s with reply := .refused }) ∧
      ∀ n, n ≠ 6 → takeEvent (.regRead n) s = .next { s with reply := .refused }) ∧
    takeEvent (.regRead 6) s = .next { s with reply := .number s.status.toNat }

/-- R56: issuing the same command a second time changes nothing more. -/
def Obligations.CommandsAreIdempotent : Prop :=
  ∀ i s t, exec i s = .next t → exec i t = .next t

/-- R56: a command's output and outcome depend on its input buffer and the build, and for `MOD` and `DEM` on the four
configuration registers, and on nothing else. -/
def Obligations.CommandsReadOnlyTheirInput : Prop :=
  ∀ i s s' t t', s.params = s'.params → bufferOf s.mem (inputSpace i) = bufferOf s'.mem (inputSpace i) →
    (i = .mod ∨ i = .dem →
      s.cfgFs = s'.cfgFs ∧ s.cfgBaud = s'.cfgBaud ∧ s.cfgF1 = s'.cfgF1 ∧ s.cfgF2 = s'.cfgF2) →
    exec i s = .next t → exec i s' = .next t' →
      statusErr t.status = statusErr t'.status ∧ t.cause = t'.cause ∧
        (∀ out, outputSpace i = some out → bufferOf t.mem out = bufferOf t'.mem out) ∧
        (i = .val → statusValid t.status = statusValid t'.status)

/-- The configuration changes only by reset and by a write of one of its registers while idle (R61, R186); a build's
parameters never change (log 7). That a write of `2^CFG_W` or more changes no register is the model's choice (log 32). -/
def Obligations.ConfigurationIsFrozenInFlight : Prop :=
  ∀ e s t, takeEvent e s = .next t →
    t.params = s.params ∧
      (e = .reset ∨ (statusBusy s.status = false ∧ ∃ n v, n ≤ 4 ∧ v < 2 ^ s.params.cfgW ∧ e = .regWrite n v) ∨
        (t.cfgFs = s.cfgFs ∧ t.cfgBaud = s.cfgBaud ∧ t.cfgF1 = s.cfgF1 ∧ t.cfgF2 = s.cfgF2 ∧
          t.cfgCapdur = s.cfgCapdur))

/-! ## Reset and invariant (spec/70_reset_and_hazards.md) -/

/-- R40: the reset value of every piece of state the spec gives one. -/
def Obligations.ResetState : Prop :=
  State.reset.cfgFs = 44100 ∧ State.reset.cfgBaud = 300 ∧ State.reset.cfgF1 = 1500 ∧ State.reset.cfgF2 = 2500 ∧
    State.reset.cfgCapdur = 5 ∧ spb State.reset = 147 ∧ mid2 State.reset = 4000 ∧
    statusBusy State.reset.status = false ∧ statusValid State.reset.status = false ∧
    statusRej State.reset.status = false ∧ statusErr State.reset.status = 0#4 ∧
    bufferLen State.reset.mem .text = 0 ∧ bufferLen State.reset.mem .bits = 0 ∧ bufferLen State.reset.mem .wave = 0 ∧
    State.reset.orch = .idle ∧ State.reset.delivered = [] ∧ State.reset.log = []

/-- R180: the reset event, from any state, a session in flight included; after it the block is idle and waits. -/
def Obligations.ResetEvent : Prop :=
  ∀ s : State, ∃ t, takeEvent .reset s = .next t ∧
    t.cfgFs = 44100 ∧ t.cfgBaud = 300 ∧ t.cfgF1 = 1500 ∧ t.cfgF2 = 2500 ∧ t.cfgCapdur = 5 ∧ t.status = 0#8 ∧
    bufferLen t.mem .text = 0 ∧ bufferLen t.mem .bits = 0 ∧ bufferLen t.mem .wave = 0 ∧ t.orch = .idle ∧
    t.delivered = [] ∧ t.log = [] ∧ takeEvent .quiet t = .next t

/-- The invariant holds right after reset. -/
def Obligations.ResetMeetsInvariant : Prop := StateInv State.reset

/-- Every step keeps the invariant, from every state that meets it. -/
def Obligations.StepKeepsInvariant : Prop := ∀ s t, StateInv s → step s = .next t → StateInv t

/-- The machine stops only because a collaborator broke its contract (log 22, log 23): every other event in every state
has a next state. The model's choice where the spec assumes nothing. -/
def Obligations.OnlyCollaboratorsCanStopTheMachine : Prop :=
  ∀ e s,
    (∃ t, takeEvent e s = .next t) ∨
      (∃ samples, e = .captureDone samples ∧ s.orch = .listening ∧ samples.length ≠ s.cfgFs * s.cfgCapdur ∧
        takeEvent e s = .fault .captureLength) ∨
      ((e = .playbackDone ∨ e = .playbackFailed) ∧ s.orch ≠ .sending .playing ∧
        takeEvent e s = .refused (.unsolicitedAnswer .playback)) ∨
      ((e = .captureFailed ∨ ∃ samples, e = .captureDone samples) ∧ s.orch ≠ .listening ∧
        takeEvent e s = .refused (.unsolicitedAnswer .capture))

/-! ## The session layer (spec/44_session.md) -/

/-- R130: the transitions of `ORCH`, other than by reset, are the rows of the table and their conditions.
A session whose load was refused goes on to `Idle` as rejected: the model's choice (log 20, log 21). -/
def Obligations.OrchTransitions : Prop :=
  ∀ e s t, StateInv s → e ≠ .reset → takeEvent e s = .next t →
    t.orch.name = s.orch.name ∨
      (s.orch.name = .Idle ∧ t.orch.name = .Sending ∧
        ∃ text, e = .send text ∧ text ≠ [] ∧ ∃ c ∈ text, c ∉ s.params.whiteSpace) ∨
      (s.orch.name = .Sending ∧ t.orch.name = .Idle ∧
        ((e = .playbackDone ∧ s.orch = .sending .playing ∧ statusErr t.status = 0#4 ∧ t.log = s.log) ∨
          (e = .quiet ∧ s.orch = .sending .unloaded ∧ statusErr t.status = statusErr s.status ∧
            t.log = s.log ++ [.rejected]) ∨
          SessionFails e s t)) ∨
      (s.orch.name = .Idle ∧ t.orch.name = .Listening ∧ e = .recv) ∨
      (s.orch.name = .Listening ∧ t.orch.name = .Decoding ∧
        ∃ samples, e = .captureDone samples ∧ samples.length = s.cfgFs * s.cfgCapdur ∧
          (Fits s.params.waveCap samples.length → t.mem.wave = samples ∧ t.orch = .decoding .demodulate) ∧
          (¬ Fits s.params.waveCap samples.length → t.mem = s.mem ∧ t.orch = .decoding .unloaded)) ∨
      (s.orch.name = .Listening ∧ t.orch.name = .Idle ∧ e = .captureFailed ∧ SessionFails e s t) ∨
      (s.orch.name = .Decoding ∧ t.orch.name = .Idle ∧ e = .quiet ∧
        ((s.orch = .decoding .conclude ∧ statusValid s.status = true ∧ s.mem.text ≠ [] ∧
            t.delivered = s.delivered ++ [s.mem.text] ∧ t.log = s.log) ∨
          (s.orch = .decoding .conclude ∧ ¬ (statusValid s.status = true ∧ s.mem.text ≠ []) ∧
            t.delivered = s.delivered ∧ t.log = s.log ++ [.rejected]) ∨
          (s.orch = .decoding .unloaded ∧ statusErr t.status = statusErr s.status ∧ t.delivered = s.delivered ∧
            t.log = s.log ++ [.rejected]) ∨
          SessionFails e s t))

/-- R137: an empty or whitespace-only send changes no state at all; the default white space. -/
def Obligations.EmptySendIsSkipped : Prop :=
  (∀ (s : State) (text : List Nat), s.params.hasSessionLayer = true → statusBusy s.status = false →
    (∀ c ∈ text, c ∈ s.params.whiteSpace) → takeEvent (.send text) s = .next s) ∧
    ∀ c, c ∈ Params.default.whiteSpace ↔ (9 ≤ c ∧ c ≤ 13) ∨ c = 32

/-- R131: a send from its request to its end. The steps between the request and the playback are taken with no event
arriving (log 13); the playback is called once, with the whole waveform and `CFG_FS`, after `ENC` and `MOD`; the
first failing step ends the session with its code and one log entry. A session whose text is longer than `TEXT` ends as
rejected with nothing else changed, and of a code point that fits no cell `TEXT` holds a value that is not said: the model's choices (log 20). -/
def Obligations.SendSession : Prop :=
  ∀ (s : State) (text : List Nat), StateInv s → s.orch = .idle → s.params.hasSessionLayer = true →
    (∃ c ∈ text, c ∉ s.params.whiteSpace) →
    (¬ Fits s.params.textCap text.length →
      (∃ t, takeEvent (.send text) s = .next t ∧ t.orch.name = .Sending ∧ statusBusy t.status = true ∧ t.mem = s.mem) ∧
      steps 2 { s with inbox := [.send text, .quiet] } =
        .next { s with log := s.log ++ [.rejected], reply := .nothing, inbox := [] }) ∧
    (Fits s.params.textCap text.length →
      ((∀ c ∈ text, c ≤ 255) → ConfigLegal s → Fits s.params.bitsCap (8 * text.length) →
        Fits s.params.waveCap (8 * text.length * spb s) →
          ∃ u, u.mem = { s.mem with text := text, bits := encodeText text, wave := u.mem.wave } ∧
            u.mem.wave = modulate u ∧
            u = { s with
              mem := u.mem, status := u.status, cause := none, orch := .sending .playing, reply := .nothing, inbox := []
              playbackCalls := s.playbackCalls ++ [{ samples := u.mem.wave, rate := s.cfgFs }] } ∧
            steps 4 { s with inbox := [.send text, .quiet, .quiet, .quiet] } = .next u ∧
            (∃ t, takeEvent .playbackDone u = .next t ∧ SessionEnded 0#4 t ∧
              t = { u with status := t.status, cause := none, orch := .idle } ∧
              statusValid t.status = statusValid s.status ∧ statusRej t.status = statusRej s.status) ∧
            ∃ t, takeEvent .playbackFailed u = .next t ∧ SessionEnded 3#4 t ∧
              t = { u with
                status := t.status, cause := some (.audio .playback), orch := .idle, log := s.log ++ [.error 3#4] }) ∧
      ((∃ c ∈ text, 255 < c) →
        ∃ t, steps 2 { s with inbox := [.send text, .quiet] } = .next t ∧ SessionEnded 1#4 t ∧
          t.log = s.log ++ [.error 1#4] ∧ t.playbackCalls = s.playbackCalls ∧
          t.mem = { s.mem with text := t.mem.text, bits := [] } ∧ t.mem.text.length = text.length ∧
          (∀ (i c : Nat), text[i]? = some c → c < 2 ^ s.params.charW → t.mem.text[i]? = some c) ∧
          ∀ (i c : Nat), text[i]? = some c → 255 < c → (∀ d ∈ text.take i, d ≤ 255) → t.cause = some (.encoding i)) ∧
      ((∀ c ∈ text, c ≤ 255) → ¬ Fits s.params.bitsCap (8 * text.length) →
        ∃ t, steps 2 { s with inbox := [.send text, .quiet] } = .next t ∧ SessionEnded 6#4 t ∧
          t.log = s.log ++ [.error 6#4] ∧ t.playbackCalls = s.playbackCalls ∧
          t.mem = { s.mem with text := text, bits := [] }) ∧
      ((∀ c ∈ text, c ≤ 255) → Fits s.params.bitsCap (8 * text.length) → ¬ ConfigLegal s →
        ∃ t, steps 3 { s with inbox := [.send text, .quiet, .quiet] } = .next t ∧ SessionEnded 4#4 t ∧
          t.log = s.log ++ [.error 4#4] ∧ t.playbackCalls = s.playbackCalls ∧
          t.mem = { text := text, bits := encodeText text, wave := [] }) ∧
      ((∀ c ∈ text, c ≤ 255) → Fits s.params.bitsCap (8 * text.length) → ConfigLegal s →
        ¬ Fits s.params.waveCap (8 * text.length * spb s) →
          ∃ t, steps 3 { s with inbox := [.send text, .quiet, .quiet] } = .next t ∧ SessionEnded 6#4 t ∧
            t.log = s.log ++ [.error 6#4] ∧ t.playbackCalls = s.playbackCalls ∧
            t.mem = { text := text, bits := encodeText text, wave := [] }))

/-- R132, R133, R169: a receive from its request to its end. The capture is asked for one channel of `CFG_CAPDUR`
seconds at `CFG_FS`; the captured samples, whatever they are, are demodulated, decoded and validated; the text is
delivered whole if it is valid and not empty, else `rejected` is logged and `ERR` stays `OK`; a failing step ends the
session with its code and one log entry. A session whose capture does not fit `WAVE` ends as rejected with nothing else
changed, the model's choice (log 21). -/
def Obligations.RecvSession : Prop :=
  ∀ s : State, StateInv s → s.orch = .idle → s.params.hasSessionLayer = true →
    (∃ t, takeEvent .recv s = .next t ∧ t.orch = .listening ∧ statusBusy t.status = true ∧ t.mem = s.mem ∧
      t.captureCalls = s.captureCalls ++
        [{ rate := s.cfgFs, channels := 1, duration := s.cfgCapdur, format := .floatingPoint }]) ∧
    (∃ t, steps 2 { s with inbox := [.recv, .captureFailed] } = .next t ∧ SessionEnded 3#4 t ∧
      t.log = s.log ++ [.error 3#4] ∧ t.delivered = s.delivered ∧ t.mem = s.mem) ∧
    (∀ samples : List Sample, samples.length = s.cfgFs * s.cfgCapdur → ¬ Fits s.params.waveCap samples.length →
      (∃ t, steps 2 { s with inbox := [.recv, .captureDone samples] } = .next t ∧ t.orch.name = .Decoding ∧
        statusBusy t.status = true ∧ t.mem = s.mem) ∧
      steps 3 { s with inbox := [.recv, .captureDone samples, .quiet] } =
        .next { s with
          log := s.log ++ [.rejected], reply := .nothing, inbox := []
          captureCalls := s.captureCalls ++
            [{ rate := s.cfgFs, channels := 1, duration := s.cfgCapdur, format := .floatingPoint }] }) ∧
    ∀ (samples : List Sample) (bits : List Bit), samples.length = s.cfgFs * s.cfgCapdur →
    Fits s.params.waveCap samples.length → bits = demodulate { s with mem := { s.mem with wave := samples } } →
      (ConfigLegal s → bits.length = s.cfgBaud * s.cfgCapdur) ∧
      (ConfigLegal s → Fits s.params.bitsCap bits.length → bits.length % 8 = 0 →
        Fits s.params.textCap (bits.length / 8) →
          ∃ t, steps 6
              { s with inbox := [.recv, .captureDone samples, .quiet, .quiet, .quiet, .quiet] } = .next t ∧
            SessionEnded 0#4 t ∧ t.mem = { text := decodeBits bits, bits := bits, wave := samples } ∧
            t = { s with
              mem := t.mem, status := t.status, cause := none, delivered := t.delivered, log := t.log, reply := .nothing
              inbox := []
              captureCalls := s.captureCalls ++
                [{ rate := s.cfgFs, channels := 1, duration := s.cfgCapdur, format := .floatingPoint }] } ∧
            (statusValid t.status = true ↔ ∀ c ∈ t.mem.text, 32 ≤ c ∧ c ≤ 126) ∧
            (statusValid t.status = true ∧ t.mem.text ≠ [] →
              t.delivered = s.delivered ++ [t.mem.text] ∧ t.log = s.log) ∧
            (¬ (statusValid t.status = true ∧ t.mem.text ≠ []) →
              t.delivered = s.delivered ∧ t.log = s.log ++ [.rejected])) ∧
      (¬ ConfigLegal s →
        ∃ t, steps 3 { s with inbox := [.recv, .captureDone samples, .quiet] } = .next t ∧
          SessionEnded 4#4 t ∧ t.log = s.log ++ [.error 4#4] ∧ t.delivered = s.delivered ∧
          t.mem = { s.mem with bits := [], wave := samples }) ∧
      (ConfigLegal s → ¬ Fits s.params.bitsCap bits.length →
        ∃ t, steps 3 { s with inbox := [.recv, .captureDone samples, .quiet] } = .next t ∧
          SessionEnded 6#4 t ∧ t.log = s.log ++ [.error 6#4] ∧ t.delivered = s.delivered ∧
          t.mem = { s.mem with bits := [], wave := samples }) ∧
      (ConfigLegal s → Fits s.params.bitsCap bits.length → bits.length % 8 ≠ 0 →
        ∃ t, steps 4 { s with inbox := [.recv, .captureDone samples, .quiet, .quiet] } = .next t ∧
          SessionEnded 2#4 t ∧ t.log = s.log ++ [.error 2#4] ∧ t.delivered = s.delivered ∧
          t.mem = { text := [], bits := bits, wave := samples }) ∧
      (ConfigLegal s → Fits s.params.bitsCap bits.length → bits.length % 8 = 0 →
        ¬ Fits s.params.textCap (bits.length / 8) →
          ∃ t, steps 4 { s with inbox := [.recv, .captureDone samples, .quiet, .quiet] } = .next t ∧
            SessionEnded 6#4 t ∧ t.log = s.log ++ [.error 6#4] ∧ t.delivered = s.delivered ∧
            t.mem = { text := [], bits := bits, wave := samples })

/-- R139: at the default rate, baud rate and capture duration a receive ends in `E_MALFORMED`, whatever was captured. -/
def Obligations.RecvAtDefaultsIsMalformed : Prop :=
  ∀ (s : State) (samples : List Sample), StateInv s → s.orch = .idle → s.params.hasSessionLayer = true →
    s.cfgFs = 44100 → s.cfgBaud = 300 → s.cfgCapdur = 5 → s.cfgF1 ≠ s.cfgF2 → samples.length = 220500 →
    Fits s.params.waveCap 220500 → Fits s.params.bitsCap 1500 →
      ∃ t u, steps 3 { s with inbox := [.recv, .captureDone samples, .quiet] } = .next t ∧
        t.mem.bits.length = 1500 ∧ takeEvent .quiet t = .next u ∧ SessionEnded 2#4 u ∧
        u.log = s.log ++ [.error 2#4] ∧ u.delivered = s.delivered

/-- R153: a failure of an audio collaborator ends the session with `E_AUDIO` and one log entry; no block command raises
`E_AUDIO`. -/
def Obligations.AudioFailureIsFatal : Prop :=
  (∀ s : State, s.orch = .sending .playing →
    ∃ t, takeEvent .playbackFailed s = .next t ∧ SessionEnded 3#4 t ∧ t.log = s.log ++ [.error 3#4] ∧
      t.playbackCalls = s.playbackCalls ∧ t.mem = s.mem) ∧
    (∀ s : State, s.orch = .listening →
      ∃ t, takeEvent .captureFailed s = .next t ∧ SessionEnded 3#4 t ∧ t.log = s.log ++ [.error 3#4] ∧
        t.captureCalls = s.captureCalls ∧ t.mem = s.mem) ∧
    ∀ i s t, exec i s = .next t → statusErr t.status ≠ 3#4

/-- R134, R136, R164: while a session is in flight no request of the host or the UI does anything but set `REJ`; and
waiting for a collaborator, the orchestrator does not move, so that only the collaborator's answer (or reset) ends the
wait. -/
def Obligations.NoRequestDisturbsASession : Prop :=
  (∀ e s, statusBusy s.status = true → e.isRequest = true →
    ∃ t, takeEvent e s = .next t ∧ t = { s with status := t.status, reply := t.reply } ∧
      statusErr t.status = statusErr s.status ∧ statusValid t.status = statusValid s.status ∧
      statusBusy t.status = true) ∧
    ∀ s : State, s.orch = .sending .playing ∨ s.orch = .listening → takeEvent .quiet s = .next s

/-- R164, R165, R166, R170: the output streams only grow, one entry at a time, and only by their own rules: a delivery
is whole, valid and not empty, and ends the session; a log entry is `rejected` at the end of a decoding or of a session whose load was refused (log 20, log 21), or the code of the failure that ends a session, so
a host's command logs nothing;
playback is called with the whole waveform and `CFG_FS`. -/
def Obligations.OutputsOnlyGrow : Prop :=
  ∀ e s t, StateInv s → e ≠ .reset → takeEvent e s = .next t →
    (t.delivered = s.delivered ∨
      ∃ text, t.delivered = s.delivered ++ [text] ∧ text = s.mem.text ∧ text ≠ [] ∧
        (∀ c ∈ text, 32 ≤ c ∧ c ≤ 126) ∧ s.orch = .decoding .conclude ∧ t.orch = .idle) ∧
    (t.log = s.log ∨
      ∃ entry, t.log = s.log ++ [entry] ∧ s.orch ≠ .idle ∧ t.orch = .idle ∧
        ((entry = .rejected ∧ e = .quiet ∧ (s.orch = .decoding .conclude ∨ isUnloaded s.orch = true)) ∨
          (entry = .error (statusErr t.status) ∧ SessionFails e s t))) ∧
    (t.playbackCalls = s.playbackCalls ∨
      (t.playbackCalls = s.playbackCalls ++ [{ samples := s.mem.wave, rate := s.cfgFs }] ∧ s.orch = .sending .call ∧
        t.orch = .sending .playing)) ∧
    (t.captureCalls = s.captureCalls ∨
      (t.captureCalls = s.captureCalls ++
          [{ rate := s.cfgFs, channels := 1, duration := s.cfgCapdur, format := .floatingPoint }] ∧
        e = .recv ∧ t.orch = .listening))

/-- R35, R131, R132: a session uses nothing of an earlier one. Whatever the buffers hold when it is requested, everything
but the buffers is the same after it: the outcome, the calls, the log and what is delivered. -/
def Obligations.SessionsUseNothingOfAnEarlierOne : Prop :=
  ∀ (s : State) (mem : Memory), s.orch = .idle →
    (∀ text t t', steps 4 { s with inbox := [.send text, .quiet, .quiet, .quiet] } = .next t →
      steps 4 { s with mem := mem, inbox := [.send text, .quiet, .quiet, .quiet] } = .next t' →
        t = { t' with mem := t.mem }) ∧
    ∀ samples t t',
      steps 6 { s with inbox := [.recv, .captureDone samples, .quiet, .quiet, .quiet, .quiet] } = .next t →
      steps 6 { s with mem := mem, inbox := [.recv, .captureDone samples, .quiet, .quiet, .quiet, .quiet] } = .next t' →
        t = { t' with mem := t.mem }

/-! ## The datapath refinements (spec/10_state.md R36) -/

/-- R94: eight shifts per character of the parallel-load shift register put out what `ENC` does. -/
def Obligations.ShiftOutComputesEnc : Prop :=
  ∀ s t, exec .enc s = .next t → statusErr t.status = 0#4 →
    (encShifts s.mem.text (8 * s.mem.text.length)).out = t.mem.bits ∧
      (encShifts s.mem.text (8 * s.mem.text.length)).bitcnt = 0#3 ∧
      (encShifts s.mem.text (8 * s.mem.text.length)).index = s.mem.text.length

/-- R95: the serial-in shift register puts out what `DEC` does, and `BITCNT ≠ 0` at the end is the malformed
condition. -/
def Obligations.ShiftInComputesDec : Prop :=
  ∀ s t, exec .dec s = .next t →
    ((decShifts s.mem.bits).bitcnt ≠ 0#3 ↔ statusErr t.status = 2#4) ∧
      (statusErr t.status = 0#4 → (decShifts s.mem.bits).out = t.mem.text)

/-- R105: the sample counter, and as well the phase accumulator that is cleared at every bit boundary, put out what
`MOD` does. -/
def Obligations.SampleCounterComputesMod : Prop :=
  ∀ s t, exec .mod s = .next t → statusErr t.status = 0#4 →
    (modTicks s (s.mem.bits.length * spb s)).counted = t.mem.wave ∧
      (modTicks s (s.mem.bits.length * spb s)).accumulated = t.mem.wave ∧
      (modTicks s (s.mem.bits.length * spb s)).sampcnt = 0 ∧ (modTicks s (s.mem.bits.length * spb s)).phase = 0

/-- R122: the windowed peak detector, scanning all bins of each window, puts out what `DEM` does. -/
def Obligations.WindowedPeakComputesDem : Prop :=
  ∀ s t, s.params.tie = .leastIndex → exec .dem s = .next t → statusErr t.status = 0#4 →
    (demTicks s).out = t.mem.bits ∧ (demTicks s).sampcnt = 0
end

