-- ==== Sys2Proof/Laws/Codec.lean ====
section
/-!
SUPPORT. The character code of spec/30_encoding.md R74 and the sizes of what the commands put out.
-/

namespace Sys2Proof.Laws

open Sys2Proof.Machine

/-! ## The character code -/

@[simp] theorem charBits_length (c : Nat) : (charBits c).length = 8 := by simp [charBits]

theorem charBits_getElem? (c : Nat) {j : Nat} (hj : j < 8) : (charBits c)[j]? = some (c.testBit (7 - j)) := by
  simp [charBits, hj]

theorem groupValue_cons8 (a b c d e f g h : Bit) :
    groupValue [a, b, c, d, e, f, g, h] =
      a.toNat * 128 + b.toNat * 64 + c.toNat * 32 + d.toNat * 16 + e.toNat * 8 + f.toNat * 4 + g.toNat * 2 + h.toNat := by
  revert a b c d e f g h; decide

/-- The code is a bijection: a group's code point is below 256 and its bits are the group. -/
theorem groupValue_lt (g : List Bit) : groupValue g < 256 := by
  have h (j : Nat) : (g.getD j false).toNat ≤ 1 := Bool.toNat_le _
  have := h 0; have := h 1; have := h 2; have := h 3; have := h 4; have := h 5; have := h 6; have := h 7
  have e : groupValue g = (g.getD 0 false).toNat * 2 ^ 7 + ((g.getD 1 false).toNat * 2 ^ 6 + ((g.getD 2 false).toNat * 2 ^ 5 +
      ((g.getD 3 false).toNat * 2 ^ 4 + ((g.getD 4 false).toNat * 2 ^ 3 + ((g.getD 5 false).toNat * 2 ^ 2 +
      ((g.getD 6 false).toNat * 2 ^ 1 + ((g.getD 7 false).toNat * 2 ^ 0 + 0))))))) := rfl
  omega

theorem groupValue_charBits {c : Nat} (hc : c < 256) : groupValue (charBits c) = c := by
  have : ∀ c : Fin 256, groupValue (charBits c) = c := by decide +kernel
  exact this ⟨c, hc⟩

theorem charBits_groupValue {g : List Bit} (hg : g.length = 8) : charBits (groupValue g) = g := by
  match g, hg with
  | [a, b, c, d, e, f, g, h], _ => revert a b c d e f g h; decide

/-! ## Sizes -/

@[simp] theorem encodeText_length (text : List Nat) : (encodeText text).length = 8 * text.length := by
  simp [encodeText, List.length_flatMap, Nat.mul_comm]

theorem encodeText_append (t u : List Nat) : encodeText (t ++ u) = encodeText t ++ encodeText u := by
  simp [encodeText]

@[simp] theorem decodeBits_length (bits : List Bit) : (decodeBits bits).length = bits.length / 8 := by
  simp [decodeBits]

/-- Every decoded character is a code point of the 8-bit code. -/
theorem decodeBits_lt {bits : List Bit} {c : Nat} (hc : c ∈ decodeBits bits) : c < 256 := by
  obtain ⟨i, -, rfl⟩ := List.mem_map.1 hc
  exact groupValue_lt _

@[simp] theorem bitSegment_length (s : State) (b : Bit) : (bitSegment s b).length = spb s := by simp [bitSegment]

@[simp] theorem modulate_length (s : State) : (modulate s).length = s.mem.bits.length * spb s := by
  simp [modulate, List.length_flatMap]

@[simp] theorem demodulate_length (s : State) : (demodulate s).length = windowCount s := by simp [demodulate]

/-! ## Faults of the input -/

theorem firstUnencodable_eq_none_iff (i : Nat) (text : List Nat) :
    firstUnencodable i text = none ↔ ∀ c ∈ text, c ≤ 255 := by
  induction text generalizing i with
  | nil => simp [firstUnencodable]
  | cons c cs ih =>
    rw [firstUnencodable]
    split
    · simp; omega
    · rw [ih]; simp; omega

/-- The index reported is the least one of a character without a code (R158). -/
theorem firstUnencodable_eq_some (i k : Nat) (text : List Nat) (h : firstUnencodable i text = some k) :
    ∃ n c, k = i + n ∧ text[n]? = some c ∧ 255 < c ∧ ∀ d ∈ text.take n, d ≤ 255 := by
  induction text generalizing i with
  | nil => simp [firstUnencodable] at h
  | cons c cs ih =>
    rw [firstUnencodable] at h
    split at h
    · exact ⟨0, c, by simpa using h.symm, rfl, ‹_›, by simp⟩
    · obtain ⟨n, d, rfl, hn, hd, hlt⟩ := ih _ h
      refine ⟨n + 1, d, by omega, hn, hd, ?_⟩
      simpa using ⟨by omega, hlt⟩

end Sys2Proof.Laws
end

