-- ==== Sys2Proof/Laws/State.lean ====
section
/-!
SUPPORT. What each update of State leaves in each field, so that no later proof unfolds a record update; and what a
field of `STATUS` reads after a write of it.
-/

namespace Sys2Proof.Laws

open Sys2Proof.Machine

/-! ## `STATUS` -/

section
variable (e : BitVec 4) (r v b : Bool)

@[simp] theorem statusBusy_pack : statusBusy (packStatus e r v b) = b := by
  revert e r v b; decide

@[simp] theorem statusValid_pack : statusValid (packStatus e r v b) = v := by
  revert e r v b; decide

@[simp] theorem statusRej_pack : statusRej (packStatus e r v b) = r := by
  revert e r v b; decide

@[simp] theorem statusErr_pack : statusErr (packStatus e r v b) = e := by
  revert e r v b; decide

@[simp] theorem statusReserved_pack_getElem : (packStatus e r v b)[3] = false := by
  revert e r v b; decide

@[simp] theorem statusReserved_pack : (packStatus e r v b).getLsbD 3 = false := by
  revert e r v b; decide

end

/-- A status word whose reserved bit is 0 is the packing of its fields. -/
theorem packStatus_fields (st : Byte) (h : st.getLsbD 3 = false) :
    packStatus (statusErr st) (statusRej st) (statusValid st) (statusBusy st) = st := by
  revert st; decide

/-! ## Updates of one field -/

@[simp] theorem setBusy_cfgFs (b : Bool) (s : State) : (setBusy b s).cfgFs = s.cfgFs := rfl
@[simp] theorem setBusy_cfgBaud (b : Bool) (s : State) : (setBusy b s).cfgBaud = s.cfgBaud := rfl
@[simp] theorem setBusy_cfgF1 (b : Bool) (s : State) : (setBusy b s).cfgF1 = s.cfgF1 := rfl
@[simp] theorem setBusy_cfgF2 (b : Bool) (s : State) : (setBusy b s).cfgF2 = s.cfgF2 := rfl
@[simp] theorem setBusy_cfgCapdur (b : Bool) (s : State) : (setBusy b s).cfgCapdur = s.cfgCapdur := rfl
@[simp] theorem setBusy_status (b : Bool) (s : State) :
    (setBusy b s).status = packStatus (statusErr s.status) (statusRej s.status) (statusValid s.status) b := rfl
@[simp] theorem setBusy_mem (b : Bool) (s : State) : (setBusy b s).mem = s.mem := rfl
@[simp] theorem setBusy_orch (b : Bool) (s : State) : (setBusy b s).orch = s.orch := rfl
@[simp] theorem setBusy_delivered (b : Bool) (s : State) : (setBusy b s).delivered = s.delivered := rfl
@[simp] theorem setBusy_log (b : Bool) (s : State) : (setBusy b s).log = s.log := rfl
@[simp] theorem setBusy_playbackCalls (b : Bool) (s : State) : (setBusy b s).playbackCalls = s.playbackCalls := rfl
@[simp] theorem setBusy_captureCalls (b : Bool) (s : State) : (setBusy b s).captureCalls = s.captureCalls := rfl
@[simp] theorem setBusy_params (b : Bool) (s : State) : (setBusy b s).params = s.params := rfl
@[simp] theorem setBusy_cause (b : Bool) (s : State) : (setBusy b s).cause = s.cause := rfl
@[simp] theorem setBusy_reply (b : Bool) (s : State) : (setBusy b s).reply = s.reply := rfl
@[simp] theorem setBusy_inbox (b : Bool) (s : State) : (setBusy b s).inbox = s.inbox := rfl

@[simp] theorem setValid_cfgFs (v : Bool) (s : State) : (setValid v s).cfgFs = s.cfgFs := rfl
@[simp] theorem setValid_cfgBaud (v : Bool) (s : State) : (setValid v s).cfgBaud = s.cfgBaud := rfl
@[simp] theorem setValid_cfgF1 (v : Bool) (s : State) : (setValid v s).cfgF1 = s.cfgF1 := rfl
@[simp] theorem setValid_cfgF2 (v : Bool) (s : State) : (setValid v s).cfgF2 = s.cfgF2 := rfl
@[simp] theorem setValid_cfgCapdur (v : Bool) (s : State) : (setValid v s).cfgCapdur = s.cfgCapdur := rfl
@[simp] theorem setValid_status (v : Bool) (s : State) :
    (setValid v s).status = packStatus (statusErr s.status) (statusRej s.status) v (statusBusy s.status) := rfl
@[simp] theorem setValid_mem (v : Bool) (s : State) : (setValid v s).mem = s.mem := rfl
@[simp] theorem setValid_orch (v : Bool) (s : State) : (setValid v s).orch = s.orch := rfl
@[simp] theorem setValid_delivered (v : Bool) (s : State) : (setValid v s).delivered = s.delivered := rfl
@[simp] theorem setValid_log (v : Bool) (s : State) : (setValid v s).log = s.log := rfl
@[simp] theorem setValid_playbackCalls (v : Bool) (s : State) : (setValid v s).playbackCalls = s.playbackCalls := rfl
@[simp] theorem setValid_captureCalls (v : Bool) (s : State) : (setValid v s).captureCalls = s.captureCalls := rfl
@[simp] theorem setValid_params (v : Bool) (s : State) : (setValid v s).params = s.params := rfl
@[simp] theorem setValid_cause (v : Bool) (s : State) : (setValid v s).cause = s.cause := rfl
@[simp] theorem setValid_reply (v : Bool) (s : State) : (setValid v s).reply = s.reply := rfl
@[simp] theorem setValid_inbox (v : Bool) (s : State) : (setValid v s).inbox = s.inbox := rfl

@[simp] theorem setRej_cfgFs (r : Bool) (s : State) : (setRej r s).cfgFs = s.cfgFs := rfl
@[simp] theorem setRej_cfgBaud (r : Bool) (s : State) : (setRej r s).cfgBaud = s.cfgBaud := rfl
@[simp] theorem setRej_cfgF1 (r : Bool) (s : State) : (setRej r s).cfgF1 = s.cfgF1 := rfl
@[simp] theorem setRej_cfgF2 (r : Bool) (s : State) : (setRej r s).cfgF2 = s.cfgF2 := rfl
@[simp] theorem setRej_cfgCapdur (r : Bool) (s : State) : (setRej r s).cfgCapdur = s.cfgCapdur := rfl
@[simp] theorem setRej_status (r : Bool) (s : State) :
    (setRej r s).status = packStatus (statusErr s.status) r (statusValid s.status) (statusBusy s.status) := rfl
@[simp] theorem setRej_mem (r : Bool) (s : State) : (setRej r s).mem = s.mem := rfl
@[simp] theorem setRej_orch (r : Bool) (s : State) : (setRej r s).orch = s.orch := rfl
@[simp] theorem setRej_delivered (r : Bool) (s : State) : (setRej r s).delivered = s.delivered := rfl
@[simp] theorem setRej_log (r : Bool) (s : State) : (setRej r s).log = s.log := rfl
@[simp] theorem setRej_playbackCalls (r : Bool) (s : State) : (setRej r s).playbackCalls = s.playbackCalls := rfl
@[simp] theorem setRej_captureCalls (r : Bool) (s : State) : (setRej r s).captureCalls = s.captureCalls := rfl
@[simp] theorem setRej_params (r : Bool) (s : State) : (setRej r s).params = s.params := rfl
@[simp] theorem setRej_cause (r : Bool) (s : State) : (setRej r s).cause = s.cause := rfl
@[simp] theorem setRej_reply (r : Bool) (s : State) : (setRej r s).reply = s.reply := rfl
@[simp] theorem setRej_inbox (r : Bool) (s : State) : (setRej r s).inbox = s.inbox := rfl

@[simp] theorem setErr_cfgFs (e : Option Err) (s : State) : (setErr e s).cfgFs = s.cfgFs := rfl
@[simp] theorem setErr_cfgBaud (e : Option Err) (s : State) : (setErr e s).cfgBaud = s.cfgBaud := rfl
@[simp] theorem setErr_cfgF1 (e : Option Err) (s : State) : (setErr e s).cfgF1 = s.cfgF1 := rfl
@[simp] theorem setErr_cfgF2 (e : Option Err) (s : State) : (setErr e s).cfgF2 = s.cfgF2 := rfl
@[simp] theorem setErr_cfgCapdur (e : Option Err) (s : State) : (setErr e s).cfgCapdur = s.cfgCapdur := rfl
@[simp] theorem setErr_status (e : Option Err) (s : State) :
    (setErr e s).status = packStatus (errCode e) (statusRej s.status) (statusValid s.status) (statusBusy s.status) := rfl
@[simp] theorem setErr_mem (e : Option Err) (s : State) : (setErr e s).mem = s.mem := rfl
@[simp] theorem setErr_orch (e : Option Err) (s : State) : (setErr e s).orch = s.orch := rfl
@[simp] theorem setErr_delivered (e : Option Err) (s : State) : (setErr e s).delivered = s.delivered := rfl
@[simp] theorem setErr_log (e : Option Err) (s : State) : (setErr e s).log = s.log := rfl
@[simp] theorem setErr_playbackCalls (e : Option Err) (s : State) : (setErr e s).playbackCalls = s.playbackCalls := rfl
@[simp] theorem setErr_captureCalls (e : Option Err) (s : State) : (setErr e s).captureCalls = s.captureCalls := rfl
@[simp] theorem setErr_params (e : Option Err) (s : State) : (setErr e s).params = s.params := rfl
@[simp] theorem setErr_cause (e : Option Err) (s : State) :
    (setErr e s).cause = e := rfl
@[simp] theorem setErr_reply (e : Option Err) (s : State) : (setErr e s).reply = s.reply := rfl
@[simp] theorem setErr_inbox (e : Option Err) (s : State) : (setErr e s).inbox = s.inbox := rfl

@[simp] theorem writeText_cfgFs (c : List Nat) (s : State) : (writeText c s).cfgFs = s.cfgFs := rfl
@[simp] theorem writeText_cfgBaud (c : List Nat) (s : State) : (writeText c s).cfgBaud = s.cfgBaud := rfl
@[simp] theorem writeText_cfgF1 (c : List Nat) (s : State) : (writeText c s).cfgF1 = s.cfgF1 := rfl
@[simp] theorem writeText_cfgF2 (c : List Nat) (s : State) : (writeText c s).cfgF2 = s.cfgF2 := rfl
@[simp] theorem writeText_cfgCapdur (c : List Nat) (s : State) : (writeText c s).cfgCapdur = s.cfgCapdur := rfl
@[simp] theorem writeText_status (c : List Nat) (s : State) : (writeText c s).status = s.status := rfl
@[simp] theorem writeText_mem (c : List Nat) (s : State) :
    (writeText c s).mem = { s.mem with text := c } := rfl
@[simp] theorem writeText_orch (c : List Nat) (s : State) : (writeText c s).orch = s.orch := rfl
@[simp] theorem writeText_delivered (c : List Nat) (s : State) : (writeText c s).delivered = s.delivered := rfl
@[simp] theorem writeText_log (c : List Nat) (s : State) : (writeText c s).log = s.log := rfl
@[simp] theorem writeText_playbackCalls (c : List Nat) (s : State) : (writeText c s).playbackCalls = s.playbackCalls := rfl
@[simp] theorem writeText_captureCalls (c : List Nat) (s : State) : (writeText c s).captureCalls = s.captureCalls := rfl
@[simp] theorem writeText_params (c : List Nat) (s : State) : (writeText c s).params = s.params := rfl
@[simp] theorem writeText_cause (c : List Nat) (s : State) : (writeText c s).cause = s.cause := rfl
@[simp] theorem writeText_reply (c : List Nat) (s : State) : (writeText c s).reply = s.reply := rfl
@[simp] theorem writeText_inbox (c : List Nat) (s : State) : (writeText c s).inbox = s.inbox := rfl

@[simp] theorem writeBits_cfgFs (c : List Bit) (s : State) : (writeBits c s).cfgFs = s.cfgFs := rfl
@[simp] theorem writeBits_cfgBaud (c : List Bit) (s : State) : (writeBits c s).cfgBaud = s.cfgBaud := rfl
@[simp] theorem writeBits_cfgF1 (c : List Bit) (s : State) : (writeBits c s).cfgF1 = s.cfgF1 := rfl
@[simp] theorem writeBits_cfgF2 (c : List Bit) (s : State) : (writeBits c s).cfgF2 = s.cfgF2 := rfl
@[simp] theorem writeBits_cfgCapdur (c : List Bit) (s : State) : (writeBits c s).cfgCapdur = s.cfgCapdur := rfl
@[simp] theorem writeBits_status (c : List Bit) (s : State) : (writeBits c s).status = s.status := rfl
@[simp] theorem writeBits_mem (c : List Bit) (s : State) :
    (writeBits c s).mem = { s.mem with bits := c } := rfl
@[simp] theorem writeBits_orch (c : List Bit) (s : State) : (writeBits c s).orch = s.orch := rfl
@[simp] theorem writeBits_delivered (c : List Bit) (s : State) : (writeBits c s).delivered = s.delivered := rfl
@[simp] theorem writeBits_log (c : List Bit) (s : State) : (writeBits c s).log = s.log := rfl
@[simp] theorem writeBits_playbackCalls (c : List Bit) (s : State) : (writeBits c s).playbackCalls = s.playbackCalls := rfl
@[simp] theorem writeBits_captureCalls (c : List Bit) (s : State) : (writeBits c s).captureCalls = s.captureCalls := rfl
@[simp] theorem writeBits_params (c : List Bit) (s : State) : (writeBits c s).params = s.params := rfl
@[simp] theorem writeBits_cause (c : List Bit) (s : State) : (writeBits c s).cause = s.cause := rfl
@[simp] theorem writeBits_reply (c : List Bit) (s : State) : (writeBits c s).reply = s.reply := rfl
@[simp] theorem writeBits_inbox (c : List Bit) (s : State) : (writeBits c s).inbox = s.inbox := rfl

@[simp] theorem writeWave_cfgFs (c : List Sample) (s : State) : (writeWave c s).cfgFs = s.cfgFs := rfl
@[simp] theorem writeWave_cfgBaud (c : List Sample) (s : State) : (writeWave c s).cfgBaud = s.cfgBaud := rfl
@[simp] theorem writeWave_cfgF1 (c : List Sample) (s : State) : (writeWave c s).cfgF1 = s.cfgF1 := rfl
@[simp] theorem writeWave_cfgF2 (c : List Sample) (s : State) : (writeWave c s).cfgF2 = s.cfgF2 := rfl
@[simp] theorem writeWave_cfgCapdur (c : List Sample) (s : State) : (writeWave c s).cfgCapdur = s.cfgCapdur := rfl
@[simp] theorem writeWave_status (c : List Sample) (s : State) : (writeWave c s).status = s.status := rfl
@[simp] theorem writeWave_mem (c : List Sample) (s : State) :
    (writeWave c s).mem = { s.mem with wave := c } := rfl
@[simp] theorem writeWave_orch (c : List Sample) (s : State) : (writeWave c s).orch = s.orch := rfl
@[simp] theorem writeWave_delivered (c : List Sample) (s : State) : (writeWave c s).delivered = s.delivered := rfl
@[simp] theorem writeWave_log (c : List Sample) (s : State) : (writeWave c s).log = s.log := rfl
@[simp] theorem writeWave_playbackCalls (c : List Sample) (s : State) : (writeWave c s).playbackCalls = s.playbackCalls := rfl
@[simp] theorem writeWave_captureCalls (c : List Sample) (s : State) : (writeWave c s).captureCalls = s.captureCalls := rfl
@[simp] theorem writeWave_params (c : List Sample) (s : State) : (writeWave c s).params = s.params := rfl
@[simp] theorem writeWave_cause (c : List Sample) (s : State) : (writeWave c s).cause = s.cause := rfl
@[simp] theorem writeWave_reply (c : List Sample) (s : State) : (writeWave c s).reply = s.reply := rfl
@[simp] theorem writeWave_inbox (c : List Sample) (s : State) : (writeWave c s).inbox = s.inbox := rfl

@[simp] theorem answer_cfgFs (a : Reply) (s : State) : (answer a s).cfgFs = s.cfgFs := rfl
@[simp] theorem answer_cfgBaud (a : Reply) (s : State) : (answer a s).cfgBaud = s.cfgBaud := rfl
@[simp] theorem answer_cfgF1 (a : Reply) (s : State) : (answer a s).cfgF1 = s.cfgF1 := rfl
@[simp] theorem answer_cfgF2 (a : Reply) (s : State) : (answer a s).cfgF2 = s.cfgF2 := rfl
@[simp] theorem answer_cfgCapdur (a : Reply) (s : State) : (answer a s).cfgCapdur = s.cfgCapdur := rfl
@[simp] theorem answer_status (a : Reply) (s : State) : (answer a s).status = s.status := rfl
@[simp] theorem answer_mem (a : Reply) (s : State) : (answer a s).mem = s.mem := rfl
@[simp] theorem answer_orch (a : Reply) (s : State) : (answer a s).orch = s.orch := rfl
@[simp] theorem answer_delivered (a : Reply) (s : State) : (answer a s).delivered = s.delivered := rfl
@[simp] theorem answer_log (a : Reply) (s : State) : (answer a s).log = s.log := rfl
@[simp] theorem answer_playbackCalls (a : Reply) (s : State) : (answer a s).playbackCalls = s.playbackCalls := rfl
@[simp] theorem answer_captureCalls (a : Reply) (s : State) : (answer a s).captureCalls = s.captureCalls := rfl
@[simp] theorem answer_params (a : Reply) (s : State) : (answer a s).params = s.params := rfl
@[simp] theorem answer_cause (a : Reply) (s : State) : (answer a s).cause = s.cause := rfl
@[simp] theorem answer_reply (a : Reply) (s : State) :
    (answer a s).reply = a := rfl
@[simp] theorem answer_inbox (a : Reply) (s : State) : (answer a s).inbox = s.inbox := rfl

@[simp] theorem received_cfgFs (s : State) : (received s).cfgFs = s.cfgFs := rfl
@[simp] theorem received_cfgBaud (s : State) : (received s).cfgBaud = s.cfgBaud := rfl
@[simp] theorem received_cfgF1 (s : State) : (received s).cfgF1 = s.cfgF1 := rfl
@[simp] theorem received_cfgF2 (s : State) : (received s).cfgF2 = s.cfgF2 := rfl
@[simp] theorem received_cfgCapdur (s : State) : (received s).cfgCapdur = s.cfgCapdur := rfl
@[simp] theorem received_status (s : State) : (received s).status = s.status := rfl
@[simp] theorem received_mem (s : State) : (received s).mem = s.mem := rfl
@[simp] theorem received_orch (s : State) : (received s).orch = s.orch := rfl
@[simp] theorem received_delivered (s : State) : (received s).delivered = s.delivered := rfl
@[simp] theorem received_log (s : State) : (received s).log = s.log := rfl
@[simp] theorem received_playbackCalls (s : State) : (received s).playbackCalls = s.playbackCalls := rfl
@[simp] theorem received_captureCalls (s : State) : (received s).captureCalls = s.captureCalls := rfl
@[simp] theorem received_params (s : State) : (received s).params = s.params := rfl
@[simp] theorem received_cause (s : State) : (received s).cause = s.cause := rfl
@[simp] theorem received_reply (s : State) :
    (received s).reply = .nothing := rfl
@[simp] theorem received_inbox (s : State) :
    (received s).inbox = s.inbox.tail := rfl

/-! ## Clearing a buffer -/

@[simp] theorem clearBuffer_cfgFs (o : Space) (s : State) : (clearBuffer o s).cfgFs = s.cfgFs := by cases o <;> rfl
@[simp] theorem clearBuffer_cfgBaud (o : Space) (s : State) : (clearBuffer o s).cfgBaud = s.cfgBaud := by cases o <;> rfl
@[simp] theorem clearBuffer_cfgF1 (o : Space) (s : State) : (clearBuffer o s).cfgF1 = s.cfgF1 := by cases o <;> rfl
@[simp] theorem clearBuffer_cfgF2 (o : Space) (s : State) : (clearBuffer o s).cfgF2 = s.cfgF2 := by cases o <;> rfl
@[simp] theorem clearBuffer_cfgCapdur (o : Space) (s : State) : (clearBuffer o s).cfgCapdur = s.cfgCapdur := by cases o <;> rfl
@[simp] theorem clearBuffer_status (o : Space) (s : State) : (clearBuffer o s).status = s.status := by cases o <;> rfl
@[simp] theorem clearBuffer_orch (o : Space) (s : State) : (clearBuffer o s).orch = s.orch := by cases o <;> rfl
@[simp] theorem clearBuffer_delivered (o : Space) (s : State) : (clearBuffer o s).delivered = s.delivered := by cases o <;> rfl
@[simp] theorem clearBuffer_log (o : Space) (s : State) : (clearBuffer o s).log = s.log := by cases o <;> rfl
@[simp] theorem clearBuffer_playbackCalls (o : Space) (s : State) : (clearBuffer o s).playbackCalls = s.playbackCalls := by cases o <;> rfl
@[simp] theorem clearBuffer_captureCalls (o : Space) (s : State) : (clearBuffer o s).captureCalls = s.captureCalls := by cases o <;> rfl
@[simp] theorem clearBuffer_params (o : Space) (s : State) : (clearBuffer o s).params = s.params := by cases o <;> rfl
@[simp] theorem clearBuffer_cause (o : Space) (s : State) : (clearBuffer o s).cause = s.cause := by cases o <;> rfl
@[simp] theorem clearBuffer_reply (o : Space) (s : State) : (clearBuffer o s).reply = s.reply := by cases o <;> rfl
@[simp] theorem clearBuffer_inbox (o : Space) (s : State) : (clearBuffer o s).inbox = s.inbox := by cases o <;> rfl

@[simp] theorem clearBuffer_text_mem (s : State) : (clearBuffer .text s).mem = { s.mem with text := [] } := rfl
@[simp] theorem clearBuffer_bits_mem (s : State) : (clearBuffer .bits s).mem = { s.mem with bits := [] } := rfl
@[simp] theorem clearBuffer_wave_mem (s : State) : (clearBuffer .wave s).mem = { s.mem with wave := [] } := rfl

/-! ## The ends of a command -/

@[simp] theorem complete_cfgFs (s : State) : (complete s).cfgFs = s.cfgFs := rfl
@[simp] theorem complete_cfgBaud (s : State) : (complete s).cfgBaud = s.cfgBaud := rfl
@[simp] theorem complete_cfgF1 (s : State) : (complete s).cfgF1 = s.cfgF1 := rfl
@[simp] theorem complete_cfgF2 (s : State) : (complete s).cfgF2 = s.cfgF2 := rfl
@[simp] theorem complete_cfgCapdur (s : State) : (complete s).cfgCapdur = s.cfgCapdur := rfl
@[simp] theorem complete_status (s : State) :
    (complete s).status = packStatus 0#4 (statusRej s.status) (statusValid s.status) false := by
  simp [complete, errCode]
@[simp] theorem complete_mem (s : State) : (complete s).mem = s.mem := rfl
@[simp] theorem complete_orch (s : State) : (complete s).orch = s.orch := rfl
@[simp] theorem complete_delivered (s : State) : (complete s).delivered = s.delivered := rfl
@[simp] theorem complete_log (s : State) : (complete s).log = s.log := rfl
@[simp] theorem complete_playbackCalls (s : State) : (complete s).playbackCalls = s.playbackCalls := rfl
@[simp] theorem complete_captureCalls (s : State) : (complete s).captureCalls = s.captureCalls := rfl
@[simp] theorem complete_params (s : State) : (complete s).params = s.params := rfl
@[simp] theorem complete_cause (s : State) : (complete s).cause = none := rfl
@[simp] theorem complete_reply (s : State) : (complete s).reply = s.reply := rfl
@[simp] theorem complete_inbox (s : State) : (complete s).inbox = s.inbox := rfl

@[simp] theorem raise_cfgFs (e : Err) (o : Space) (s : State) : (raise e o s).cfgFs = s.cfgFs := by cases o <;> rfl
@[simp] theorem raise_cfgBaud (e : Err) (o : Space) (s : State) :
    (raise e o s).cfgBaud = s.cfgBaud := by cases o <;> rfl
@[simp] theorem raise_cfgF1 (e : Err) (o : Space) (s : State) : (raise e o s).cfgF1 = s.cfgF1 := by cases o <;> rfl
@[simp] theorem raise_cfgF2 (e : Err) (o : Space) (s : State) : (raise e o s).cfgF2 = s.cfgF2 := by cases o <;> rfl
@[simp] theorem raise_cfgCapdur (e : Err) (o : Space) (s : State) :
    (raise e o s).cfgCapdur = s.cfgCapdur := by cases o <;> rfl
@[simp] theorem raise_status (e : Err) (o : Space) (s : State) :
    (raise e o s).status = packStatus (errCode (some e)) (statusRej s.status) (statusValid s.status) false := by
  cases o <;> simp [raise]
@[simp] theorem raise_mem (e : Err) (o : Space) (s : State) :
    (raise e o s).mem = (clearBuffer o s).mem := by cases o <;> rfl
@[simp] theorem raise_orch (e : Err) (o : Space) (s : State) : (raise e o s).orch = s.orch := by cases o <;> rfl
@[simp] theorem raise_delivered (e : Err) (o : Space) (s : State) :
    (raise e o s).delivered = s.delivered := by cases o <;> rfl
@[simp] theorem raise_log (e : Err) (o : Space) (s : State) : (raise e o s).log = s.log := by cases o <;> rfl
@[simp] theorem raise_playbackCalls (e : Err) (o : Space) (s : State) :
    (raise e o s).playbackCalls = s.playbackCalls := by cases o <;> rfl
@[simp] theorem raise_captureCalls (e : Err) (o : Space) (s : State) :
    (raise e o s).captureCalls = s.captureCalls := by cases o <;> rfl
@[simp] theorem raise_params (e : Err) (o : Space) (s : State) : (raise e o s).params = s.params := by cases o <;> rfl
@[simp] theorem raise_cause (e : Err) (o : Space) (s : State) : (raise e o s).cause = some e := by cases o <;> rfl
@[simp] theorem raise_reply (e : Err) (o : Space) (s : State) : (raise e o s).reply = s.reply := by cases o <;> rfl
@[simp] theorem raise_inbox (e : Err) (o : Space) (s : State) : (raise e o s).inbox = s.inbox := by cases o <;> rfl

@[simp] theorem raiseIllegal_cfgFs (w : Byte) (s : State) : (raiseIllegal w s).cfgFs = s.cfgFs := rfl
@[simp] theorem raiseIllegal_cfgBaud (w : Byte) (s : State) : (raiseIllegal w s).cfgBaud = s.cfgBaud := rfl
@[simp] theorem raiseIllegal_cfgF1 (w : Byte) (s : State) : (raiseIllegal w s).cfgF1 = s.cfgF1 := rfl
@[simp] theorem raiseIllegal_cfgF2 (w : Byte) (s : State) : (raiseIllegal w s).cfgF2 = s.cfgF2 := rfl
@[simp] theorem raiseIllegal_cfgCapdur (w : Byte) (s : State) : (raiseIllegal w s).cfgCapdur = s.cfgCapdur := rfl
@[simp] theorem raiseIllegal_status (w : Byte) (s : State) :
    (raiseIllegal w s).status = packStatus 5#4 (statusRej s.status) (statusValid s.status) (statusBusy s.status) := rfl
@[simp] theorem raiseIllegal_mem (w : Byte) (s : State) : (raiseIllegal w s).mem = s.mem := rfl
@[simp] theorem raiseIllegal_orch (w : Byte) (s : State) : (raiseIllegal w s).orch = s.orch := rfl
@[simp] theorem raiseIllegal_delivered (w : Byte) (s : State) : (raiseIllegal w s).delivered = s.delivered := rfl
@[simp] theorem raiseIllegal_log (w : Byte) (s : State) : (raiseIllegal w s).log = s.log := rfl
@[simp] theorem raiseIllegal_playbackCalls (w : Byte) (s : State) :
    (raiseIllegal w s).playbackCalls = s.playbackCalls := rfl
@[simp] theorem raiseIllegal_captureCalls (w : Byte) (s : State) :
    (raiseIllegal w s).captureCalls = s.captureCalls := rfl
@[simp] theorem raiseIllegal_params (w : Byte) (s : State) : (raiseIllegal w s).params = s.params := rfl
@[simp] theorem raiseIllegal_cause (w : Byte) (s : State) : (raiseIllegal w s).cause = some (.illegal w) := rfl
@[simp] theorem raiseIllegal_reply (w : Byte) (s : State) : (raiseIllegal w s).reply = s.reply := rfl
@[simp] theorem raiseIllegal_inbox (w : Byte) (s : State) : (raiseIllegal w s).inbox = s.inbox := rfl

@[simp] theorem endSession_cfgFs (s : State) : (endSession s).cfgFs = s.cfgFs := rfl
@[simp] theorem endSession_cfgBaud (s : State) : (endSession s).cfgBaud = s.cfgBaud := rfl
@[simp] theorem endSession_cfgF1 (s : State) : (endSession s).cfgF1 = s.cfgF1 := rfl
@[simp] theorem endSession_cfgF2 (s : State) : (endSession s).cfgF2 = s.cfgF2 := rfl
@[simp] theorem endSession_cfgCapdur (s : State) : (endSession s).cfgCapdur = s.cfgCapdur := rfl
@[simp] theorem endSession_status (s : State) :
    (endSession s).status = packStatus (statusErr s.status) (statusRej s.status) (statusValid s.status) false := rfl
@[simp] theorem endSession_mem (s : State) : (endSession s).mem = s.mem := rfl
@[simp] theorem endSession_orch (s : State) : (endSession s).orch = .idle := rfl
@[simp] theorem endSession_delivered (s : State) : (endSession s).delivered = s.delivered := rfl
@[simp] theorem endSession_log (s : State) : (endSession s).log = s.log := rfl
@[simp] theorem endSession_playbackCalls (s : State) : (endSession s).playbackCalls = s.playbackCalls := rfl
@[simp] theorem endSession_captureCalls (s : State) : (endSession s).captureCalls = s.captureCalls := rfl
@[simp] theorem endSession_params (s : State) : (endSession s).params = s.params := rfl
@[simp] theorem endSession_cause (s : State) : (endSession s).cause = s.cause := rfl
@[simp] theorem endSession_reply (s : State) : (endSession s).reply = s.reply := rfl
@[simp] theorem endSession_inbox (s : State) : (endSession s).inbox = s.inbox := rfl

@[simp] theorem failSession_cfgFs (s : State) : (failSession s).cfgFs = s.cfgFs := rfl
@[simp] theorem failSession_cfgBaud (s : State) : (failSession s).cfgBaud = s.cfgBaud := rfl
@[simp] theorem failSession_cfgF1 (s : State) : (failSession s).cfgF1 = s.cfgF1 := rfl
@[simp] theorem failSession_cfgF2 (s : State) : (failSession s).cfgF2 = s.cfgF2 := rfl
@[simp] theorem failSession_cfgCapdur (s : State) : (failSession s).cfgCapdur = s.cfgCapdur := rfl
@[simp] theorem failSession_status (s : State) :
    (failSession s).status = packStatus (statusErr s.status) (statusRej s.status) (statusValid s.status) false := rfl
@[simp] theorem failSession_mem (s : State) : (failSession s).mem = s.mem := rfl
@[simp] theorem failSession_orch (s : State) : (failSession s).orch = .idle := rfl
@[simp] theorem failSession_delivered (s : State) : (failSession s).delivered = s.delivered := rfl
@[simp] theorem failSession_log (s : State) : (failSession s).log = s.log ++ [.error (statusErr s.status)] := rfl
@[simp] theorem failSession_playbackCalls (s : State) : (failSession s).playbackCalls = s.playbackCalls := rfl
@[simp] theorem failSession_captureCalls (s : State) : (failSession s).captureCalls = s.captureCalls := rfl
@[simp] theorem failSession_params (s : State) : (failSession s).params = s.params := rfl
@[simp] theorem failSession_cause (s : State) : (failSession s).cause = s.cause := rfl
@[simp] theorem failSession_reply (s : State) : (failSession s).reply = s.reply := rfl
@[simp] theorem failSession_inbox (s : State) : (failSession s).inbox = s.inbox := rfl

end Sys2Proof.Laws
end

