-- ==== Sys2Proof/Laws/Memory.lean ====
section
/-!
SUPPORT. Every operation on the buffers keeps their canonical form (`Memory.wf`), and the reset state has it.
-/

namespace Sys2Proof.Laws

open Sys2Proof.Machine

@[simp] theorem exceeds_none (n : Nat) : exceeds none n = false := rfl

@[simp] theorem exceeds_zero (cap : Option Nat) : exceeds cap 0 = false := by
  cases cap <;> simp [exceeds]

/-- What `exceeds` says in the terms of statements. -/
theorem exceeds_eq_false_iff (cap : Option Nat) (n : Nat) : exceeds cap n = false ↔ Fits cap n := by
  cases cap <;> simp [exceeds, Fits]

theorem exceeds_eq_true_iff (cap : Option Nat) (n : Nat) : exceeds cap n = true ↔ ¬ Fits cap n := by
  cases cap <;> simp [exceeds, Fits]

theorem cellsFit_text_iff (p : Params) (cells : List Nat) :
    cellsFit p (.text cells) = true ↔ ∀ c ∈ cells, c < 2 ^ p.charW := by
  simp [cellsFit]

theorem reset_wf : State.reset.mem.wf State.reset.params := by decide

theorem writeText_wf {p : Params} {s : State} {cells : List Nat} (h : s.mem.wf p)
    (hfit : ∀ c ∈ cells, c < 2 ^ p.charW) (hcap : exceeds p.textCap cells.length = false) :
    (writeText cells s).mem.wf p := ⟨hfit, hcap, h.2.2.1, h.2.2.2⟩

theorem writeBits_wf {p : Params} {s : State} {cells : List Bit} (h : s.mem.wf p)
    (hcap : exceeds p.bitsCap cells.length = false) : (writeBits cells s).mem.wf p := ⟨h.1, h.2.1, hcap, h.2.2.2⟩

theorem writeWave_wf {p : Params} {s : State} {cells : List Sample} (h : s.mem.wf p)
    (hcap : exceeds p.waveCap cells.length = false) : (writeWave cells s).mem.wf p := ⟨h.1, h.2.1, h.2.2.1, hcap⟩

theorem clearBuffer_wf {p : Params} {s : State} (h : s.mem.wf p) (space : Space) : (clearBuffer space s).mem.wf p := by
  cases space with
  | text => exact writeText_wf h (by simp) (by simp)
  | bits => exact writeBits_wf h (by simp)
  | wave => exact writeWave_wf h (by simp)

/-- What a load needs to take effect, in the terms of statements. -/
theorem loadFits_text_iff (p : Params) (cells : List Nat) :
    loadFits p (.text cells) = true ↔ (∀ c ∈ cells, c < 2 ^ p.charW) ∧ Fits p.textCap cells.length := by
  rw [loadFits, Bool.and_eq_true, cellsFit_text_iff, Bool.not_eq_true', loadTooLong, exceeds_eq_false_iff]

theorem loadFits_bits_iff (p : Params) (cells : List Bit) :
    loadFits p (.bits cells) = true ↔ Fits p.bitsCap cells.length := by
  rw [loadFits, cellsFit, Bool.true_and, Bool.not_eq_true', loadTooLong, exceeds_eq_false_iff]

theorem loadFits_wave_iff (p : Params) (cells : List Sample) :
    loadFits p (.wave cells) = true ↔ Fits p.waveCap cells.length := by
  rw [loadFits, cellsFit, Bool.true_and, Bool.not_eq_true', loadTooLong, exceeds_eq_false_iff]

theorem loadBuffer_wf {p : Params} {s : State} {data : BufferData} (h : s.mem.wf p) (hload : loadFits p data = true) :
    (loadBuffer data s).mem.wf p := by
  rw [loadFits, Bool.and_eq_true, Bool.not_eq_true'] at hload
  obtain ⟨hfit, hlen⟩ := hload
  cases data with
  | text cells => exact writeText_wf h ((cellsFit_text_iff p cells).1 hfit) hlen
  | bits cells => exact writeBits_wf h hlen
  | wave cells => exact writeWave_wf h hlen

/-- Whatever its code points, the text of a send fits the cells it is put in. -/
theorem heldText_fits {p : Params} (hp : p.wf) (text : List Nat) : ∀ c ∈ heldText p text, c < 2 ^ p.charW := by
  have h256 : 2 ^ 8 < 2 ^ p.charW := Nat.pow_lt_pow_right (by norm_num) hp.2
  intro c hc
  obtain ⟨d, -, rfl⟩ := List.mem_map.1 hc
  unfold heldCode
  split_ifs with h
  · exact h
  · have := Nat.mod_lt (Config.wideCell d) (show 2 ^ p.charW - 256 > 0 by omega)
    omega

/-- A character of the 8-bit code fits a `TEXT` cell. -/
theorem decodeBits_fits {p : Params} (hp : p.wf) (bits : List Bit) : ∀ c ∈ decodeBits bits, c < 2 ^ p.charW := fun _ hc =>
  (decodeBits_lt hc).trans_le (Nat.pow_le_pow_right (hx := two_pos) hp.2.le)

end Sys2Proof.Laws
end

