-- ==== Sys2Proof/Laws/Commands.lean ====
section
/-!
SUPPORT. Each shared operation and each command, once: everything it can answer. Later proofs cite these and unfold no
meaning.
-/

namespace Sys2Proof.Laws

open Sys2Proof.Machine

/-! ## Shared operations as one record update -/

theorem complete_eq (s : State) :
    complete s = { s with status := packStatus 0#4 (statusRej s.status) (statusValid s.status) false, cause := none } := by
  simp [complete, setBusy, setErr, errCode]

theorem raise_eq (e : Err) (o : Space) (s : State) :
    raise e o s =
      { s with
        mem := (clearBuffer o s).mem
        status := packStatus (errCode (some e)) (statusRej s.status) (statusValid s.status) false
        cause := some e } := by
  cases o <;> simp [raise, setBusy, setErr, clearBuffer, writeText, writeBits, writeWave]

theorem errCode_eq_zero_iff (e : Option Err) : errCode e = 0#4 ↔ e = none := by
  rcases e with _ | e
  · simp [errCode]
  · cases e <;> simp [errCode]

theorem errCode_lt_seven (e : Option Err) : (errCode e).toNat < 7 := by
  rcases e with _ | e
  · simp [errCode]
  · cases e <;> simp [errCode]

theorem bufferLen_clearBuffer (o : Space) (s : State) : bufferLen (clearBuffer o s).mem o = 0 := by
  cases o <;> simp [bufferLen]

/-- Clearing a buffer leaves the others as they are. -/
theorem bufferOf_clearBuffer_of_ne {o space : Space} (h : space ≠ o) (s : State) :
    bufferOf (clearBuffer o s).mem space = bufferOf s.mem space := by
  cases o <;> cases space <;> simp_all [bufferOf]

/-! ## The configuration -/

/-- R104: no clause fails exactly when the configuration is legal. -/
theorem configFault_eq_none_iff (s : State) : configFault s = none ↔ ConfigLegal s := by
  simp only [configFault]
  split_ifs <;> simp_all
  omega

theorem spb_of_legal {s : State} (h : ConfigLegal s) : spb s = s.cfgFs / s.cfgBaud := if_pos ⟨h.2.1, h.2.2.1⟩

theorem spb_mul_baud {s : State} (h : ConfigLegal s) : spb s * s.cfgBaud = s.cfgFs := by
  rw [spb_of_legal h]
  exact Nat.div_mul_cancel (Nat.dvd_of_mod_eq_zero h.2.2.1)

theorem spb_pos {s : State} (h : ConfigLegal s) : 0 < spb s := by
  have := spb_mul_baud h
  have := h.1
  rcases Nat.eq_zero_or_pos (spb s) with h0 | h0
  · simp_all
  · exact h0

theorem mid2_pos {s : State} (h : ConfigLegal s) : 0 < mid2 s := by
  have := h.2.2.2
  unfold mid2; omega

/-! ## The windows -/

/-- A window that exists begins inside the waveform (R111). -/
theorem window_start {s : State} (h : 0 < spb s) {w : Nat} (hw : w < windowCount s) : w * spb s < s.mem.wave.length := by
  have h1 : w * spb s + spb s ≤ windowCount s * spb s := by
    rw [← Nat.succ_mul]; exact Nat.mul_le_mul_right _ hw
  have h2 : windowCount s * spb s ≤ s.mem.wave.length + spb s - 1 := Nat.div_mul_le_self _ _
  omega

theorem window_length (s : State) (w : Nat) :
    (window s w).length = min (spb s) (s.mem.wave.length - w * spb s) := by
  simp [window, memRead]

/-- Every window has a sample: "`1 <= L <= SPB`" (R110). -/
theorem window_length_pos {s : State} (h : 0 < spb s) {w : Nat} (hw : w < windowCount s) :
    0 < (window s w).length := by
  have := window_start h hw
  rw [window_length]; omega

/-! ## The commands -/

theorem exec_enc_cases (s : State) :
    (∃ e, encFault s = some e ∧ exec .enc s = .next (raise e .bits s)) ∨
      encFault s = none ∧ exec .enc s = .next (complete (writeBits (encodeText s.mem.text) s)) := by
  cases h : encFault s <;> simp [exec, execEnc, h]

theorem exec_dec_cases (s : State) :
    (∃ e, decFault s = some e ∧ exec .dec s = .next (raise e .text s)) ∨
      decFault s = none ∧ exec .dec s = .next (complete (writeText (decodeBits s.mem.bits) s)) := by
  cases h : decFault s <;> simp [exec, execDec, h]

theorem exec_mod_cases (s : State) :
    (∃ e, modFault s = some e ∧ exec .mod s = .next (raise e .wave s)) ∨
      modFault s = none ∧ exec .mod s = .next (complete (writeWave (modulate s) s)) := by
  cases h : modFault s <;> simp [exec, execMod, h]

theorem exec_dem_cases (s : State) :
    (∃ e, demFault s = some e ∧ exec .dem s = .next (raise e .bits s)) ∨
      demFault s = none ∧ exec .dem s = .next (complete (writeBits (demodulate s) s)) := by
  cases h : demFault s <;> simp [exec, execDem, h]

theorem exec_val_eq (s : State) : exec .val s = .next (complete (setValid (isValid s.mem.text) s)) := rfl

theorem encFault_eq_none_iff (s : State) :
    encFault s = none ↔ (∀ c ∈ s.mem.text, c ≤ 255) ∧ exceeds s.params.bitsCap (8 * s.mem.text.length) = false := by
  rw [encFault, ← firstUnencodable_eq_none_iff 0]
  cases firstUnencodable 0 s.mem.text <;> simp

theorem decFault_eq_none_iff (s : State) :
    decFault s = none ↔ s.mem.bits.length % 8 = 0 ∧ exceeds s.params.textCap (s.mem.bits.length / 8) = false := by
  rw [decFault]
  split_ifs <;> simp_all

theorem modFault_eq_none_iff (s : State) :
    modFault s = none ↔ ConfigLegal s ∧ exceeds s.params.waveCap (s.mem.bits.length * spb s) = false := by
  rw [modFault, ← configFault_eq_none_iff]
  cases configFault s <;> simp

theorem demFault_eq_none_iff (s : State) :
    demFault s = none ↔ ConfigLegal s ∧ exceeds s.params.bitsCap (windowCount s) = false := by
  rw [demFault, ← configFault_eq_none_iff]
  cases configFault s <;> simp

theorem isValid_iff (text : List Nat) : isValid text = true ↔ ∀ c ∈ text, 32 ≤ c ∧ c ≤ 126 := by
  simp [isValid, printable]

/-! ## The parts of a command's state that no command touches -/

/-- A command answers a next state, whatever the state it runs in (no command traps, R163, and none stops). -/
theorem exec_next (i : Instr) (s : State) : ∃ t, exec i s = .next t := by
  cases i with
  | enc => obtain ⟨e, -, h⟩ | ⟨-, h⟩ := exec_enc_cases s <;> exact ⟨_, h⟩
  | dec => obtain ⟨e, -, h⟩ | ⟨-, h⟩ := exec_dec_cases s <;> exact ⟨_, h⟩
  | mod => obtain ⟨e, -, h⟩ | ⟨-, h⟩ := exec_mod_cases s <;> exact ⟨_, h⟩
  | dem => obtain ⟨e, -, h⟩ | ⟨-, h⟩ := exec_dem_cases s <;> exact ⟨_, h⟩
  | val => exact ⟨_, exec_val_eq s⟩

/-- What a command can change: buffers, `STATUS` and the outcome it stands for. -/
theorem exec_frame {i : Instr} {s t : State} (h : exec i s = .next t) :
    t = { s with mem := t.mem, status := t.status, cause := t.cause } := by
  have hraise (e : Err) (o : Space) :
      raise e o s = { s with mem := (raise e o s).mem, status := (raise e o s).status, cause := (raise e o s).cause } := by
    rw [raise_eq]
  cases i with
  | enc =>
    obtain ⟨e, -, h'⟩ | ⟨-, h'⟩ := exec_enc_cases s <;> rw [h'] at h <;> cases h
    · exact hraise _ _
    · rfl
  | dec =>
    obtain ⟨e, -, h'⟩ | ⟨-, h'⟩ := exec_dec_cases s <;> rw [h'] at h <;> cases h
    · exact hraise _ _
    · rfl
  | mod =>
    obtain ⟨e, -, h'⟩ | ⟨-, h'⟩ := exec_mod_cases s <;> rw [h'] at h <;> cases h
    · exact hraise _ _
    · rfl
  | dem =>
    obtain ⟨e, -, h'⟩ | ⟨-, h'⟩ := exec_dem_cases s <;> rw [h'] at h <;> cases h
    · exact hraise _ _
    · rfl
  | val => rw [exec_val_eq] at h; cases h; rfl

end Sys2Proof.Laws
end

