-- ==== Sys2Proof/Laws/PerInstr.lean ====
section
/-!
SUPPORT. Families of statements made per command: `Roundtrip`, that a command of the build decodes from its own word.
-/

namespace Sys2Proof.Laws.Roundtrip

/-- Decoding the word of a command gives the command back, wherever the build has it. -/
def Statement (i : Instr) : Prop := ∀ hs : Bool, wellFormed hs i = true → decode hs (encode i) = .ok i

theorem enc : Statement .enc := by unfold Statement; decide

theorem dec : Statement .dec := by unfold Statement; decide

theorem mod : Statement .mod := by unfold Statement; decide

theorem dem : Statement .dem := by unfold Statement; decide

theorem val : Statement .val := by unfold Statement; decide

end Sys2Proof.Laws.Roundtrip
end

