-- ==== Sys2Proof/Laws/Reals.lean ====
section
/-!
SUPPORT. Samples are real numbers: the value of each operation on samples, and that the machine compares samples as
reals, whatever is open in them (`signOf_eq`, `sampleLt_iff`).
-/

namespace Sys2Proof

/-! ## The value of a sample, constructor by constructor -/

@[simp] theorem Sample.val_rat (q : Rat) : (Sample.rat q).val = q := rfl

@[simp] theorem Sample.val_sin (turn : Rat) : (Sample.sin turn).val = Real.sin (2 * Real.pi * turn) := rfl

@[simp] theorem Sample.val_neg (a : Sample) : a.neg.val = -a.val := rfl

@[simp] theorem Sample.val_add (a b : Sample) : (a.add b).val = a.val + b.val := rfl

@[simp] theorem Sample.val_mul (a b : Sample) : (a.mul b).val = a.val * b.val := rfl

theorem Sample.val_unknown (n : Nat) : (Sample.unknown n).val = Config.reals.unknown n := rfl

theorem Sample.val_ownSin (turn : Rat) : (Sample.ownSin turn).val = Config.reals.sine (2 * Real.pi * turn) := rfl

theorem Sample.val_rounded (a : Sample) : a.rounded.val = Config.reals.round a.val := rfl

namespace Laws

open Sys2Proof.Machine

/-! ## Operations -/

@[simp] theorem val_zeroSample : zeroSample.val = 0 := by simp [zeroSample]

theorem val_cosTurn (turn : Rat) : (cosTurn turn).val = Real.cos (2 * Real.pi * turn) := by
  rw [cosTurn, Sample.val_sin, ← Real.sin_add_pi_div_two]
  congr 1
  push_cast
  ring

@[simp] theorem val_subSample (a b : Sample) : (subSample a b).val = a.val - b.val := by
  rw [subSample, Sample.val_add, Sample.val_neg, sub_eq_add_neg]

theorem val_sumSamples (xs : List Sample) : (sumSamples xs).val = (xs.map Sample.val).sum := by
  unfold sumSamples
  induction xs with
  | nil => simp
  | cons a as ih => rw [List.foldr_cons, Sample.val_add, ih, List.map_cons, List.sum_cons]

/-- The stored cell of a tone is the real tone (R100, R101). -/
theorem val_tone (p : Params) (fs f n : Nat) : (tone p fs f n).val = realTone p fs f n := by
  have harg : 2 * Real.pi * ((mkRat (f * n) fs : Rat) : ℝ) = 2 * Real.pi * f * n / fs := by
    rw [Rat.mkRat_eq_div]; push_cast; ring
  have hsine : (sineOf p (mkRat (f * n) fs)).val = sineFn p (2 * Real.pi * f * n / fs) := by
    unfold sineOf sineFn
    cases p.sine
    · exact congrArg Real.sin harg
    · exact congrArg Config.reals.sine harg
  rw [tone, toneAt, realTone, ← hsine, ← Sample.val_mul]
  unfold quantised storedAs
  cases p.numbers <;> rfl

/-! ## Comparison -/

/-- Where nothing is open in a sample, its value is the same under every choice. -/
theorem valIn_of_isClosed (r r' : Reals) {e : Sample} (h : isClosed e = true) : e.valIn r = e.valIn r' := by
  induction e with
  | rat q => rfl
  | sin turn => rfl
  | neg a ih => rw [Sample.valIn, Sample.valIn, ih h]
  | add a b iha ihb =>
    rw [isClosed, Bool.and_eq_true] at h
    rw [Sample.valIn, Sample.valIn, iha h.1, ihb h.2]
  | mul a b iha ihb =>
    rw [isClosed, Bool.and_eq_true] at h
    rw [Sample.valIn, Sample.valIn, iha h.1, ihb h.2]
  | unknown n => exact absurd h Bool.false_ne_true
  | ownSin turn => exact absurd h Bool.false_ne_true
  | rounded a _ => exact absurd h Bool.false_ne_true

/-- The sign the machine sees is the sign of the real number. -/
theorem signOf_eq (e : Sample) : signOf e = cmp e.val 0 := by
  unfold signOf
  split_ifs with h
  · obtain ⟨r, hr⟩ := exactSign_is_real
    rw [hr, Sample.val, valIn_of_isClosed r Config.reals h]
  · exact Classical.choose_spec Config.realSign.isReal e

/-- The machine's comparison is that of the reals. -/
theorem sampleLt_iff (a b : Sample) : sampleLt a b = true ↔ a.val < b.val := by
  rw [sampleLt, beq_iff_eq, signOf_eq, cmp_eq_gt_iff, val_subSample, sub_pos]

theorem sampleLt_eq_false_iff (a b : Sample) : sampleLt a b = false ↔ b.val ≤ a.val := by
  rw [← not_lt, ← sampleLt_iff, Bool.not_eq_true]

end Laws

end Sys2Proof
end

