-- ==== Sys2Proof/Laws/Session.lean ====
section
/-!
SUPPORT. What one step and one stage of a session do, once: later proofs peel a session apart with these.
-/

namespace Sys2Proof.Laws

open Sys2Proof.Machine

/-! ## One step -/

theorem step_cons {s : State} {e : Event} {es : List Event} (h : s.inbox = e :: es) :
    step s = takeEvent e { s with inbox := es, reply := .nothing } := by
  simp [step, nextEvent, received, h]

theorem step_nil {s : State} (h : s.inbox = []) : step s = takeEvent .quiet { s with reply := .nothing } := by
  simp [step, nextEvent, received, h]

/-- One step, then the rest. -/
theorem steps_succ (k : Nat) {s t : State} (h : step s = .next t) : steps (k + 1) s = steps k t := by
  simp only [steps, h]

/-! ## The stages of a session -/

/-- A stage goes on when its command succeeds and ends the session when it fails. -/
theorem commandStage_of_next {i : Instr} {s t : State} (next : Orch) (h : exec i s = .next t) :
    commandStage i next s =
      .next (if statusErr t.status = 0 then setBusy true { t with orch := next } else failSession t) := by
  simp [commandStage, h]

/-- What a stage that issues a command can answer: the session goes on, or fails (R131, R133). -/
theorem commandStage_cases {i : Instr} {next : Orch} {s t : State} (hc : stageCommand s.orch = some i)
    (h : commandStage i next s = .next t) :
    (∃ u, exec i s = .next u ∧ statusErr u.status = 0#4 ∧ t = setBusy true { u with orch := next }) ∨
      SessionFails .quiet s t := by
  obtain ⟨u, hu⟩ := exec_next i s
  have hf := exec_frame hu
  rw [commandStage_of_next next hu] at h
  split_ifs at h with h0 <;> cases h
  · exact .inl ⟨u, hu, h0, rfl⟩
  · have herr : statusErr (failSession u).status = statusErr u.status := by simp [failSession, endSession]
    refine .inr ⟨.inl ⟨rfl, i, u, hc, hu, herr.symm⟩, by rwa [herr], rfl, ?_, ?_⟩
    · rw [herr, hf]; rfl
    · rw [hf]; rfl

theorem endSession_eq (s : State) :
    endSession s =
      { s with
        orch := .idle
        status := packStatus (statusErr s.status) (statusRej s.status) (statusValid s.status) false } := rfl

theorem failSession_eq (s : State) :
    failSession s =
      { s with
        orch := .idle
        log := s.log ++ [.error (statusErr s.status)]
        status := packStatus (statusErr s.status) (statusRej s.status) (statusValid s.status) false } := rfl

/-! ## The text of a send -/

@[simp] theorem heldText_length (p : Params) (text : List Nat) : (heldText p text).length = text.length :=
  List.length_map _

/-- A code point that fits its cell is held as it is. -/
theorem heldCode_of_lt {p : Params} {c : Nat} (h : c < 2 ^ p.charW) : heldCode p c = c := if_pos h

/-- A text all of whose code points fit is held as it is. -/
theorem heldText_of_lt {p : Params} {text : List Nat} (h : ∀ c ∈ text, c < 2 ^ p.charW) : heldText p text = text := by
  rw [heldText, List.map_congr_left fun c hc => heldCode_of_lt (h c hc), List.map_id']

/-- A cell is above 255 exactly when the code point put into it is. -/
theorem heldCode_gt_iff {p : Params} (hp : p.wf) (c : Nat) : 255 < heldCode p c ↔ 255 < c := by
  have h256 : 2 ^ 8 < 2 ^ p.charW := Nat.pow_lt_pow_right (by norm_num) hp.2
  unfold heldCode
  split_ifs with h
  · rfl
  · constructor <;> intro <;> omega

/-- `ENC` finds the same least offending index whether or not a code point fits its cell (R151). -/
theorem firstUnencodable_heldText {p : Params} (hp : p.wf) (i : Nat) (text : List Nat) :
    firstUnencodable i (heldText p text) = firstUnencodable i text := by
  induction text generalizing i with
  | nil => rfl
  | cons c cs ih =>
    rw [heldText, List.map_cons, firstUnencodable, firstUnencodable, ← heldText, ih]
    simp only [heldCode_gt_iff hp]

/-! ## Requests -/

theorem rejectSession_eq (s : State) :
    rejectSession s =
      { s with
        orch := .idle
        log := s.log ++ [.rejected]
        status := packStatus (statusErr s.status) (statusRej s.status) (statusValid s.status) false } := rfl

/-- A text is skipped exactly when it is all white space (R137). -/
theorem skipped_iff (p : Params) (text : List Nat) : skipped p text = true ↔ ∀ c ∈ text, c ∈ p.whiteSpace := by
  simp [skipped]

end Sys2Proof.Laws
end

