-- ==== Sys2Proof/Laws/Spectrum.lean ====
section
/-!
SUPPORT. The Demodulator's exact arithmetic is the transform of spec/42_demodulator.md R112 over the complex numbers:
`magSq_val`; the scan finds the least bin of greatest magnitude: `leastPeak_isPeakBin`.
-/

namespace Sys2Proof.Laws

open Sys2Proof.Machine

/-! ## The transform -/

theorem sum_zipIdx (f : Sample → Nat → ℝ) (xs : List Sample) (m : Nat) :
    ((xs.zipIdx m).map fun xn => f xn.1 xn.2).sum =
      ∑ n ∈ Finset.range xs.length, f (xs.getD n zeroSample) (m + n) := by
  induction xs generalizing m with
  | nil => simp
  | cons a as ih =>
    rw [List.zipIdx_cons, List.map_cons, List.sum_cons, ih, List.length_cons, Finset.sum_range_succ', add_comm]
    congr 1
    refine Finset.sum_congr rfl fun n _ => ?_
    rw [List.getD_cons_succ]
    congr 1
    ring

theorem val_correlate (wave : Rat → Sample) (x : List Sample) (k : Nat) :
    (correlate wave x k).val =
      ∑ n ∈ Finset.range x.length, (x.getD n zeroSample).val * (wave (mkRat (k * n) x.length)).val := by
  rw [correlate, val_sumSamples, List.map_map]
  have := sum_zipIdx (fun a n => a.val * (wave (mkRat (k * n) x.length)).val) x 0
  simp only [zero_add] at this
  exact this

theorem turn_cast (k n len : Nat) :
    2 * Real.pi * ((mkRat (k * n) len : Rat) : ℝ) = 2 * Real.pi * k * n / len := by
  rw [Rat.mkRat_eq_div]; push_cast; ring

theorem val_dftRe (x : List Sample) (k : Nat) :
    (dftRe x k).val =
      ∑ n ∈ Finset.range x.length, (x.getD n zeroSample).val * Real.cos (2 * Real.pi * k * n / x.length) := by
  rw [dftRe, val_correlate]
  exact Finset.sum_congr rfl fun n _ => by rw [val_cosTurn, ← turn_cast]

theorem val_dftIm (x : List Sample) (k : Nat) :
    (dftIm x k).val =
      -∑ n ∈ Finset.range x.length, (x.getD n zeroSample).val * Real.sin (2 * Real.pi * k * n / x.length) := by
  rw [dftIm, Sample.val_neg, val_correlate]
  exact congrArg _ (Finset.sum_congr rfl fun n _ => by rw [Sample.val_sin, ← turn_cast])

theorem getD_map_val (x : List Sample) (n : Nat) : (x.map Sample.val).getD n 0 = (x.getD n zeroSample).val := by
  rw [← val_zeroSample, List.getD_map]

/-- The transform of a window's values, by its real and imaginary parts. -/
theorem dft_map_val (x : List Sample) (k : Nat) :
    dft (x.map Sample.val) k = (((dftRe x k).val : ℝ) : ℂ) + (((dftIm x k).val : ℝ) : ℂ) * Complex.I := by
  rw [dft, val_dftRe, val_dftIm, List.length_map]
  push_cast
  rw [neg_mul, Finset.sum_mul, ← sub_eq_add_neg, ← Finset.sum_sub_distrib]
  refine Finset.sum_congr rfl fun n _ => ?_
  rw [getD_map_val]
  have : -(2 * (Real.pi : ℂ) * Complex.I * k * n / x.length) =
      -(2 * Real.pi * k * n / x.length) * Complex.I := by ring
  rw [this, Complex.exp_mul_I, Complex.cos_neg, Complex.sin_neg]
  ring

/-- `magSq` is the square of the magnitude of R112. -/
theorem magSq_val (x : List Sample) (k : Nat) : (magSq x k).val = magnitude (x.map Sample.val) k ^ 2 := by
  rw [magnitude, dft_map_val, magSq, Sample.val_add, Sample.val_mul, Sample.val_mul, ← Complex.normSq_eq_norm_sq,
    Complex.normSq_add_mul_I]
  ring

theorem magnitude_nonneg (x : List ℝ) (k : Nat) : 0 ≤ magnitude x k := norm_nonneg _

/-- Comparing squares is comparing magnitudes (R121a). -/
theorem magSq_lt_iff (x : List Sample) (j k : Nat) :
    sampleLt (magSq x j) (magSq x k) = true ↔
      magnitude (x.map Sample.val) j < magnitude (x.map Sample.val) k := by
  rw [sampleLt_iff, magSq_val, magSq_val]
  exact pow_lt_pow_iff_left₀ (magnitude_nonneg _ _) (magnitude_nonneg _ _) two_ne_zero

/-- The upper half of a real window's spectrum mirrors the lower (R112). -/
theorem magnitude_mirror (x : List ℝ) {k : Nat} (hk : k < x.length) : magnitude x (x.length - k) = magnitude x k := by
  have hL : (x.length : ℂ) ≠ 0 := by
    have : x.length ≠ 0 := by omega
    exact_mod_cast this
  have : dft x (x.length - k) = (starRingEnd ℂ) (dft x k) := by
    rw [dft, dft, map_sum]
    refine Finset.sum_congr rfl fun n _ => ?_
    rw [map_mul, Complex.conj_ofReal, ← Complex.exp_conj]
    congr 1
    rw [Complex.exp_eq_exp_iff_exists_int]
    refine ⟨-n, ?_⟩
    rw [Nat.cast_sub hk.le]
    simp only [map_neg, map_div₀, map_mul, Complex.conj_ofReal, Complex.conj_I, map_natCast, map_ofNat]
    field_simp
    push_cast
    ring
  rw [magnitude, this, magnitude]
  exact RCLike.norm_conj _

/-! ## The peak -/

/-- What a scan ends with: a bin at least as great as all it saw, and greater than those before it. -/
theorem scanPeak_spec (x : List Sample) (n m : Nat) (peak : Nat) (hp : peak < m)
    (hmax : ∀ j < m, magnitude (x.map Sample.val) j ≤ magnitude (x.map Sample.val) peak)
    (hleast : ∀ j < peak, magnitude (x.map Sample.val) j < magnitude (x.map Sample.val) peak) :
    let k := scanPeak x (List.range' m n) peak
    k < m + n ∧ (∀ j < m + n, magnitude (x.map Sample.val) j ≤ magnitude (x.map Sample.val) k) ∧
      ∀ j < k, magnitude (x.map Sample.val) j < magnitude (x.map Sample.val) k := by
  induction n generalizing m peak with
  | zero => exact ⟨hp, hmax, hleast⟩
  | succ n ih =>
    rw [List.range'_succ, scanPeak]
    rw [show m + (n + 1) = m + 1 + n by ring]
    by_cases h : sampleLt (magSq x peak) (magSq x m) = true
    · rw [if_pos h]
      rw [magSq_lt_iff] at h
      refine ih (m + 1) m (Nat.lt_succ_self m) (fun j hj => ?_) (fun j hj => (hmax j hj).trans_lt h)
      rcases Nat.lt_succ_iff_lt_or_eq.1 hj with hj' | rfl
      · exact ((hmax j hj').trans_lt h).le
      · exact le_rfl
    · rw [if_neg h]
      rw [magSq_lt_iff, not_lt] at h
      refine ih (m + 1) peak (by omega) (fun j hj => ?_) hleast
      rcases Nat.lt_succ_iff_lt_or_eq.1 hj with hj' | rfl
      · exact hmax j hj'
      · exact h

/-- The scan over the lower half finds the least bin of greatest magnitude of the whole spectrum (R113, R121b). -/
theorem leastPeak_isPeakBin (x : List Sample) (hx : 0 < x.length) :
    IsPeakBin (x.map Sample.val) (leastPeak x) ∧ leastPeak x ≤ x.length / 2 := by
  obtain ⟨hlt, hmax, hleast⟩ := scanPeak_spec x (x.length / 2) 1 0 (by norm_num)
    (fun j hj => by rw [show j = 0 by omega]) (fun j hj => absurd hj (Nat.not_lt_zero j))
  have hle : leastPeak x ≤ x.length / 2 := by unfold leastPeak; omega
  have hlen : leastPeak x < x.length := by omega
  refine ⟨⟨by rwa [List.length_map], fun j hj => ?_, fun k hk => ⟨leastPeak x, by rwa [List.length_map], hleast k hk⟩⟩,
    hle⟩
  rw [List.length_map] at hj
  by_cases hj2 : j < 1 + x.length / 2
  · exact hmax j hj2
  · have hmir := magnitude_mirror (x.map Sample.val) (k := j) (by rwa [List.length_map])
    rw [List.length_map] at hmir
    rw [← hmir]
    exact hmax _ (by omega)

/-- Whatever the tie rule, the peak bin is a bin of greatest magnitude, in the lower half. -/
theorem peakBin_isGreatestBin (tie : Tie) (x : List Sample) (hx : 0 < x.length) :
    IsGreatestBin (x.map Sample.val) (peakBin tie x) ∧ peakBin tie x ≤ x.length / 2 := by
  obtain ⟨⟨hlt, hmax, _⟩, hle⟩ := leastPeak_isPeakBin x hx
  cases tie with
  | leastIndex => exact ⟨⟨hlt, hmax⟩, hle⟩
  | drawn =>
    have hmem : peakBin .drawn x ∈ tiedBins x (leastPeak x) := by
      have hne : leastPeak x ∈ tiedBins x (leastPeak x) := by
        simp only [tiedBins, List.mem_filter, List.mem_range]
        exact ⟨by omega, by simp⟩
      have hpos : 0 < (tiedBins x (leastPeak x)).length := List.length_pos_of_mem hne
      simp only [peakBin]
      rw [List.getD_eq_getElem _ _ (Nat.mod_lt _ hpos)]
      exact List.getElem_mem _
    simp only [tiedBins, List.mem_filter, List.mem_range, Bool.or_eq_true, beq_iff_eq, Bool.not_eq_true'] at hmem
    obtain ⟨hr, ht⟩ := hmem
    have hge : magnitude (x.map Sample.val) (leastPeak x) ≤ magnitude (x.map Sample.val) (peakBin .drawn x) := by
      rcases ht with h | h
      · rw [h]
      · rw [← not_lt, ← magSq_lt_iff, h]; simp
    refine ⟨⟨?_, fun j hj => (hmax j hj).trans hge⟩, by omega⟩
    rw [List.length_map]
    omega

end Sys2Proof.Laws
end

