-- ==== Sys2Proof/Tests/Slice0.lean ====
section
/-!
SUPPORT. Tests on fixed values, their expected results from spec/ (the vector is named), and one witness for the
hypotheses of each statement, with every clause at a boundary of its range.
-/

namespace Sys2Proof.Tests

open Sys2Proof.Machine

/-! ## Small states -/

/-- The reset state with a buffer loaded. -/
def withText (cells : List Nat) : State := writeText cells State.reset

def withBits (cells : List Bit) : State := writeBits cells State.reset

def withWave (cells : List Sample) : State := writeWave cells State.reset

/-- The bits of the 8-bit groups of `Hi` (V1). -/
def hiBits : List Bit :=
  [false, true, false, false, true, false, false, false, false, true, true, false, true, false, false, true]

/-- `CFG FS=8 BAUD=1 F1=1 F2=3`: eight samples a bit, both tones on a bin and below `FS/2`. -/
def small (s : State) : State := { s with cfgFs := 8, cfgBaud := 1, cfgF1 := 1, cfgF2 := 3 }

/-- A build with the given capacities. -/
def capped (textCap bitsCap waveCap : Option Nat) (s : State) : State :=
  { s with params := { s.params with textCap, bitsCap, waveCap } }

/-- Waiting for the playback collaborator. -/
def playing (s : State) : State := setBusy true { s with orch := .sending .playing }

/-- Waiting for the capture collaborator. -/
def listening (s : State) : State := setBusy true { s with orch := .listening }

/-- The state an outcome leads to. -/
def after (o : Host.Outcome State Fault Refusal) : Option State :=
  match o with
  | .next t => some t
  | .fault _ => none
  | .refused _ => none

/-! ## Command words (R70, R71, written out bit by bit) and the build's commands -/

theorem test_decode_enc : decode true 0b00000001#8 = .ok .enc := by decide

theorem test_decode_dec : decode true 0b00000010#8 = .ok .dec := by decide

theorem test_decode_mod : decode true 0b00000011#8 = .ok .mod := by decide

theorem test_decode_dem : decode true 0b00000100#8 = .ok .dem := by decide

theorem test_decode_val : decode true 0b00000101#8 = .ok .val := by decide

/-- Without the session layer `VAL` is no command of the build. -/
theorem test_ill_formed_val : wellFormed false .val = false := by decide

/-- V70b. -/
theorem test_decode_val_absent : decode false 0b00000101#8 = .error .noSessionLayer := by decide

/-- V70: the illegal words tried there. -/
theorem test_decode_illegal :
    ([0x00#8, 0x06#8, 0x07#8, 0x08#8, 0x09#8, 0x81#8, 0xFF#8].all fun w => (decode true w).toOption.isNone) = true := by
  decide

/-! ## ENC and DEC -/

/-- V1. -/
theorem test_enc_hi : (after (exec .enc (withText [72, 105]))).map (·.mem.bits) = some hiBits := by decide

/-- V15, with 16 bits in `BITS` before: the least offending index, and nothing kept. -/
theorem test_enc_wide :
    (after (exec .enc (writeBits hiBits (withText [72, 300, 400])))).map
      (fun t => (t.mem.bits, t.status, t.cause)) = some ([], 0x10#8, some (.encoding 1)) := by decide

/-- V25. -/
theorem test_dec_hi : (after (exec .dec (withBits hiBits))).map (·.mem.text) = some [72, 105] := by decide

/-- V74: `VALID` survives a failing `DEC`, and the text is gone. -/
theorem test_dec_malformed :
    (after (exec .dec (setValid true (writeText [72, 105] (withBits [true, false, true]))))).map
      (fun t => (t.mem.text, t.status)) = some ([], 0x22#8) := by decide

/-! ## MOD -/

/-- R101 at `CFG FS=8 BAUD=2 F1=1 F2=2`: four samples a bit, the 1 Hz tone at eighths of a turn and the 2 Hz tone at
quarters, each from phase 0. -/
theorem test_mod_two_bits :
    (after (exec .mod { small (withBits [false, true]) with cfgBaud := 2, cfgF2 := 2 })).map (·.mem.wave) =
      some ([0, 1 / 8, 1 / 4, 3 / 8, 0, 1 / 4, 1 / 2, 3 / 4].map fun t => .mul (.rat 1) (.sin t)) := by
  decide +kernel

/-- R7: a build with a sine and a number format of its own stores `quant(AMP · SIN(2π·f·n/FS))`. -/
theorem test_mod_own_numbers :
    (after (exec .mod { small (withBits [true]) with
      cfgFs := 2, params := { Params.default with sine := .own, numbers := .own, amp := .unknown 0 } })).map (·.mem.wave) =
      some [.rounded (.mul (.unknown 0) (.ownSin 0)), .rounded (.mul (.unknown 0) (.ownSin (3 / 2)))] := by
  decide +kernel

/-- V37a: `44100 mod 301 = 154`, so `E_CONFIG`. -/
theorem test_mod_config :
    (after (exec .mod { withBits [false, true] with cfgBaud := 301 })).map (fun t => (t.mem.wave, t.status, t.cause)) =
      some ([], 0x40#8, some (.config .notDivisible)) := by decide

/-! ## DEM -/

/-- V59: the two samples `0, 0.7` tie at bins 0 and 1; the least index gives 0. -/
theorem test_dem_tie :
    (after (exec .dem (withWave [.rat 0, .rat (7 / 10)]))).map (·.mem.bits) = some [false] := by decide +kernel

/-- R111 to R116 by hand: windows of two samples at `FS=2`, midpoint 1/2 Hz: `1, -1` peaks at bin 1 (1 Hz), `1, 1` at
bin 0, and the short window of one sample has bin 0 only. -/
theorem test_dem_windows :
    (after (exec .dem { withWave [.rat 1, .rat (-1), .rat 1, .rat 1, .rat (-1)] with
      cfgFs := 2, cfgBaud := 1, cfgF1 := 0, cfgF2 := 1 })).map (·.mem.bits) = some [true, false, false] := by
  decide +kernel

/-- The corner case `L = 1` of R110, for every real: a window of one sample that is not said. -/
theorem test_dem_one_sample :
    (after (exec .dem (withWave [.unknown 0]))).map (·.mem.bits) = some [false] := by decide

/-! ## VAL -/

/-- V63: both ends of the printable range. -/
theorem test_val_range :
    ([31, 32, 126, 127].map fun c => (after (exec .val (withText [c]))).map (·.status)) =
      [some 0x00#8, some 0x02#8, some 0x02#8, some 0x00#8] := by decide

/-- V60. -/
theorem test_val_empty : (after (exec .val State.reset)).map (·.status) = some 0x02#8 := by decide

/-! ## The machine -/

/-- V75: the first step after reset runs the command word `withFetchWord` places. -/
theorem test_step_first : (after (step (State.reset.withFetchWord 8 5))).map (·.status) = some 0x02#8 := by decide

/-- V76: `SPB` reads 0 and `MID2` 4001. -/
theorem test_derived_registers :
    (after (regWrite 1 301 State.reset)).map (fun s => (regRead 10 s).reply) = some (.number 0) ∧
      (after (regWrite 2 1501 State.reset)).map (fun s => (regRead 11 s).reply) = some (.number 4001) := by decide

/-- V78c: a send that `ENC` aborts. -/
theorem test_send_abort :
    (after (steps 2 { State.reset with inbox := [.send [72, 8364], .quiet] })).map
      (fun t => (t.status, t.orch, t.log, t.playbackCalls)) = some (0x10#8, .idle, [.error 1#4], []) := by decide

/-- R35, R57, R130, R156: a text longer than a finite `TEXT` starts its session, which ends with no error code and the
buffers as they were (log 20). -/
theorem test_send_does_not_fit :
    let s := capped (some 2) none none (withText [72, 105])
    (after (takeEvent (.send [65, 66, 67]) s)).map (·.orch.name) = some .Sending ∧
      after (steps 2 { s with inbox := [.send [65, 66, 67], .quiet] }) = some { s with log := [.rejected] } := by decide

/-- R130, R132: a receive listens and captures, whatever `WAVE` can hold, and `Decoding` follows the capture (log 21). -/
theorem test_recv_does_not_fit :
    let s := { capped none none (some 1) (withWave [.rat 1]) with cfgFs := 2, cfgCapdur := 1 }
    (after (takeEvent .recv s)).map (fun t => (t.orch, t.captureCalls.length)) = some (.listening, 1) ∧
      (after (steps 2 { s with inbox := [.recv, .captureDone [.rat 0, .rat 0]] })).map (·.orch.name) = some .Decoding ∧
      (after (steps 3 { s with inbox := [.recv, .captureDone [.rat 0, .rat 0], .quiet] })).map
        (fun t => (t.mem.wave, t.status, t.orch, t.log)) = some ([.rat 1], 0x00#8, .idle, [.rejected]) := by decide

/-- R131, R151: a code point that fits no cell of the build ends the send as every code point above 255 does. -/
theorem test_send_wide_code :
    (after (steps 2 { State.reset with
      params := { Params.default with charW := 9 }, inbox := [.send [72, 8364], .quiet] })).map
      (fun t => (t.status, t.orch, t.log, t.cause)) = some (0x10#8, .idle, [.error 1#4], some (.encoding 1)) := by
  decide +kernel

/-- V81: a receive of nothing is rejected as empty. -/
theorem test_recv_empty :
    (after (steps 7 { State.reset with
      inbox := [.regWrite 4 0, .recv, .captureDone [], .quiet, .quiet, .quiet, .quiet] })).map
      (fun t => (t.status, t.orch, t.log, t.delivered)) = some (0x02#8, .idle, [.rejected], []) := by decide

/-- V83: during the playback wait `STATUS` reads 0x05 after a rejected request. -/
theorem test_busy_rejects :
    (after (takeEvent (.send [120]) (playing State.reset))).map (·.status) = some 0x05#8 := by decide

/-! ## Witnesses: command words and steps -/

theorem witness_IllegalWordsOnlySetErr :
    statusBusy State.reset.status = false ∧ decode State.reset.params.hasSessionLayer 0x00#8 = .error .unassignedOpcode ∧
      decode State.reset.params.hasSessionLayer 0xFF#8 = .error .reservedBits ∧
      decode false 0x05#8 = .error .noSessionLayer := by decide

theorem witness_CommandWriteRunsCommand :
    statusBusy State.reset.status = false ∧ decode State.reset.params.hasSessionLayer 0x01#8 = .ok .enc ∧
      decode State.reset.params.hasSessionLayer 0x05#8 = .ok .val ∧ statusBusy (playing State.reset).status = true := by
  decide

theorem witness_StepRunsDecodedCommand :
    (State.reset.withFetchWord 8 4).inbox = [.regWrite 5 (0x04#8).toNat] ∧ State.reset.inbox = [] ∧
      statusBusy (State.reset.withFetchWord 8 4).status = false ∧
      decode (State.reset.withFetchWord 8 4).params.hasSessionLayer 0x04#8 = .ok .dem := by decide

/-! ## Witnesses: ENC and DEC -/

theorem witness_EncodesText :
    ((∀ c ∈ (capped none (some 8) none (withText [255])).mem.text, c ≤ 255) ∧ Fits (some 8) (8 * [255].length)) ∧
      ((withText [255, 256]).mem.text[1]? = some 256 ∧ 255 < 256 ∧ ∀ d ∈ (withText [255, 256]).mem.text.take 1, d ≤ 255) ∧
      ((∀ c ∈ (capped none (some 7) none (withText [255])).mem.text, c ≤ 255) ∧ ¬ Fits (some 7) (8 * [255].length)) := by
  decide

theorem witness_DecodesBits :
    (hiBits.length % 8 = 0 ∧ Fits (some 2) (hiBits.length / 8)) ∧ (hiBits.take 13).length % 8 ≠ 0 ∧
      (hiBits.length % 8 = 0 ∧ ¬ Fits (some 1) (hiBits.length / 8)) := by decide

theorem witness_DataErrorsHaveOneSource :
    (after (exec .enc (withText [256]))).isSome = true ∧ (after (exec .dec (withBits [true]))).isSome = true ∧
      (∃ c ∈ (setBusy true { withText [256] with orch := .sending .encode }).mem.text, 255 < c) := by decide

theorem witness_CodecRoundTrip :
    statusBusy (capped (some 2) (some 16) none State.reset).status = false ∧
      (capped (some 2) (some 16) none State.reset).params.wf ∧ (∀ c ∈ [0, 255], c ≤ 255) ∧ Fits (some 2) [0, 255].length ∧
      Fits (some 16) (8 * [0, 255].length) ∧ hiBits.length % 8 = 0 ∧ Fits (some 16) hiBits.length ∧
      Fits (some 2) (hiBits.length / 8) := by decide

theorem witness_BitCountInvariant :
    (after (exec .enc (withText [72, 105]))).map (fun t => statusErr t.status) = some 0#4 ∧
      (after (exec .dec (withBits hiBits))).map (fun t => statusErr t.status) = some 0#4 := by decide

/-! ## Witnesses: MOD -/

theorem witness_ModulatesBits :
    (ConfigLegal (small (withBits [true])) ∧ Fits (some 8) ((withBits [true]).mem.bits.length * (8 / 1))) ∧
      ¬ ConfigLegal { withBits [true] with cfgF1 := 2500 } ∧
      (ConfigLegal (small (withBits [true])) ∧ ¬ Fits (some 7) ((withBits [true]).mem.bits.length * (8 / 1))) := by decide

/-- For the clauses about R5's sine and number format. -/
theorem witness_reference_numbers : Params.default.sine = .mathematical ∧ Params.default.numbers = .exact := by decide

/-- For the statements about a successful `MOD`: templates, phase, length, sample counter. -/
theorem witness_successful_mod :
    (after (exec .mod (small (withBits [true, false, true])))).map (fun t => (statusErr t.status, t.mem.wave.length)) =
      some (0#4, 24) := by decide

theorem witness_ConfigurationIsChecked :
    (after (exec .mod { withBits [true] with cfgFs := 0 })).map (fun t => statusErr t.status) = some 4#4 ∧
      (after (exec .dem { withWave [.rat 1] with cfgBaud := 0 })).map (fun t => statusErr t.status) = some 4#4 ∧
      outputSpace .mod = some .wave ∧ outputSpace .dem = some .bits ∧
      (after (exec .enc { withText [1] with cfgFs := 0 })).map (fun t => statusErr t.status) = some 0#4 := by decide

/-! ## Witnesses: DEM -/

theorem witness_DemodulatesWindows :
    (ConfigLegal (small (withWave (List.replicate 9 (.rat 1)))) ∧ Fits (some 2) ((9 + 8 - 1) / 8)) ∧
      ¬ ConfigLegal { withWave [.rat 1] with cfgFs := 0 } ∧
      (ConfigLegal (small (withWave (List.replicate 9 (.rat 1)))) ∧ ¬ Fits (some 1) ((9 + 8 - 1) / 8)) := by decide

theorem witness_SplitSearchDecidesTheBit : State.reset.params.tie = .leastIndex ∧ 0 < [Sample.rat 1].length := by decide

theorem witness_ConstantWaveformGivesZeros :
    ConfigLegal (small (withWave [.rat 1, .rat 1])) ∧ (small (withWave [.rat 1, .rat 1])).params.tie = .leastIndex ∧
      Fits (small (withWave [.rat 1, .rat 1])).params.bitsCap ((2 + 8 - 1) / 8) ∧
      ∀ x ∈ (small (withWave [.rat 1, .rat 1])).mem.wave, x.val = 1 := by
  refine ⟨by decide, by decide, by decide, ?_⟩
  simp [small, withWave, writeWave]

theorem witness_AmplitudeDoesNotMatter :
    (withWave [.rat 1, .rat 3]).params.tie = .leastIndex ∧ (-2 : ℝ) ≠ 0 ∧
      [Sample.rat (-2), .rat (-6)].map Sample.val = (withWave [.rat 1, .rat 3]).mem.wave.map (fun x => -2 * x.val) := by
  refine ⟨by decide, by norm_num, ?_⟩
  norm_num [withWave, writeWave]

theorem witness_RoundTripIsTwoFacts :
    ConfigLegal (small (withBits [false, true])) ∧
      Fits (some 16) ((small (withBits [false, true])).mem.bits.length * spb (small (withBits [false, true]))) ∧
      Fits (some 2) (small (withBits [false, true])).mem.bits.length := by decide

theorem witness_AlignedTonesRoundTrip :
    let s := small (withBits [true])
    0 < s.cfgBaud ∧ s.cfgFs % s.cfgBaud = 0 ∧ s.cfgF1 % s.cfgBaud = 0 ∧ s.cfgF2 % s.cfgBaud = 0 ∧ 0 < s.cfgF1 ∧
      s.cfgF1 < s.cfgF2 ∧ 2 * s.cfgF2 < s.cfgFs ∧ s.params.sine = .mathematical ∧ s.params.numbers = .exact ∧
      s.params.amp = .rat 1 ∧ Fits s.params.waveCap (s.mem.bits.length * spb s) ∧
      Fits s.params.bitsCap s.mem.bits.length := by decide

/-- The amplitude of the three round-trip witnesses. -/
theorem witness_amplitude : (Sample.rat 1).val = 1 ∧ (Sample.rat 1).val ≠ 0 := by simp

theorem witness_ReversedTonesInvert :
    let s := { small (withBits [true]) with cfgF1 := 3, cfgF2 := 1 }
    0 < s.cfgBaud ∧ s.cfgFs % s.cfgBaud = 0 ∧ s.cfgF1 % s.cfgBaud = 0 ∧ s.cfgF2 % s.cfgBaud = 0 ∧ 0 < s.cfgF2 ∧
      s.cfgF2 < s.cfgF1 ∧ 2 * s.cfgF1 < s.cfgFs ∧ s.params.sine = .mathematical ∧ s.params.numbers = .exact ∧
      s.params.amp = .rat 1 ∧
      Fits s.params.waveCap (s.mem.bits.length * spb s) ∧ Fits s.params.bitsCap s.mem.bits.length := by decide

theorem witness_DefaultTonesRoundTrip :
    let s := capped none (some 2) (some 294) (withBits [false, true])
    s.cfgFs = 44100 ∧ s.cfgBaud = 300 ∧ s.cfgF1 = 1500 ∧ s.cfgF2 = 2500 ∧
      s.params.sine = .mathematical ∧ s.params.numbers = .exact ∧ s.params.amp = .rat 1 ∧
      Fits s.params.waveCap (s.mem.bits.length * 147) ∧ Fits s.params.bitsCap s.mem.bits.length := by decide

theorem witness_TrailingWindowSpoilsDecoding :
    let s := small (withWave [.rat 1])
    ConfigLegal s ∧ s.mem.wave.length % spb s ≠ 0 ∧ s.mem.wave.length / spb s % 8 = 0 ∧
      Fits s.params.bitsCap (s.mem.wave.length / spb s + 1) := by decide

theorem witness_WindowedPeakComputesDem :
    let s := { withWave [.rat 1, .rat (-1), .rat 1] with cfgFs := 2, cfgBaud := 1, cfgF1 := 0, cfgF2 := 1 }
    s.params.tie = .leastIndex ∧ (after (exec .dem s)).map (fun t => statusErr t.status) = some 0#4 := by
  decide +kernel

/-! ## Witnesses: errors and status -/

theorem witness_ErrorEntry :
    (after (exec .enc (withText [256]))).map (fun t => statusErr t.status) = some 1#4 ∧
      (after (exec .dec (capped (some 0) none none (withBits hiBits)))).map (fun t => statusErr t.status) = some 6#4 := by
  decide

theorem witness_ErrorPriority :
    statusBusy (playing State.reset).status = true ∧
      (statusBusy State.reset.status = false ∧ decode true 0x06#8 = .error .unassignedOpcode) ∧
      (decode true 0x03#8 = .ok .mod ∧ ¬ ConfigLegal { State.reset with cfgFs := 0 }) ∧
      (decode true 0x01#8 = .ok .enc ∧ ∃ c ∈ (withText [256]).mem.text, 255 < c) ∧
      (decode true 0x02#8 = .ok .dec ∧ (withBits [true]).mem.bits.length % 8 ≠ 0) ∧
      ¬ Fits (capacityOf (capped none (some 7) none (withText [255])).params .bits)
        (neededLength (capped none (some 7) none (withText [255])) .enc) := by decide

theorem witness_CapacityNeverTruncates :
    (after (exec .enc (capped none (some 8) none (withText [255])))).map (fun t => statusErr t.status) = some 0#4 ∧
      (after (exec .enc (capped none (some 7) none (withText [255])))).map (fun t => statusErr t.status) = some 6#4 ∧
      statusBusy (capped none (some 1) none State.reset).status = false ∧
      loadTooLong (capped none (some 1) none State.reset).params (.bits [true, true]) = true ∧
      (after (takeEvent (.regWrite 5 1) (capped none (some 7) none (withText [255])))).map (fun t => statusErr t.status) =
        some 6#4 := by decide

theorem witness_BusyRejectsRequests :
    statusBusy (playing State.reset).status = true ∧ (playing State.reset).params.hasSessionLayer = true ∧
      statusBusy (setRej true State.reset).status = false ∧ (0x04#8 : Byte).getLsbD 2 = true ∧
      (0xFB#8 : Byte).getLsbD 2 = false ∧
      (after (takeEvent (.regWrite 6 0xFB) (setRej true State.reset))).map (·.status) = some 0x04#8 := by decide

theorem witness_StatusFlagsHaveFewWriters :
    (after (takeEvent (.regWrite 6 4) (setRej true State.reset))).map (fun t => statusRej t.status) = some false ∧
      (after (takeEvent .recv (playing State.reset))).map (fun t => statusRej t.status) = some true ∧
      (after (takeEvent (.regWrite 5 5) State.reset)).map (fun t => statusValid t.status) = some true := by decide

/-! ## Witnesses: registers and host access -/

/-- For the register map and the derived registers: idle, the greatest value of the width, and each case of `SPB`. -/
theorem witness_RegisterMap :
    statusBusy State.reset.status = false ∧ 2 ^ 32 - 1 < 2 ^ State.reset.params.cfgW ∧
      State.reset.params.hasSessionLayer = true := by decide

theorem witness_DerivedRegisters :
    (0 < State.reset.cfgBaud ∧ State.reset.cfgFs % State.reset.cfgBaud = 0) ∧
      ¬ (0 < { State.reset with cfgBaud := 0 }.cfgBaud ∧ 44100 % 0 = 0) ∧ ConfigLegal State.reset ∧
      State.reset.cfgF1 < 2 ^ State.reset.params.cfgW ∧ State.reset.cfgF2 < 2 ^ State.reset.params.cfgW := by decide

theorem witness_HostPrimitives :
    let s := capped (some 1) (some 1) (some 1) (writeWave [.rat 1] (writeBits [true] (withText [2 ^ 21 - 1])))
    statusBusy s.status = false ∧ (∀ c ∈ [2 ^ 21 - 1], c < 2 ^ s.params.charW) ∧
      (∃ c ∈ [2 ^ 21], 2 ^ s.params.charW ≤ c) ∧ Fits s.params.textCap 1 ∧
      Fits s.params.bitsCap 1 ∧ Fits s.params.waveCap 1 ∧ loadTooLong s.params (.text [1, 2]) = true ∧
      s.mem.text[0]? = some (2 ^ 21 - 1) ∧ s.mem.bits[0]? = some true ∧ s.mem.wave[0]? = some (.rat 1) ∧
      bufferLen s.mem .wave ≤ 1 ∧ 2 ^ s.params.cfgW ≤ 2 ^ 32 ∧ statusBusy (playing s).status = true := by decide

theorem witness_CommandsReadOnlyTheirInput :
    let s := withText [72]
    let s' := setErr (some (.malformed 1)) (writeWave [.rat 1] { s with cfgFs := 0 })
    s.params = s'.params ∧ bufferOf s.mem (inputSpace .enc) = bufferOf s'.mem (inputSpace .enc) ∧
      (after (exec .enc s)).isSome = true ∧ (after (exec .enc s')).isSome = true ∧
      bufferOf (withBits [true]).mem (inputSpace .mod) = bufferOf (setRej true (withBits [true])).mem (inputSpace .mod) := by
  decide

theorem witness_ConfigurationIsFrozenInFlight :
    (after (takeEvent (.regWrite 0 8000) State.reset)).map (·.cfgFs) = some 8000 ∧
      (after (takeEvent (.regWrite 0 8000) (playing State.reset))).map (·.cfgFs) = some 44100 ∧
      (after (takeEvent .reset (small State.reset))).map (·.cfgFs) = some 44100 := by decide

/-! ## Witnesses: the invariant and the sessions -/

/-- An idle state of a capped build that meets the invariant and is not the reset state. -/
theorem witness_stateInv_idle : StateInv (capped (some 2) (some 16) (some 64) (small (withText [72, 105]))) where
  params := by decide
  cfgFs := by decide
  cfgBaud := by decide
  cfgF1 := by decide
  cfgF2 := by decide
  cfgCapdur := by decide
  mem := by decide
  reserved := by decide
  err := by decide
  busy := by decide
  session := by decide
  conclude := by decide
  delivered := by decide

/-- A state in the middle of a session that meets the invariant. -/
theorem witness_stateInv_playing : StateInv (playing State.reset) where
  params := by decide
  cfgFs := by decide
  cfgBaud := by decide
  cfgF1 := by decide
  cfgF2 := by decide
  cfgCapdur := by decide
  mem := by decide
  reserved := by decide
  err := by decide
  busy := by decide
  session := by decide
  conclude := by decide
  delivered := by decide

/-- A state that waits for a capture. -/
theorem witness_stateInv_listening : StateInv (listening (capped none none (some 220500) State.reset)) where
  params := by decide
  cfgFs := by decide
  cfgBaud := by decide
  cfgF1 := by decide
  cfgF2 := by decide
  cfgCapdur := by decide
  mem := by decide
  reserved := by decide
  err := by decide
  busy := by decide
  session := by decide
  conclude := by decide
  delivered := by decide

theorem witness_StepKeepsInvariant :
    (after (step (capped (some 2) (some 16) (some 64) (small (withText [72, 105]))))).isSome = true := by decide

theorem witness_OrchTransitions :
    (after (takeEvent .playbackDone (playing State.reset))).map (·.orch) = some .idle ∧
      (after (takeEvent .recv State.reset)).map (·.orch) = some .listening ∧
      (after (takeEvent (.send [72]) State.reset)).map (·.orch) = some (.sending .encode) := by decide

theorem witness_EmptySendIsSkipped :
    State.reset.params.hasSessionLayer = true ∧ statusBusy State.reset.status = false ∧
      (∀ c ∈ ([] : List Nat), c ∈ State.reset.params.whiteSpace) ∧
      ∀ c ∈ [9, 13, 32], c ∈ State.reset.params.whiteSpace := by decide

theorem witness_SendSession :
    let s := capped (some 1) (some 8) (some 64) (small State.reset)
    s.orch = .idle ∧ s.params.hasSessionLayer = true ∧
      ¬ Fits s.params.textCap [33, 33].length ∧
      ((∃ c ∈ [33], c ∉ s.params.whiteSpace) ∧ Fits s.params.textCap [33].length ∧
        (∀ c ∈ [33], c ≤ 255) ∧ ConfigLegal s ∧ Fits s.params.bitsCap (8 * [33].length) ∧
        Fits s.params.waveCap (8 * [33].length * spb s)) ∧
      ((∃ c ∈ [256], 255 < c) ∧ 256 < 2 ^ s.params.charW ∧ ∃ c ∈ [2 ^ 21], 255 < c) ∧ ¬ Fits (some 7) (8 * [33].length) ∧
      ¬ ConfigLegal { s with cfgF1 := 3 } ∧ ¬ Fits (some 63) (8 * [33].length * spb s) := by decide

/-- The invariant at the states of the two session witnesses. -/
theorem witness_stateInv_session : StateInv (capped (some 1) (some 8) (some 64) { small State.reset with cfgCapdur := 8 }) where
  params := by decide
  cfgFs := by decide
  cfgBaud := by decide
  cfgF1 := by decide
  cfgF2 := by decide
  cfgCapdur := by decide
  mem := by decide
  reserved := by decide
  err := by decide
  busy := by decide
  session := by decide
  conclude := by decide
  delivered := by decide

theorem witness_RecvSession :
    let s := capped (some 1) (some 8) (some 64) { small State.reset with cfgCapdur := 8 }
    s.orch = .idle ∧ s.params.hasSessionLayer = true ∧ (List.replicate 64 (Sample.rat 0)).length = s.cfgFs * s.cfgCapdur ∧
      (Fits s.params.waveCap 64 ∧ ¬ Fits (some 63) (s.cfgFs * s.cfgCapdur)) ∧
      (demodulate { s with mem := { s.mem with wave := List.replicate 64 (.unknown 0) } }).length = s.cfgBaud * s.cfgCapdur ∧
      (ConfigLegal s ∧ Fits s.params.bitsCap (s.cfgBaud * s.cfgCapdur) ∧ s.cfgBaud * s.cfgCapdur % 8 = 0 ∧
        Fits s.params.textCap (s.cfgBaud * s.cfgCapdur / 8)) ∧
      ¬ ConfigLegal { s with cfgF1 := 3 } ∧ ¬ Fits (some 7) (s.cfgBaud * s.cfgCapdur) ∧ 1 * 7 % 8 ≠ 0 ∧
      ¬ Fits (some 0) (s.cfgBaud * s.cfgCapdur / 8) := by
  refine ⟨by decide, by decide, by decide, by decide, ?_, by decide, by decide, by decide, by decide, by decide⟩
  rw [demodulate, List.length_map, List.length_range]
  decide

theorem witness_RecvAtDefaultsIsMalformed :
    State.reset.orch = .idle ∧ State.reset.params.hasSessionLayer = true ∧ State.reset.cfgFs = 44100 ∧
      State.reset.cfgBaud = 300 ∧ State.reset.cfgCapdur = 5 ∧ State.reset.cfgF1 ≠ State.reset.cfgF2 ∧
      (List.replicate 220500 (Sample.rat 0)).length = 220500 ∧ Fits State.reset.params.waveCap 220500 ∧
      Fits State.reset.params.bitsCap 1500 := by
  refine ⟨rfl, rfl, rfl, rfl, rfl, by decide, List.length_replicate, by decide, by decide⟩

theorem witness_AudioFailureIsFatal :
    (playing State.reset).orch = .sending .playing ∧ (listening State.reset).orch = .listening := by decide

theorem witness_NoRequestDisturbsASession :
    statusBusy (playing State.reset).status = true ∧ (Event.regWrite 6 4).isRequest = true ∧
      (Event.hostLoad (.text [])).isRequest = true ∧ (listening State.reset).orch = .listening := by decide

theorem witness_OutputsOnlyGrow :
    (after (takeEvent .quiet
      (setBusy true (setValid true { withText [72] with orch := .decoding .conclude })))).map (·.delivered) =
      some [[72]] ∧
      (after (takeEvent .quiet (setBusy true { withText [256] with orch := .sending .encode }))).map (·.log) =
        some [.error 1#4] := by decide

theorem witness_SessionsUseNothingOfAnEarlierOne :
    let s := { small State.reset with cfgFs := 1, cfgF1 := 0, cfgF2 := 1, cfgCapdur := 0 }
    s.orch = .idle ∧ ({ s with mem := { text := [256], bits := [true], wave := [.rat 1] } } : State) ≠ s ∧
      (after (steps 4 { s with inbox := [.send [33], .quiet, .quiet, .quiet] })).map (·.orch) = some (.sending .playing) ∧
      (after (steps 6 { s with inbox := [.recv, .captureDone [], .quiet, .quiet, .quiet, .quiet] })).map (·.log) =
        some [.rejected] := by decide

/-! ## Witnesses: the datapath refinements -/

theorem witness_shift_registers :
    (encShifts [72, 105] 16).out = hiBits ∧ (decShifts hiBits).out = [72, 105] ∧ (decShifts (hiBits.take 13)).bitcnt = 5#3 := by
  decide

end Sys2Proof.Tests
end

