-- ==== Sys2Proof/Proofs/RegisterAccess.lean ====
section
/-!
SUPPORT. What an access to a register answers (spec/20_memory.md R57, R58), by what the register map says of its number;
the state after a request that is rejected while busy (spec/60_exceptions.md R157).
-/

namespace Sys2Proof.Laws

open Sys2Proof.Machine

/-! ## Reads -/

/-- Idle, a read of a register that has a value returns it and changes nothing. -/
theorem takeEvent_regRead_of_some {s : State} {n v : Nat} (hidle : statusBusy s.status = false)
    (hv : registerValue s n = some v) : takeEvent (.regRead n) s = .next { s with reply := .number v } := by
  simp [takeEvent, regRead, hidle, hv, answer]

/-- A read of a register that has no value is refused, idle and busy. -/
theorem takeEvent_regRead_of_none {s : State} {n : Nat} (hv : registerValue s n = none) :
    takeEvent (.regRead n) s = .next { s with reply := .refused } := by
  simp [takeEvent, regRead, hv, refuse, answer]

/-! ## Writes -/

/-- Rejecting a request sets `REJ` and changes nothing else of the block. -/
theorem reject_rejected (s : State) : Rejected s (reject s) where
  rej := by simp [reject]
  err := by simp [reject]
  valid := by simp [reject]
  busy := by simp [reject]
  frame := rfl

/-- Busy, a write of a configuration register or of `CMD` is rejected. -/
theorem takeEvent_regWrite_of_busy {s : State} {n : Nat} (v : Nat) (hbusy : statusBusy s.status = true) (hn : n ≤ 5) :
    takeEvent (.regWrite n v) s = .next (reject s) := by
  simp [takeEvent, regWrite, hbusy, hn]

/-- Idle, a write of `CMD` is a command write (R28). -/
theorem takeEvent_regWrite_command {s : State} (v : Nat) (hidle : statusBusy s.status = false) :
    takeEvent (.regWrite 5 v) s = writeCommand v s := by
  simp [takeEvent, regWrite, hidle]

/-- A command write of a word that decodes runs its command. -/
theorem writeCommand_of_decode {s : State} {w : Byte} {i : Instr} (hw : decode s.params.hasSessionLayer w = .ok i) :
    writeCommand w.toNat s = exec i s := by
  have hlt : w.toNat < 256 := w.isLt
  simp [writeCommand, hlt, hw]

end Sys2Proof.Laws
end

