-- ==== Sys2Proof/Proofs/Configuration.lean ====
section
/-!
SUPPORT. The two cases of `SPB` (spec/10_state.md R26), how `MOD` and `DEM` end when the configuration is not legal
(spec/41_modulator.md R104, spec/42_demodulator.md R117), and the reads of the derived registers (R26, R27).
-/

namespace Sys2Proof.Laws

open Sys2Proof.Machine

/-! ## `SPB` and the legal configurations -/

theorem spb_of_exact {s : State} (hbaud : 0 < s.cfgBaud) (hdvd : s.cfgFs % s.cfgBaud = 0) :
    spb s = s.cfgFs / s.cfgBaud := if_pos ⟨hbaud, hdvd⟩

theorem spb_of_not_exact {s : State} (h : ¬ (0 < s.cfgBaud ∧ s.cfgFs % s.cfgBaud = 0)) : spb s = 0 := if_neg h

theorem not_configLegal_of_not_exact {s : State} (h : ¬ (0 < s.cfgBaud ∧ s.cfgFs % s.cfgBaud = 0)) : ¬ ConfigLegal s :=
  fun ⟨_, hbaud, hdvd, _⟩ => h ⟨hbaud, hdvd⟩

/-- A configuration that is not legal has a clause that fails. -/
theorem configFault_of_not_configLegal {s : State} (h : ¬ ConfigLegal s) : ∃ c, configFault s = some c :=
  Option.ne_none_iff_exists'.mp fun hnone => h ((configFault_eq_none_iff s).mp hnone)

/-- An error leaves its own code in `STATUS.ERR`. -/
theorem statusErr_raise (e : Err) (out : Space) (s : State) :
    statusErr (raise e out s).status = errCode (some e) := by
  simp

theorem exec_mod_of_not_configLegal {s : State} (h : ¬ ConfigLegal s) :
    ∃ c, exec .mod s = .next (raise (.config c) .wave s) := by
  obtain ⟨c, hc⟩ := configFault_of_not_configLegal h
  exact ⟨c, by simp [exec, execMod, modFault, hc]⟩

theorem exec_dem_of_not_configLegal {s : State} (h : ¬ ConfigLegal s) :
    ∃ c, exec .dem s = .next (raise (.config c) .bits s) := by
  obtain ⟨c, hc⟩ := configFault_of_not_configLegal h
  exact ⟨c, by simp [exec, execDem, demFault, hc]⟩

/-- `MOD` and `DEM` raise `E_CONFIG` when the configuration is not legal. -/
theorem exec_mod_dem_errConfig {s : State} (h : ¬ ConfigLegal s) :
    (∃ t, exec .mod s = .next t ∧ statusErr t.status = 4#4) ∧ ∃ t, exec .dem s = .next t ∧ statusErr t.status = 4#4 := by
  obtain ⟨c, hmod⟩ := exec_mod_of_not_configLegal h
  obtain ⟨d, hdem⟩ := exec_dem_of_not_configLegal h
  exact ⟨⟨_, hmod, statusErr_raise _ _ _⟩, _, hdem, statusErr_raise _ _ _⟩

/-! ## Reads of the derived registers -/

/-- Idle, register 10 reads `SPB`. -/
theorem takeEvent_regRead_spb {s : State} (hidle : statusBusy s.status = false) :
    takeEvent (.regRead 10) s = .next { s with reply := .number (spb s) } :=
  takeEvent_regRead_of_some hidle rfl

/-- Idle, register 11 reads `MID2`. -/
theorem takeEvent_regRead_mid2 {s : State} (hidle : statusBusy s.status = false) :
    takeEvent (.regRead 11) s = .next { s with reply := .number (s.cfgF1 + s.cfgF2) } :=
  takeEvent_regRead_of_some hidle rfl

end Sys2Proof.Laws
end

