-- ==== Sys2Proof/Proofs/StateFamily.lean ====
section
/-!
PROOFS. The statements about the state (spec/10_state.md): the `CMD` write (R28), the derived registers (R26, R27) and
the reset state (R40).
-/

namespace Sys2Proof.Proofs

open Sys2Proof.Machine Sys2Proof.Laws

/-- Settles O4: idle, the write is the command of the word; `CMD` has no value to read; busy, the write is rejected. -/
theorem commandWriteRunsCommand : Obligations.CommandWriteRunsCommand := by
  unfold Obligations.CommandWriteRunsCommand
  refine ⟨fun s w i hidle hw => ?_, fun s => takeEvent_regRead_of_none rfl, fun s v hbusy => ?_⟩
  · rw [takeEvent_regWrite_command _ hidle, writeCommand_of_decode hw]
  · exact ⟨reject s, takeEvent_regWrite_of_busy v hbusy le_rfl, reject_rejected s⟩

/-- Settles O32: register 10 reads `SPB` and register 11 `MID2`, and each clause is a value of one of them. -/
theorem derivedRegisters : Obligations.DerivedRegisters := by
  unfold Obligations.DerivedRegisters
  intro s hidle
  rw [takeEvent_regRead_spb hidle, takeEvent_regRead_mid2 hidle]
  refine ⟨?divides, ?otherwise, ?positive, rfl, ?width, ?defaultSpb, ?defaultMid2⟩
  case divides =>
    intro hbaud hdvd
    rw [spb_of_exact hbaud hdvd]
  case otherwise =>
    intro h
    exact ⟨by rw [spb_of_not_exact h], exec_mod_dem_errConfig (not_configLegal_of_not_exact h)⟩
  case positive =>
    intro hlegal
    rw [← spb_of_legal hlegal]
    exact spb_pos hlegal
  case width =>
    intro hf1 hf2
    rw [pow_succ]
    omega
  case defaultSpb =>
    intro hfs hbaud
    rw [spb, hfs, hbaud]
    rfl
  case defaultMid2 =>
    intro hf1 hf2
    rw [hf1, hf2]

/-- Settles O38: every field of the reset state is a literal, and the derived values and lengths compute from them. -/
theorem resetState : Obligations.ResetState := by
  unfold Obligations.ResetState
  decide

end Sys2Proof.Proofs
end

