-- ==== Sys2Proof/Proofs/MemoryFamily.lean ====
section
/-!
PROOFS. The statement about the spaces and their access (spec/20_memory.md): the refused register accesses (R58), with
the two facts of the register map it needs, that no register has a number of 12 or above and that those of 7 or above
cannot be written.
-/

namespace Sys2Proof.Laws

open Sys2Proof.Machine

/-- The register map ends at 11: a register number of 12 or above has no value. -/
theorem registerValue_of_twelve_le (s : State) {n : Nat} (hn : 12 ≤ n) : registerValue s n = none := by
  obtain ⟨k, rfl⟩ := Nat.exists_eq_add_of_le' hn
  rfl

/-- A write of register 7 or above, read-only or not there, is refused, idle and busy. -/
theorem takeEvent_regWrite_of_seven_le (s : State) {n : Nat} (v : Nat) (hn : 7 ≤ n) :
    takeEvent (.regWrite n v) s = .next { s with reply := .refused } := by
  have hconfig : ¬ n ≤ 4 := by omega
  have hrequest : ¬ n ≤ 5 := by omega
  have hcmd : n ≠ 5 := by omega
  have hstatus : n ≠ 6 := by omega
  cases hbusy : statusBusy s.status <;>
    simp [takeEvent, regWrite, refuse, answer, hbusy, hconfig, hrequest, hcmd, hstatus]

end Sys2Proof.Laws

namespace Sys2Proof.Proofs

open Sys2Proof.Machine Sys2Proof.Laws

/-- Settles O33: a number of 12 or above and `CMD` have no value to read, and no register of 7 or above is written. -/
theorem refusedRegisterAccess : Obligations.RefusedRegisterAccess := by
  unfold Obligations.RefusedRegisterAccess
  intro s n v
  exact ⟨fun hn => takeEvent_regRead_of_none (registerValue_of_twelve_le s hn), takeEvent_regRead_of_none rfl,
    takeEvent_regWrite_of_seven_le s v⟩

end Sys2Proof.Proofs
end

