-- ==== Sys2Proof/Proofs/EncodingFamily.lean ====
section
/-!
PROOFS. The statements about command words (spec/30_encoding.md R70 to R72): the two fields of a word as numbers, which
words are illegal, and what writing an illegal word to `CMD` does (spec/60_exceptions.md R155).
-/

namespace Sys2Proof.Laws

open Sys2Proof.Machine

/-! ## The fields of a command word as numbers -/

/-- The reserved bits are all 0 exactly in the words below 8. -/
theorem reservedField_eq_zero_iff (w : Byte) : reservedField w = 0#5 ↔ w.toNat < 8 := by
  have hlt : w.toNat < 256 := w.isLt
  have hfield : (reservedField w).toNat = w.toNat / 8 := by
    simp only [reservedField, BitVec.extractLsb'_toNat, Nat.shiftRight_eq_div_pow]
    omega
  rw [← BitVec.toNat_inj, hfield, BitVec.toNat_ofNat]
  omega

@[simp] theorem opcodeField_toNat (w : Byte) : (opcodeField w).toNat = w.toNat % 8 := by
  simp [opcodeField]

/-- R71's table leaves 000, 110 and 111 unassigned. -/
theorem opcodeInstr_eq_none_iff (op : BitVec 3) :
    opcodeInstr op = none ↔ op.toNat = 0 ∨ op.toNat = 6 ∨ op.toNat = 7 := by
  revert op
  decide

theorem opcodeInstr_eq_val_iff (op : BitVec 3) : opcodeInstr op = some .val ↔ op.toNat = 5 := by
  revert op
  decide

/-- `VAL` without the session layer is the one command a build can lack. -/
theorem wellFormed_eq_false_iff (hs : Bool) (i : Instr) : wellFormed hs i = false ↔ i = .val ∧ hs = false := by
  cases i <;> simp [wellFormed]

/-! ## Illegal words -/

/-- R72's three ways to be illegal, by the fields of the word. -/
theorem decode_error_iff_fields (hs : Bool) (w : Byte) :
    (∃ e, decode hs w = .error e) ↔
      reservedField w ≠ 0#5 ∨ opcodeInstr (opcodeField w) = none ∨
        (opcodeInstr (opcodeField w) = some .val ∧ hs = false) := by
  by_cases hres : reservedField w = 0#5
  case neg => simp [decode, hres]
  case pos =>
    cases hop : opcodeInstr (opcodeField w) with
    | none => simp [decode, hres, hop]
    | some i => cases hwf : wellFormed hs i <;> simp [decode, hres, hop, hwf, ← wellFormed_eq_false_iff]

/-- R72, by the word as a number. -/
theorem decode_error_iff (hs : Bool) (w : Byte) :
    (∃ e, decode hs w = .error e) ↔
      8 ≤ w.toNat ∨ w.toNat % 8 = 0 ∨ w.toNat % 8 = 6 ∨ w.toNat % 8 = 7 ∨ (w.toNat % 8 = 5 ∧ hs = false) := by
  rw [decode_error_iff_fields, ne_eq, reservedField_eq_zero_iff, opcodeInstr_eq_none_iff, opcodeInstr_eq_val_iff,
    opcodeField_toNat, not_lt]
  simp only [or_assoc]

/-! ## The number of illegal words -/

/-- Whether the command word of a number is illegal. -/
def isIllegalWord (hs : Bool) (v : Nat) : Bool := (decode hs (BitVec.ofNat 8 v)).toOption.isNone

theorem isIllegalWord_iff (hs : Bool) (v : Nat) :
    isIllegalWord hs v = true ↔ ∃ e, decode hs (BitVec.ofNat 8 v) = .error e := by
  unfold isIllegalWord
  cases decode hs (BitVec.ofNat 8 v) <;> simp [Except.toOption]

/-- A number from 8 to 255 has a reserved bit that is 1. -/
theorem isIllegalWord_of_reserved (hs : Bool) {v : Nat} (hreserved : 8 ≤ v) (hbyte : v < 256) :
    isIllegalWord hs v = true := by
  rw [isIllegalWord_iff, decode_error_iff, BitVec.toNat_ofNat, Nat.mod_eq_of_lt hbyte]
  exact .inl hreserved

/-- The 248 words with a reserved bit that is 1 are all illegal, so only the 8 opcodes are left to count. -/
theorem countP_isIllegalWord (hs : Bool) :
    (List.range 256).countP (isIllegalWord hs) = (List.range 8).countP (isIllegalWord hs) + 248 := by
  have hall : ∀ k ∈ List.range 248, (isIllegalWord hs ∘ (8 + ·)) k = true := fun k hk =>
    isIllegalWord_of_reserved hs (Nat.le_add_right 8 k) (Nat.add_lt_add_left (List.mem_range.mp hk) 8)
  rw [show 256 = 8 + 248 from rfl, List.range_add, List.countP_append, List.countP_map, List.countP_eq_length.mpr hall,
    List.length_range]

theorem countP_isIllegalWord_session : (List.range 256).countP (isIllegalWord true) = 251 := by
  rw [countP_isIllegalWord]
  decide

theorem countP_isIllegalWord_noSession : (List.range 256).countP (isIllegalWord false) = 252 := by
  rw [countP_isIllegalWord]
  decide

/-! ## The write of an illegal word -/

/-- A command write of an illegal word raises `E_ILLEGAL` (R155). -/
theorem writeCommand_of_decode_error {s : State} {w : Byte} {e : IllegalWord}
    (hw : decode s.params.hasSessionLayer w = .error e) : writeCommand w.toNat s = .next (raiseIllegal w s) := by
  have hlt : w.toNat < 256 := w.isLt
  simp [writeCommand, hlt, hw]

end Sys2Proof.Laws

namespace Sys2Proof.Proofs

open Sys2Proof.Machine Sys2Proof.Laws

/-- Settles O2: the classification is `decode_error_iff`, the two numbers follow from it by counting opcodes, and the
write is `raiseIllegal`. -/
theorem illegalWordsOnlySetErr : Obligations.IllegalWordsOnlySetErr := by
  unfold Obligations.IllegalWordsOnlySetErr
  refine ⟨decode_error_iff, countP_isIllegalWord_session, countP_isIllegalWord_noSession, fun s w e hidle hw =>
    ⟨raiseIllegal w s, ?written, ?_⟩⟩
  case written => rw [takeEvent_regWrite_command _ hidle, writeCommand_of_decode_error hw]
  refine ⟨?err, ?valid, ?rej, ?busy, rfl⟩
  all_goals simp [hidle]

/-- Settles O1: each word is its command's own, which every build that has the command decodes. -/
theorem commandWordsAreAssigned : Obligations.CommandWordsAreAssigned := by
  unfold Obligations.CommandWordsAreAssigned
  exact ⟨fun hs => ⟨Roundtrip.enc hs rfl, Roundtrip.dec hs rfl, Roundtrip.mod hs rfl, Roundtrip.dem hs rfl⟩,
    Roundtrip.val true rfl, rfl, ⟨rfl, rfl⟩, ⟨rfl, rfl⟩, ⟨rfl, rfl⟩, ⟨rfl, rfl⟩, rfl, rfl⟩

end Sys2Proof.Proofs
end

