-- ==== Sys2Proof/Proofs/CommandEnds.lean ====
section
/-!
SUPPORT. The two ends of a command in the terms of statements: `complete` gives `Completed`, `raise` gives `Failed`
(spec/60_exceptions.md R159); and a load that fits replaces its buffer (spec/20_memory.md R57).
-/

namespace Sys2Proof.Laws

open Sys2Proof.Machine

/-- A command that has written its buffers and completes leaves a `Completed` state. -/
theorem complete_completed (s : State) (m : Memory) : Completed s (complete { s with mem := m }) where
  err := by simp
  cause := rfl
  busy := by simp
  rej := by simp
  reserved := by simp
  frame := rfl

theorem raise_failed (e : Err) (out : Space) (s : State) : Failed (errCode (some e)) out e s (raise e out s) where
  err := statusErr_raise e out s
  cause := by simp
  busy := by simp
  valid := by simp
  rej := by simp
  reserved := by simp
  cleared := by rw [raise_mem, bufferLen_clearBuffer]
  others space hne := by rw [raise_mem, bufferOf_clearBuffer_of_ne hne]
  frame := by rw [raise_eq]

/-- An error never leaves `ERR` at `OK`. -/
theorem statusErr_raise_ne_zero (e : Err) (out : Space) (s : State) : statusErr (raise e out s).status ≠ 0#4 := by
  rw [statusErr_raise, ne_eq, errCode_eq_zero_iff]
  exact Option.some_ne_none e

/-- Idle, a load that fits replaces its buffer. -/
theorem takeEvent_hostLoad_of_fits {s : State} {data : BufferData} (hidle : statusBusy s.status = false)
    (hfit : loadFits s.params data = true) : takeEvent (.hostLoad data) s = .next (loadBuffer data s) := by
  simp [takeEvent, hostLoad, hidle, hfit]

end Sys2Proof.Laws
end

