-- ==== Sys2Proof/Proofs/BitCodecLaws.lean ====
section
/-!
SUPPORT. `ENC` and `DEC` (spec/40_bit_codec.md): the three ways each ends (R90, R91), the cells each puts out, and that
the two codes are inverse (R92).
-/

namespace Sys2Proof.Laws

open Sys2Proof.Machine

/-! ## How `ENC` ends -/

/-- The encoding error names the least offending index (R158). -/
theorem firstUnencodable_of_least {text : List Nat} {i c : Nat} (hc : text[i]? = some c) (hbig : 255 < c)
    (hleast : ∀ j d, j < i → text[j]? = some d → d ≤ 255) : firstUnencodable 0 text = some i := by
  cases hfirst : firstUnencodable 0 text with
  | none =>
    have := (firstUnencodable_eq_none_iff 0 text).mp hfirst c (List.mem_of_getElem? hc)
    omega
  | some k =>
    obtain ⟨n, d, rfl, hd, hdbig, hbefore⟩ := firstUnencodable_eq_some 0 k text hfirst
    rw [Nat.zero_add]
    congr 1
    rcases Nat.lt_trichotomy n i with hlt | heq | hgt
    · have := hleast n d hlt hd
      omega
    · exact heq
    · have htake : (text.take n)[i]? = some c := by rw [List.getElem?_take_of_lt hgt, hc]
      have := hbefore c (List.mem_of_getElem? htake)
      omega

theorem exec_enc_of_unencodable {s : State} {i : Nat} (h : firstUnencodable 0 s.mem.text = some i) :
    exec .enc s = .next (raise (.encoding i) .bits s) := by
  simp [exec, execEnc, encFault, h]

theorem exec_enc_of_not_fits {s : State} (hcodes : ∀ c ∈ s.mem.text, c ≤ 255)
    (hcap : ¬ Fits s.params.bitsCap (8 * s.mem.text.length)) :
    exec .enc s = .next (raise (.capacity (8 * s.mem.text.length)) .bits s) := by
  simp [exec, execEnc, encFault, (firstUnencodable_eq_none_iff 0 _).mpr hcodes, (exceeds_eq_true_iff _ _).mpr hcap]

theorem exec_enc_of_fits {s : State} (hcodes : ∀ c ∈ s.mem.text, c ≤ 255)
    (hcap : Fits s.params.bitsCap (8 * s.mem.text.length)) :
    exec .enc s = .next (complete (writeBits (encodeText s.mem.text) s)) := by
  have hnone : encFault s = none := (encFault_eq_none_iff s).mpr ⟨hcodes, (exceeds_eq_false_iff _ _).mpr hcap⟩
  simp [exec, execEnc, hnone]

/-- `ERR` is `OK` after `ENC` only when `ENC` wrote the encoding. -/
theorem exec_enc_of_ok {s t : State} (h : exec .enc s = .next t) (hok : statusErr t.status = 0#4) :
    t = complete (writeBits (encodeText s.mem.text) s) := by
  obtain ⟨e, -, h'⟩ | ⟨-, h'⟩ := exec_enc_cases s <;> rw [h'] at h <;> cases h
  · exact absurd hok (statusErr_raise_ne_zero e .bits s)
  · rfl

/-! ## How `DEC` ends -/

theorem exec_dec_of_partial_group {s : State} (h : s.mem.bits.length % 8 ≠ 0) :
    exec .dec s = .next (raise (.malformed s.mem.bits.length) .text s) := by
  simp [exec, execDec, decFault, h]

theorem exec_dec_of_not_fits {s : State} (h : s.mem.bits.length % 8 = 0)
    (hcap : ¬ Fits s.params.textCap (s.mem.bits.length / 8)) :
    exec .dec s = .next (raise (.capacity (s.mem.bits.length / 8)) .text s) := by
  simp [exec, execDec, decFault, h, (exceeds_eq_true_iff _ _).mpr hcap]

theorem exec_dec_of_fits {s : State} (h : s.mem.bits.length % 8 = 0)
    (hcap : Fits s.params.textCap (s.mem.bits.length / 8)) :
    exec .dec s = .next (complete (writeText (decodeBits s.mem.bits) s)) := by
  have hnone : decFault s = none := (decFault_eq_none_iff s).mpr ⟨h, (exceeds_eq_false_iff _ _).mpr hcap⟩
  simp [exec, execDec, hnone]

/-- `DEC` raises `E_MALFORMED` exactly on a length that is no multiple of 8. -/
theorem exec_dec_errMalformed_iff {s t : State} (h : exec .dec s = .next t) :
    statusErr t.status = 2#4 ↔ s.mem.bits.length % 8 ≠ 0 := by
  by_cases hlen : s.mem.bits.length % 8 = 0
  case neg =>
    rw [exec_dec_of_partial_group hlen] at h
    cases h
    simp [errCode, hlen]
  case pos =>
    by_cases hcap : Fits s.params.textCap (s.mem.bits.length / 8)
    · rw [exec_dec_of_fits hlen hcap] at h
      cases h
      simp [hlen]
    · rw [exec_dec_of_not_fits hlen hcap] at h
      cases h
      simp [errCode, hlen]

/-- `ERR` is `OK` after `DEC` only when the stream is whole groups and `DEC` wrote their characters. -/
theorem exec_dec_of_ok {s t : State} (h : exec .dec s = .next t) (hok : statusErr t.status = 0#4) :
    s.mem.bits.length % 8 = 0 ∧ t = complete (writeText (decodeBits s.mem.bits) s) := by
  obtain ⟨e, -, h'⟩ | ⟨hnone, h'⟩ := exec_dec_cases s <;> rw [h'] at h <;> cases h
  · exact absurd hok (statusErr_raise_ne_zero e .text s)
  · obtain ⟨hlen, -⟩ := (decFault_eq_none_iff s).mp hnone
    exact ⟨hlen, rfl⟩

/-! ## The cells put out -/

theorem encodeText_cons (c : Nat) (text : List Nat) : encodeText (c :: text) = charBits c ++ encodeText text := rfl

/-- Cell `8i + j` of an encoding is bit `7 - j` of character `i`. -/
theorem encodeText_getElem? {text : List Nat} {i c j : Nat} (hc : text[i]? = some c) (hj : j < 8) :
    (encodeText text)[8 * i + j]? = some (c.testBit (7 - j)) := by
  induction text generalizing i with
  | nil => simp at hc
  | cons d text ih =>
    rw [encodeText_cons]
    cases i with
    | zero =>
      obtain rfl : d = c := by simpa using hc
      rw [Nat.mul_zero, Nat.zero_add, List.getElem?_append_left (by simpa using hj), charBits_getElem? d hj]
    | succ i =>
      rw [List.getElem?_append_right (by rw [charBits_length]; omega), charBits_length,
        show 8 * (i + 1) + j - 8 = 8 * i + j by omega]
      exact ih hc

theorem decodeBits_getElem? {bits : List Bit} {i : Nat} (hi : i < bits.length / 8) :
    (decodeBits bits)[i]? = some (groupValue (memRead bits (8 * i) 8)) := by
  simp [decodeBits, hi]

theorem groupValue_eq_sum (g : List Bit) :
    groupValue g = ∑ j ∈ Finset.range 8, (g.getD j false).toNat * 2 ^ (7 - j) := rfl

/-- A group's code point is the weighted sum of the stream's cells (R74). -/
theorem groupValue_memRead (bits : List Bit) (i : Nat) :
    groupValue (memRead bits i 8) = ∑ j ∈ Finset.range 8, (bits.getD (i + j) false).toNat * 2 ^ (7 - j) := by
  rw [groupValue_eq_sum]
  refine Finset.sum_congr rfl fun j hj => ?_
  rw [List.getD_eq_getElem?_getD, List.getD_eq_getElem?_getD, memRead,
    List.getElem?_take_of_lt (Finset.mem_range.mp hj), List.getElem?_drop]

/-! ## The two codes are inverse -/

@[simp] theorem decodeBits_nil : decodeBits [] = [] := rfl

/-- Decoding takes the groups one after another. -/
theorem decodeBits_group_append {g : List Bit} (hg : g.length = 8) (bits : List Bit) :
    decodeBits (g ++ bits) = groupValue g :: decodeBits bits := by
  have hlen : (g ++ bits).length / 8 = bits.length / 8 + 1 := by rw [List.length_append, hg]; omega
  have hfirst : memRead (g ++ bits) (8 * 0) 8 = g := by simp [memRead, ← hg]
  have hrest (i : Nat) : memRead (g ++ bits) (8 * (i + 1)) 8 = memRead bits (8 * i) 8 := by
    rw [memRead, memRead, show 8 * (i + 1) = g.length + 8 * i by omega, List.drop_length_add_append]
  simp only [decodeBits, hlen, List.range_succ_eq_map, List.map_cons, List.map_map, hfirst, Function.comp_def, hrest]

/-- Induction along the groups of a stream that is whole groups. -/
theorem groups_induction {motive : ∀ bits : List Bit, bits.length % 8 = 0 → Prop} (nil : motive [] rfl)
    (group : ∀ g bits (hg : g.length = 8) (h : bits.length % 8 = 0), motive bits h →
      motive (g ++ bits) (by rw [List.length_append]; omega)) (bits : List Bit) (h : bits.length % 8 = 0) :
    motive bits h := by
  obtain ⟨n, hn⟩ := Nat.dvd_of_mod_eq_zero h
  induction n generalizing bits with
  | zero =>
    obtain rfl := List.length_eq_zero_iff.mp hn
    exact nil
  | succ n ih =>
    obtain ⟨g, rest, rfl, hg⟩ : ∃ g rest, bits = g ++ rest ∧ g.length = 8 :=
      ⟨bits.take 8, bits.drop 8, (List.take_append_drop 8 bits).symm, by rw [List.length_take]; omega⟩
    have hrest : rest.length = 8 * n := by rw [List.length_append] at hn; omega
    have hwhole : rest.length % 8 = 0 := by omega
    exact group g rest hg hwhole (ih rest hwhole hrest)

theorem decodeBits_encodeText {text : List Nat} (h : ∀ c ∈ text, c ≤ 255) : decodeBits (encodeText text) = text := by
  induction text with
  | nil => rfl
  | cons c text ih =>
    obtain ⟨hc, htext⟩ := List.forall_mem_cons.mp h
    rw [encodeText_cons, decodeBits_group_append (charBits_length c), groupValue_charBits (Nat.lt_succ_of_le hc),
      ih htext]

theorem encodeText_decodeBits {bits : List Bit} (h : bits.length % 8 = 0) : encodeText (decodeBits bits) = bits := by
  induction bits, h using groups_induction with
  | nil => rfl
  | group g bits hg _ ih => rw [decodeBits_group_append hg, encodeText_cons, charBits_groupValue hg, ih]

end Sys2Proof.Laws
end

