-- ==== Sys2Proof/Proofs/BitCodecFamily.lean ====
section
/-!
PROOFS. The statements about `ENC` and `DEC` (spec/40_bit_codec.md R90 to R93).
-/

namespace Sys2Proof.Proofs

open Sys2Proof.Machine Sys2Proof.Laws

/-- Settles O6: the three clauses are the three ends of `ENC`. -/
theorem encodesText : Obligations.EncodesText := by
  unfold Obligations.EncodesText
  refine fun s => ⟨fun hcodes hcap => ?success, fun i c hc hbig hleast => ?encoding, fun hcodes hcap => ?capacity⟩
  case success =>
    exact ⟨_, exec_enc_of_fits hcodes hcap, complete_completed s _, by simp, by simp, by simp,
      fun i c hc j hj => encodeText_getElem? hc hj⟩
  case encoding =>
    exact ⟨_, exec_enc_of_unencodable (firstUnencodable_of_least hc hbig hleast), raise_failed (.encoding i) .bits s⟩
  case capacity => exact ⟨_, exec_enc_of_not_fits hcodes hcap, raise_failed (.capacity _) .bits s⟩

/-- Settles O7: the three clauses are the three ends of `DEC`. -/
theorem decodesBits : Obligations.DecodesBits := by
  unfold Obligations.DecodesBits
  refine fun s => ⟨fun hlen hcap => ?success, fun hlen => ?malformed, fun hlen hcap => ?capacity⟩
  case success =>
    refine ⟨_, exec_dec_of_fits hlen hcap, complete_completed s _, by simp, by simp, by simp, fun i hi => ?_⟩
    rw [← groupValue_memRead]
    exact decodeBits_getElem? hi
  case malformed => exact ⟨_, exec_dec_of_partial_group hlen, raise_failed (.malformed _) .text s⟩
  case capacity => exact ⟨_, exec_dec_of_not_fits hlen hcap, raise_failed (.capacity _) .text s⟩

/-- Settles O9: each way loads, runs the two commands without a fault, and ends in a code and its inverse. -/
theorem codecRoundTrip : Obligations.CodecRoundTrip := by
  unfold Obligations.CodecRoundTrip
  refine ⟨fun s text hidle ⟨_, hcharW⟩ hcodes htext hbits => ?text, fun s bits hidle hlen hbits htext => ?bits⟩
  case text =>
    have hwide : 2 ^ 8 < 2 ^ s.params.charW := Nat.pow_lt_pow_right one_lt_two hcharW
    have hload : loadFits s.params (.text text) = true :=
      (loadFits_text_iff _ _).mpr ⟨fun c hc => (Nat.lt_succ_of_le (hcodes c hc)).trans hwide, htext⟩
    refine ⟨_, _, _, takeEvent_hostLoad_of_fits hidle hload, exec_enc_of_fits hcodes hbits,
      exec_dec_of_fits ?_ ?_, decodeBits_encodeText hcodes, by simp⟩
    · simp [loadBuffer]
    · simpa [loadBuffer] using htext
  case bits =>
    have hload : loadFits s.params (.bits bits) = true := (loadFits_bits_iff _ _).mpr hbits
    have hcodes : ∀ c ∈ decodeBits bits, c ≤ 255 := fun c hc => Nat.le_of_lt_succ (decodeBits_lt hc)
    have hfit : Fits s.params.bitsCap (8 * (decodeBits bits).length) := by
      rwa [decodeBits_length, Nat.mul_div_cancel' (Nat.dvd_of_mod_eq_zero hlen)]
    exact ⟨_, _, _, takeEvent_hostLoad_of_fits hidle hload, exec_dec_of_fits hlen htext,
      exec_enc_of_fits hcodes hfit, encodeText_decodeBits hlen, by simp⟩

/-- Settles O10: a success wrote an encoding or a decoding, whose length is known. -/
theorem bitCountInvariant : Obligations.BitCountInvariant := by
  unfold Obligations.BitCountInvariant
  refine ⟨fun s t h hok => ?enc, fun s t h hok => ?dec⟩
  case enc =>
    rw [exec_enc_of_ok h hok]
    exact encodeText_length s.mem.text
  case dec =>
    obtain ⟨hlen, rfl⟩ := exec_dec_of_ok h hok
    exact ⟨decodeBits_length s.mem.bits, hlen⟩

end Sys2Proof.Proofs
end

