-- ==== Sys2Proof/Proofs/ShiftRegisters.lean ====
section
/-!
PROOFS. `ENC` and `DEC` as shift registers (spec/40_bit_codec.md R94, R95): what eight shifts of either register do from
a group boundary, and by induction along the characters or the groups what all shifts do.
-/

namespace Sys2Proof.Laws

open Sys2Proof.Machine

/-! ## The parallel-load shift register of `ENC` -/

/-- The bits of a character, most significant first, are those of the register it is loaded into. -/
theorem charBits_eq_register (c : Nat) :
    charBits c = (List.range 8).map fun j => (BitVec.ofNat 8 c).getLsbD (7 - j) := by
  refine List.map_congr_left fun j _ => ?_
  have hbit : 7 - j < 8 := by omega
  rw [BitVec.getLsbD_ofNat, decide_eq_true hbit, Bool.true_and]

/-- From a group boundary, eight shifts load the next character and put out its bits. -/
theorem encTick_eight (text : List Nat) {d : EncDatapath} (h : d.bitcnt = 0#3) :
    ((encTick text)^[8] d).out = d.out ++ charBits (text.getD d.index 0) ∧ ((encTick text)^[8] d).bitcnt = 0#3 ∧
      ((encTick text)^[8] d).index = d.index + 1 := by
  simp [Function.iterate_succ, encTick, encLoaded, h, charBits_eq_register, List.range_succ]

theorem encShifts_add_eight (text : List Nat) (k : Nat) :
    encShifts text (k + 8) = (encTick text)^[8] (encShifts text k) := rfl

/-- Eight shifts a character put out the encoding of the characters so far, back at a group boundary. -/
theorem encShifts_groups (text : List Nat) {n : Nat} (hn : n ≤ text.length) :
    (encShifts text (8 * n)).out = encodeText (text.take n) ∧ (encShifts text (8 * n)).bitcnt = 0#3 ∧
      (encShifts text (8 * n)).index = n := by
  induction n with
  | zero => exact ⟨rfl, rfl, rfl⟩
  | succ n ih =>
    obtain ⟨hout, hbitcnt, hindex⟩ := ih (Nat.le_of_succ_le hn)
    obtain ⟨hout', hbitcnt', hindex'⟩ := encTick_eight text hbitcnt
    rw [Nat.mul_succ, encShifts_add_eight]
    refine ⟨?_, hbitcnt', by rw [hindex', hindex]⟩
    rw [hout', hout, hindex, List.getD_eq_getElem _ _ hn, List.take_succ_eq_append_getElem hn, encodeText_append]
    rfl

/-! ## The serial-in shift register of `DEC` -/

theorem decShifted_toNat (d : DecDatapath) (b : Bit) :
    (decShifted d b).toNat = (2 * d.sr.toNat + b.toNat) % 256 := by
  have hbit : ((BitVec.ofBool b).setWidth 8).toNat = b.toNat := by revert b; decide
  rw [decShifted, BitVec.toNat_add, BitVec.toNat_shiftLeft, hbit, Nat.shiftLeft_eq, Nat.mod_add_mod, Nat.mul_comm]

/-- From a group boundary, eight cells put out the group's code point: by then what the register held is shifted out. -/
theorem decTick_eight {d : DecDatapath} (hd : d.bitcnt = 0#3) {group : List Bit} (hg : group.length = 8) :
    (group.foldl decTick d).bitcnt = 0#3 ∧ (group.foldl decTick d).out = d.out ++ [groupValue group] := by
  match group, hg with
  | [b₀, b₁, b₂, b₃, b₄, b₅, b₆, b₇], _ =>
    have hlt := groupValue_lt [b₀, b₁, b₂, b₃, b₄, b₅, b₆, b₇]
    have hvalue : ([b₀, b₁, b₂, b₃, b₄, b₅, b₆, b₇].foldl decTick d).sr.toNat =
        groupValue [b₀, b₁, b₂, b₃, b₄, b₅, b₆, b₇] := by
      simp only [groupValue_cons8, List.foldl_cons, List.foldl_nil, decTick, decShifted_toNat] at hlt ⊢
      omega
    rw [← hvalue]
    simp [decTick, hd]

/-- `BITCNT` counts the cells modulo 8. -/
theorem decTicks_bitcnt (bits : List Bit) (d : DecDatapath) :
    (bits.foldl decTick d).bitcnt = d.bitcnt + BitVec.ofNat 3 bits.length := by
  induction bits generalizing d with
  | nil => simp
  | cons b bits ih =>
    rw [List.foldl_cons, ih, List.length_cons, Nat.add_comm, BitVec.ofNat_add, ← BitVec.add_assoc]
    rfl

/-- `BITCNT` is back at 0 exactly when the cells are whole groups. -/
theorem decShifts_bitcnt_eq_zero_iff (bits : List Bit) : (decShifts bits).bitcnt = 0#3 ↔ bits.length % 8 = 0 := by
  have hcount : (decShifts bits).bitcnt.toNat = bits.length % 8 := by
    simp [decShifts, decTicks_bitcnt, DecDatapath.start]
  rw [← BitVec.toNat_inj, hcount]
  rfl

/-- From a group boundary, whole groups put out what they decode to. -/
theorem decTicks_out {bits : List Bit} (hlen : bits.length % 8 = 0) {d : DecDatapath} (hd : d.bitcnt = 0#3) :
    (bits.foldl decTick d).out = d.out ++ decodeBits bits := by
  induction bits, hlen using groups_induction generalizing d with
  | nil => simp
  | group g bits hg _ ih =>
    obtain ⟨hbitcnt, hout⟩ := decTick_eight hd hg
    rw [List.foldl_append, ih hbitcnt, hout, decodeBits_group_append hg, List.append_assoc, List.singleton_append]

theorem decShifts_out {bits : List Bit} (hlen : bits.length % 8 = 0) : (decShifts bits).out = decodeBits bits :=
  decTicks_out hlen rfl

end Sys2Proof.Laws

namespace Sys2Proof.Proofs

open Sys2Proof.Machine Sys2Proof.Laws

/-- Settles O51: all the characters are shifted out, and a successful `ENC` wrote their encoding. -/
theorem shiftOutComputesEnc : Obligations.ShiftOutComputesEnc := by
  unfold Obligations.ShiftOutComputesEnc
  intro s t h hok
  obtain ⟨hout, hbitcnt, hindex⟩ := encShifts_groups s.mem.text le_rfl
  refine ⟨?_, hbitcnt, hindex⟩
  rw [hout, List.take_length, exec_enc_of_ok h hok]
  rfl

/-- Settles O52: `BITCNT` and `E_MALFORMED` both tell a partial group, and a successful `DEC` had whole groups. -/
theorem shiftInComputesDec : Obligations.ShiftInComputesDec := by
  unfold Obligations.ShiftInComputesDec
  refine fun s t h => ⟨?malformed, fun hok => ?success⟩
  case malformed => rw [exec_dec_errMalformed_iff h, ne_eq, decShifts_bitcnt_eq_zero_iff]
  case success =>
    obtain ⟨hlen, rfl⟩ := exec_dec_of_ok h hok
    exact decShifts_out hlen

end Sys2Proof.Proofs
end

