-- ==== Sys2Proof/Proofs/CommandFaults.lean ====
section
/-!
SUPPORT. The error of a command as one function, the code it leaves in `STATUS.ERR`, and which commands can raise
`E_CONFIG` (spec/60_exceptions.md R150, R154, R159).
-/

namespace Sys2Proof.Laws

open Sys2Proof.Machine

/-- The error a command raises, if any; `VAL` has none (R125). -/
def commandFault : Instr → State → Option Err
  | .enc, s => encFault s
  | .dec, s => decFault s
  | .mod, s => modFault s
  | .dem, s => demFault s
  | .val, _ => none

/-- A command that has an error raises it on its own output buffer; one that has none ends with `ERR` `OK`. -/
theorem exec_ends {i : Instr} {s t : State} (h : exec i s = .next t) :
    (∃ e out, commandFault i s = some e ∧ outputSpace i = some out ∧ t = raise e out s) ∨
      commandFault i s = none ∧ statusErr t.status = 0#4 := by
  cases i with
  | enc =>
    obtain ⟨e, he, h'⟩ | ⟨hnone, h'⟩ := exec_enc_cases s <;> rw [h'] at h <;> cases h
    · exact .inl ⟨e, .bits, he, rfl, rfl⟩
    · exact .inr ⟨hnone, by simp⟩
  | dec =>
    obtain ⟨e, he, h'⟩ | ⟨hnone, h'⟩ := exec_dec_cases s <;> rw [h'] at h <;> cases h
    · exact .inl ⟨e, .text, he, rfl, rfl⟩
    · exact .inr ⟨hnone, by simp⟩
  | mod =>
    obtain ⟨e, he, h'⟩ | ⟨hnone, h'⟩ := exec_mod_cases s <;> rw [h'] at h <;> cases h
    · exact .inl ⟨e, .wave, he, rfl, rfl⟩
    · exact .inr ⟨hnone, by simp⟩
  | dem =>
    obtain ⟨e, he, h'⟩ | ⟨hnone, h'⟩ := exec_dem_cases s <;> rw [h'] at h <;> cases h
    · exact .inl ⟨e, .bits, he, rfl, rfl⟩
    · exact .inr ⟨hnone, by simp⟩
  | val =>
    rw [exec_val_eq] at h
    cases h
    exact .inr ⟨rfl, by simp⟩

/-- After a command `STATUS.ERR` is the code of its error. -/
theorem statusErr_exec {i : Instr} {s t : State} (h : exec i s = .next t) :
    statusErr t.status = errCode (commandFault i s) := by
  obtain ⟨e, out, he, -, rfl⟩ | ⟨hnone, hok⟩ := exec_ends h
  · rw [he, statusErr_raise]
  · rw [hnone, hok, errCode]

/-- A command that has an error raises it on its own output buffer. -/
theorem exec_eq_raise {i : Instr} {s t : State} {e : Err} {out : Space} (h : exec i s = .next t)
    (he : commandFault i s = some e) (hout : outputSpace i = some out) : t = raise e out s := by
  obtain ⟨e', out', he', hout', rfl⟩ | ⟨hnone, -⟩ := exec_ends h
  · rw [he] at he'
    rw [hout] at hout'
    cases he'
    cases hout'
    rfl
  · simp [he] at hnone

/-! ## `E_CONFIG` -/

theorem errCode_eq_config_iff (e : Option Err) : errCode e = 4#4 ↔ ∃ c, e = some (.config c) := by
  rcases e with _ | e
  · simp [errCode]
  · cases e <;> simp [errCode]

theorem modFault_eq_config_iff (s : State) (c : ConfigClause) :
    modFault s = some (.config c) ↔ configFault s = some c := by
  rw [modFault]
  cases configFault s <;> simp

theorem demFault_eq_config_iff (s : State) (c : ConfigClause) :
    demFault s = some (.config c) ↔ configFault s = some c := by
  rw [demFault]
  cases configFault s <;> simp

theorem encFault_ne_config (s : State) (c : ConfigClause) : encFault s ≠ some (.config c) := by
  rw [encFault]
  cases firstUnencodable 0 s.mem.text <;> simp

theorem decFault_ne_config (s : State) (c : ConfigClause) : decFault s ≠ some (.config c) := by
  rw [decFault]
  split_ifs <;> simp

/-- A clause fails exactly when the configuration is not legal. -/
theorem exists_configFault_iff (s : State) : (∃ c, configFault s = some c) ↔ ¬ ConfigLegal s := by
  rw [← configFault_eq_none_iff, ← ne_eq, Option.ne_none_iff_exists']

theorem commandFault_config_iff {i : Instr} (hi : i = .mod ∨ i = .dem) (s : State) :
    (∃ c, commandFault i s = some (.config c)) ↔ ¬ ConfigLegal s := by
  rw [← exists_configFault_iff]
  rcases hi with rfl | rfl
  · exact exists_congr (modFault_eq_config_iff s)
  · exact exists_congr (demFault_eq_config_iff s)

theorem commandFault_ne_config {i : Instr} (hmod : i ≠ .mod) (hdem : i ≠ .dem) (s : State) (c : ConfigClause) :
    commandFault i s ≠ some (.config c) := by
  cases i with
  | enc => exact encFault_ne_config s c
  | dec => exact decFault_ne_config s c
  | mod => exact absurd rfl hmod
  | dem => exact absurd rfl hdem
  | val => exact (Option.some_ne_none _).symm

end Sys2Proof.Laws
end

