-- ==== Sys2Proof/Proofs/ModulatorLaws.lean ====
section
/-!
SUPPORT. `MOD` (spec/41_modulator.md): the ways it ends besides `E_CONFIG` (R100), the cells it puts out (R100 to R102),
and the real tones (R101).
-/

namespace Sys2Proof.Laws

open Sys2Proof.Machine

/-! ## How `MOD` ends -/

theorem exec_mod_of_not_fits {s : State} (hlegal : ConfigLegal s)
    (hcap : ¬ Fits s.params.waveCap (s.mem.bits.length * spb s)) :
    exec .mod s = .next (raise (.capacity (s.mem.bits.length * spb s)) .wave s) := by
  simp [exec, execMod, modFault, (configFault_eq_none_iff s).mpr hlegal, (exceeds_eq_true_iff _ _).mpr hcap]

theorem exec_mod_of_fits {s : State} (hlegal : ConfigLegal s)
    (hcap : Fits s.params.waveCap (s.mem.bits.length * spb s)) :
    exec .mod s = .next (complete (writeWave (modulate s) s)) := by
  have hnone : modFault s = none := (modFault_eq_none_iff s).mpr ⟨hlegal, (exceeds_eq_false_iff _ _).mpr hcap⟩
  simp [exec, execMod, hnone]

/-- `ERR` is `OK` after `MOD` only when the configuration is legal and `MOD` wrote the waveform. -/
theorem exec_mod_of_ok {s t : State} (h : exec .mod s = .next t) (hok : statusErr t.status = 0#4) :
    ConfigLegal s ∧ t = complete (writeWave (modulate s) s) := by
  obtain ⟨e, -, h'⟩ | ⟨hnone, h'⟩ := exec_mod_cases s <;> rw [h'] at h <;> cases h
  · exact absurd hok (statusErr_raise_ne_zero e .wave s)
  · obtain ⟨hlegal, -⟩ := (modFault_eq_none_iff s).mp hnone
    exact ⟨hlegal, rfl⟩

/-! ## The cells put out -/

/-- Where all parts of a concatenation have `k` cells, cell `i·k + n` is cell `n` of part `i`. -/
theorem flatMap_getElem?_of_length {α β : Type} {f : α → List β} {k : Nat} (hk : ∀ a, (f a).length = k)
    {l : List α} {i : Nat} {a : α} (ha : l[i]? = some a) {n : Nat} (hn : n < k) :
    (l.flatMap f)[i * k + n]? = (f a)[n]? := by
  induction l generalizing i with
  | nil => simp at ha
  | cons c l ih =>
    rw [List.flatMap_cons]
    cases i with
    | zero =>
      obtain rfl : c = a := by simpa using ha
      rw [Nat.zero_mul, Nat.zero_add, List.getElem?_append_left (by rwa [hk])]
    | succ i =>
      rw [Nat.succ_mul, Nat.add_right_comm, List.getElem?_append_right (by rw [hk]; omega), hk, Nat.add_sub_cancel]
      exact ih ha

theorem bitSegment_getElem? (s : State) (b : Bit) {n : Nat} (hn : n < spb s) :
    (bitSegment s b)[n]? = some (tone s.params s.cfgFs (toneOf s b) n) := by
  simp [bitSegment, hn]

/-- Cell `i·SPB + n` of a waveform is sample `n` of the tone of bit `i` (R100). -/
theorem modulate_getElem? {s : State} {i n : Nat} {b : Bit} (hb : s.mem.bits[i]? = some b) (hn : n < spb s) :
    (modulate s)[i * spb s + n]? = some (tone s.params s.cfgFs (toneOf s b) n) := by
  rw [modulate, flatMap_getElem?_of_length (bitSegment_length s) hb hn, bitSegment_getElem? s b hn]

/-- The values of a segment (R101). -/
theorem bitSegment_map_val (s : State) (b : Bit) :
    (bitSegment s b).map Sample.val = (List.range (spb s)).map (realTone s.params s.cfgFs (toneOf s b)) := by
  rw [bitSegment, List.map_map]
  exact List.map_congr_left fun n _ => val_tone s.params s.cfgFs (toneOf s b) n

/-- A bit's segment is one of two templates. -/
theorem modulate_eq_templates (s : State) :
    modulate s = s.mem.bits.flatMap fun b => if b then bitSegment s true else bitSegment s false := by
  rw [modulate]
  congr 1
  funext b
  cases b <;> rfl

/-! ## Tones in the default sine and number format -/

section
variable {p : Params} (hsine : p.sine = .mathematical) (hexact : p.numbers = .exact)
include hsine hexact

theorem realTone_eq_sin (fs f n : Nat) : realTone p fs f n = p.amp.val * Real.sin (2 * Real.pi * f * n / fs) := by
  simp [realTone, storedAs, sineFn, hsine, hexact]

/-- A tone begins at phase 0 (R102). -/
theorem realTone_zero (fs f : Nat) : realTone p fs f 0 = 0 := by
  simp [realTone_eq_sin hsine hexact]

/-- A tone stays within the amplitude (R101). -/
theorem abs_realTone_le (fs f n : Nat) : |realTone p fs f n| ≤ |p.amp.val| := by
  rw [realTone_eq_sin hsine hexact, abs_mul]
  exact mul_le_of_le_one_right (abs_nonneg _) (Real.abs_sin_le_one _)

end

theorem realTone_default (fs f n : Nat) :
    realTone Params.default fs f n = Real.sin (2 * Real.pi * f * n / fs) := by
  rw [realTone_eq_sin rfl rfl]
  simp [Params.default]

end Sys2Proof.Laws
end

