-- ==== Sys2Proof/Proofs/ModulatorFamily.lean ====
section
/-!
PROOFS. The statements about `MOD` (spec/41_modulator.md R100 to R104).
-/

namespace Sys2Proof.Proofs

open Sys2Proof.Machine Sys2Proof.Laws

/-- Settles O11: the three clauses are the three ends of `MOD`. -/
theorem modulatesBits : Obligations.ModulatesBits := by
  unfold Obligations.ModulatesBits
  refine fun s => ⟨fun hlegal hcap => ?success, fun hillegal => ?config, fun hlegal hcap => ?capacity⟩
  case success =>
    rw [← spb_of_legal hlegal] at hcap ⊢
    exact ⟨_, exec_mod_of_fits hlegal hcap, complete_completed s _, by simp, by simp, by simp,
      fun i b n hb hn => ⟨_, modulate_getElem? hb hn, val_tone _ _ _ _⟩⟩
  case config =>
    obtain ⟨c, hc⟩ := exec_mod_of_not_configLegal hillegal
    exact ⟨_, c, hc, raise_failed (.config c) .wave s⟩
  case capacity =>
    rw [← spb_of_legal hlegal] at hcap ⊢
    exact ⟨_, exec_mod_of_not_fits hlegal hcap, raise_failed (.capacity _) .wave s⟩

/-- Settles O12: the templates are the segments of the two bits. -/
theorem waveformIsTwoTemplates : Obligations.WaveformIsTwoTemplates := by
  unfold Obligations.WaveformIsTwoTemplates
  refine ⟨fun s t h hok => ?templates, fun p fs f n hsine hexact =>
    ⟨realTone_zero hsine hexact fs f, abs_realTone_le hsine hexact fs f n⟩⟩
  case templates =>
    obtain ⟨hlegal, rfl⟩ := exec_mod_of_ok h hok
    rw [← spb_of_legal hlegal]
    exact ⟨bitSegment s false, bitSegment s true, bitSegment_map_val s false, bitSegment_map_val s true,
      modulate_eq_templates s⟩

/-- Settles O13: a segment's samples depend on its bit alone and the first is the tone's first; at the defaults a bit
lasts 5 turns of the 1500 Hz tone and 8 turns and a third of the 2500 Hz tone. -/
theorem phaseRestarts : Obligations.PhaseRestarts := by
  unfold Obligations.PhaseRestarts
  refine ⟨fun s t h hok => ?segments, ?tone1500, ?tone2500⟩
  case segments =>
    obtain ⟨hlegal, rfl⟩ := exec_mod_of_ok h hok
    rw [← spb_of_legal hlegal]
    refine ⟨modulate_length s, fun i b hb => ⟨_, modulate_getElem? hb (spb_pos hlegal), val_tone _ _ _ _, ?_⟩,
      fun i j b n hi hj hn => (modulate_getElem? hi hn).trans (modulate_getElem? hj hn).symm⟩
    intro hsine hexact
    rw [val_tone, realTone_zero hsine hexact]
  case tone1500 =>
    have hturns : 2 * Real.pi * (1500 : ℕ) * (147 : ℕ) / (44100 : ℕ) = (10 : ℕ) * Real.pi := by push_cast; ring
    rw [realTone_default, hturns, Real.sin_nat_mul_pi]
  case tone2500 =>
    have hturns : 2 * Real.pi * (2500 : ℕ) * (147 : ℕ) / (44100 : ℕ) = 2 * Real.pi / 3 + (8 : ℕ) * (2 * Real.pi) := by
      push_cast; ring
    rw [realTone_default, hturns, Real.sin_add_nat_mul_two_pi]

/-- Settles O14: the length is that of the segments, and a legal `SPB` divides `FS` exactly. -/
theorem waveLengthInvariant : Obligations.WaveLengthInvariant := by
  unfold Obligations.WaveLengthInvariant
  intro s t h hok
  obtain ⟨hlegal, rfl⟩ := exec_mod_of_ok h hok
  have hspb : spb s * s.cfgBaud = s.cfgFs := spb_mul_baud hlegal
  refine ⟨modulate_length s, hspb, ?interval, fun hfs hbaud hbits => ?defaults⟩
  case interval =>
    have hpos : (spb s : ℝ) ≠ 0 := by exact_mod_cast (spb_pos hlegal).ne'
    change (spb s : ℝ) / s.cfgFs = 1 / s.cfgBaud
    rw [← hspb, Nat.cast_mul, div_mul_cancel_left₀ hpos, one_div]
  case defaults =>
    have hdefault : spb s = 147 := by rw [spb_of_legal hlegal, hfs, hbaud]
    change (modulate s).length = 2352
    rw [modulate_length, hbits, hdefault]

/-- Settles O15: the code 4 in `ERR` says that the command's error is of the configuration, which `MOD` and `DEM` have
exactly when a clause fails and no other command has. -/
theorem configurationIsChecked : Obligations.ConfigurationIsChecked := by
  unfold Obligations.ConfigurationIsChecked
  refine ⟨fun i s t out hi hout h => ?checked, fun i s t hmod hdem h herr => ?others⟩
  case checked =>
    rw [statusErr_exec h, errCode_eq_config_iff]
    refine ⟨commandFault_config_iff hi s, fun ⟨c, hc⟩ => ⟨c, ?_⟩⟩
    rw [exec_eq_raise h hc hout]
    exact raise_failed (.config c) out s
  case others =>
    rw [statusErr_exec h, errCode_eq_config_iff] at herr
    obtain ⟨c, hc⟩ := herr
    exact commandFault_ne_config hmod hdem s c hc

end Sys2Proof.Proofs
end

