-- ==== Sys2Proof/Proofs/SampleCounter.lean ====
section
/-!
PROOFS. `MOD` as a dual-tone generator with a sample counter (spec/41_modulator.md R105): what the samples of one bit do
from a bit boundary, for the counter and the accumulator, and by induction along the bits what all samples do.
-/

namespace Sys2Proof.Laws

open Sys2Proof.Machine

/-- The first `n` samples of a bit's tone. -/
def toneSamples (s : State) (b : Bit) (n : Nat) : List Sample :=
  (List.range n).map (tone s.params s.cfgFs (toneOf s b))

theorem toneSamples_spb (s : State) (b : Bit) : toneSamples s b (spb s) = bitSegment s b := rfl

theorem toneSamples_succ (s : State) (b : Bit) (n : Nat) :
    toneSamples s b (n + 1) = toneSamples s b n ++ [tone s.params s.cfgFs (toneOf s b) n] := by
  simp [toneSamples, List.range_succ]

/-- The datapath once the cells `w` and, of bit `i`, which is `b`, `n` samples are put out. -/
def midBit (s : State) (i : Nat) (b : Bit) (w : List Sample) (n : Nat) : ModDatapath where
  index := i
  sampcnt := n
  phase := mkRat (toneOf s b * n) s.cfgFs
  counted := w ++ toneSamples s b n
  accumulated := w ++ toneSamples s b n

/-- The datapath at a bit boundary, once the bits before bit `i` have put out the cells `w`. -/
def bitBoundary (i : Nat) (w : List Sample) : ModDatapath where
  index := i
  sampcnt := 0
  phase := 0
  counted := w
  accumulated := w

theorem midBit_zero (s : State) (i : Nat) (b : Bit) (w : List Sample) : midBit s i b w 0 = bitBoundary i w := by
  simp [midBit, bitBoundary, toneSamples]

/-- One more step of the accumulator is the phase of the counter's next sample: its arithmetic is exact. -/
theorem mkRat_mul_succ (f n : Int) (fs : Nat) :
    mkRat (f * n) fs + mkRat f fs = mkRat (f * (n + 1)) fs := by
  simp only [Rat.mkRat_eq_div]
  push_cast
  ring

section
variable {s : State} {i : Nat} {b : Bit} (hb : s.mem.bits[i]? = some b) (w : List Sample)
include hb

theorem modWord_midBit (n : Nat) : modWord s (midBit s i b w n) = toneOf s b := by
  simp [modWord, midBit, hb]

/-- A sample that is not the last of its bit. -/
theorem modTick_midBit {n : Nat} (hn : n + 1 ≠ spb s) : modTick s (midBit s i b w n) = midBit s i b w (n + 1) := by
  rw [modTick, modWord_midBit hb]
  simp [midBit, hn, toneSamples_succ, mkRat_mul_succ, tone]

/-- The last sample of a bit: the counter and the accumulator are cleared. -/
theorem modTick_midBit_last {n : Nat} (hn : n + 1 = spb s) :
    modTick s (midBit s i b w n) = bitBoundary (i + 1) (w ++ bitSegment s b) := by
  have hsegment : bitSegment s b = toneSamples s b n ++ [tone s.params s.cfgFs (toneOf s b) n] := by
    rw [← toneSamples_spb, ← hn, toneSamples_succ]
  rw [modTick, modWord_midBit hb, hsegment]
  simp [midBit, bitBoundary, hn, tone]

/-- From a bit boundary, fewer samples than a bit has stay within the bit. -/
theorem modTicks_within_bit {k n : Nat} (hk : modTicks s k = bitBoundary i w) (hn : n < spb s) :
    modTicks s (k + n) = midBit s i b w n := by
  induction n with
  | zero => rw [Nat.add_zero, hk, midBit_zero]
  | succ n ih => rw [← Nat.add_assoc, modTicks, ih (Nat.lt_of_succ_lt hn), modTick_midBit hb w hn.ne]

/-- From a bit boundary, `SPB` samples put out the bit's segment and reach the next boundary. -/
theorem modTicks_bit (hspb : 0 < spb s) {k : Nat} (hk : modTicks s k = bitBoundary i w) :
    modTicks s (k + spb s) = bitBoundary (i + 1) (w ++ bitSegment s b) := by
  obtain ⟨m, hm⟩ := Nat.exists_eq_add_one.mpr hspb
  rw [hm, ← Nat.add_assoc, modTicks, modTicks_within_bit hb w hk (by omega), modTick_midBit_last hb w hm.symm]

end

/-- `SPB` samples a bit put out the segments of the bits so far, back at a bit boundary. -/
theorem modTicks_bits {s : State} (hspb : 0 < spb s) {i : Nat} (hi : i ≤ s.mem.bits.length) :
    modTicks s (i * spb s) = bitBoundary i ((s.mem.bits.take i).flatMap (bitSegment s)) := by
  induction i with
  | zero => simp [modTicks, ModDatapath.start, bitBoundary]
  | succ i ih =>
    have hb : s.mem.bits[i]? = some s.mem.bits[i] := List.getElem?_eq_getElem hi
    rw [Nat.succ_mul, modTicks_bit hb _ hspb (ih (Nat.le_of_succ_le hi)), List.take_succ_eq_append_getElem hi,
      List.flatMap_append, List.flatMap_singleton]

end Sys2Proof.Laws

namespace Sys2Proof.Proofs

open Sys2Proof.Machine Sys2Proof.Laws

/-- Settles O53: all the bits are put out, and a successful `MOD` wrote their segments. -/
theorem sampleCounterComputesMod : Obligations.SampleCounterComputesMod := by
  unfold Obligations.SampleCounterComputesMod
  intro s t h hok
  obtain ⟨hlegal, rfl⟩ := exec_mod_of_ok h hok
  rw [modTicks_bits (spb_pos hlegal) le_rfl, List.take_length]
  exact ⟨rfl, rfl, rfl, rfl⟩

end Sys2Proof.Proofs
end

