-- ==== Sys2Proof/Proofs/DemodulatorLaws.lean ====
section
/-!
SUPPORT. `DEM` (spec/42_demodulator.md): the ways it ends besides `E_CONFIG` (R110), the bits it puts out (R111), the
peak bin of a window (R113) and the two forms of the comparison that classifies it (R115).
-/

namespace Sys2Proof.Laws

open Sys2Proof.Machine

/-! ## How `DEM` ends -/

theorem exec_dem_of_not_fits {s : State} (hlegal : ConfigLegal s) (hcap : ¬ Fits s.params.bitsCap (windowCount s)) :
    exec .dem s = .next (raise (.capacity (windowCount s)) .bits s) := by
  simp [exec, execDem, demFault, (configFault_eq_none_iff s).mpr hlegal, (exceeds_eq_true_iff _ _).mpr hcap]

theorem exec_dem_of_fits {s : State} (hlegal : ConfigLegal s) (hcap : Fits s.params.bitsCap (windowCount s)) :
    exec .dem s = .next (complete (writeBits (demodulate s) s)) := by
  have hnone : demFault s = none := (demFault_eq_none_iff s).mpr ⟨hlegal, (exceeds_eq_false_iff _ _).mpr hcap⟩
  simp [exec, execDem, hnone]

/-- `ERR` is `OK` after `DEM` only when the configuration is legal and `DEM` wrote the bits of the windows. -/
theorem exec_dem_of_ok {s t : State} (h : exec .dem s = .next t) (hok : statusErr t.status = 0#4) :
    ConfigLegal s ∧ t = complete (writeBits (demodulate s) s) := by
  obtain ⟨e, -, h'⟩ | ⟨hnone, h'⟩ := exec_dem_cases s <;> rw [h'] at h <;> cases h
  · exact absurd hok (statusErr_raise_ne_zero e .bits s)
  · obtain ⟨hlegal, -⟩ := (demFault_eq_none_iff s).mp hnone
    exact ⟨hlegal, rfl⟩

/-! ## The bits put out -/

/-- Bit `w` is that of window `w` (R110, R111). -/
theorem demodulate_getElem? {s : State} {w : Nat} (hw : w < windowCount s) :
    (demodulate s)[w]? = some (classify s (window s w)) := by
  simp [demodulate, hw]

/-! ## The peak -/

/-- The least-index rule leaves one peak bin (R113). -/
theorem isPeakBin_unique {x : List ℝ} {k l : Nat} (hk : IsPeakBin x k) (hl : IsPeakBin x l) : k = l := by
  obtain ⟨-, hkmax, hkleast⟩ := hk
  obtain ⟨-, hlmax, hlleast⟩ := hl
  rcases lt_trichotomy k l with hlt | heq | hgt
  · obtain ⟨j, hj, hbeaten⟩ := hlleast k hlt
    exact absurd (hkmax j hj) hbeaten.not_ge
  · exact heq
  · obtain ⟨j, hj, hbeaten⟩ := hkleast l hgt
    exact absurd (hlmax j hj) hbeaten.not_ge

theorem peakBin_isPeakBin {tie : Tie} (htie : tie = .leastIndex) {x : List Sample} (hx : 0 < x.length) :
    IsPeakBin (x.map Sample.val) (peakBin tie x) := by
  subst htie
  exact (leastPeak_isPeakBin x hx).1

/-! ## Classification -/

/-- R115's comparison without a division. -/
theorem classify_iff (s : State) (x : List Sample) :
    classify s x = true ↔
      mid2 s * x.length ≤ 2 * absBin (peakBin s.params.tie x) x.length * s.cfgFs := decide_eq_true_iff

/-- The comparison of the dominant frequency with the midpoint of the tones (R115). -/
theorem classify_iff_dominantFrequency (s : State) {x : List Sample} (hx : 0 < x.length) :
    classify s x = true ↔
      ((s.cfgF1 : ℝ) + s.cfgF2) / 2 ≤ dominantFrequency s.cfgFs x.length (peakBin s.params.tie x) := by
  have hlen : (0 : ℝ) < x.length := by exact_mod_cast hx
  rw [classify_iff, mid2, dominantFrequency, div_le_div_iff₀ two_pos hlen, ← Nat.cast_le (α := ℝ), mul_comm 2,
    mul_right_comm]
  push_cast
  rfl

end Sys2Proof.Laws
end

