-- ==== Sys2Proof/Proofs/DemodulatorFamily.lean ====
section
/-!
PROOFS. The statement about `DEM` (spec/42_demodulator.md R110 to R117).
-/

namespace Sys2Proof.Proofs

open Sys2Proof.Machine Sys2Proof.Laws

/-- Settles O16: the three clauses are the three ends of `DEM`; a window's bit is classified at its peak bin, and that
is a bin of greatest magnitude of the real spectrum. -/
theorem demodulatesWindows : Obligations.DemodulatesWindows := by
  unfold Obligations.DemodulatesWindows
  refine fun s => ⟨fun hlegal hcap => ?success, fun hillegal => ?config, fun hlegal hcap => ?capacity⟩
  case success =>
    refine ⟨_, exec_dem_of_fits hlegal hcap, complete_completed s _, by simp, rfl, demodulate_length s,
      fun w hw => ?_⟩
    have hpos : 0 < (window s w).length := window_length_pos (spb_pos hlegal) hw
    refine ⟨(window s w).length, (window s w).map Sample.val, peakBin s.params.tie (window s w),
      classify s (window s w), window_length s w, hpos, ?_, List.length_map _, (peakBin_isGreatestBin _ _ hpos).1,
      fun htie => peakBin_isPeakBin htie hpos, demodulate_getElem? hw, classify_iff_dominantFrequency s hpos,
      classify_iff s (window s w)⟩
    rw [window_length]
    rfl
  case config =>
    obtain ⟨c, hc⟩ := exec_dem_of_not_configLegal hillegal
    exact ⟨_, c, hc, raise_failed (.config c) .bits s⟩
  case capacity =>
    exact ⟨_, exec_dem_of_not_fits hlegal hcap, raise_failed (.capacity _) .bits s⟩

end Sys2Proof.Proofs
end

