-- ==== Sys2Proof/Proofs/WindowedPeak.lean ====
section
/-!
PROOFS. `DEM` as a windowed peak detector (spec/42_demodulator.md R122): the running peak over all bins ends at the peak
bin of the window, so closing a window emits its bit; by induction along the windows, all samples emit the bits of the
full windows and leave the trailing short one in the store, which the end of the waveform closes.
-/

namespace Sys2Proof.Laws

open Sys2Proof.Machine

/-! ## The running peak -/

theorem scanPeak_append (x : List Sample) (ks ls : List Nat) (peak : Nat) :
    scanPeak x (ks ++ ls) peak = scanPeak x ls (scanPeak x ks peak) := by
  induction ks generalizing peak with
  | nil => rfl
  | cons k ks ih => exact ih _

/-- The running peak is that of a scan of the same bins, with its magnitude. -/
theorem runningPeak_eq_scanPeak (x : List Sample) (n : Nat) :
    runningPeak x n = (magSq x (scanPeak x (List.range' 1 n) 0), scanPeak x (List.range' 1 n) 0) := by
  induction n with
  | zero => rfl
  | succ n ih =>
    rw [runningPeak, ih, List.range'_1_concat, Nat.add_comm 1 n, scanPeak_append]
    dsimp only [scanPeak]
    split <;> rfl

/-- A scan of all bins ends at the peak bin (R113). -/
theorem scanPeak_isPeakBin {x : List Sample} (hx : 0 < x.length) :
    IsPeakBin (x.map Sample.val) (scanPeak x (List.range' 1 (x.length - 1)) 0) := by
  obtain ⟨hlt, hmax, hleast⟩ := scanPeak_spec x (x.length - 1) 1 0 one_pos
    (fun j hj => by rw [Nat.lt_one_iff.mp hj]) (fun j hj => absurd hj (Nat.not_lt_zero j))
  rw [Nat.add_sub_cancel' hx] at hlt hmax
  rw [IsPeakBin, List.length_map]
  exact ⟨hlt, hmax, fun k hk => ⟨_, hlt, hleast k hk⟩⟩

/-- Scanning the upper half too changes nothing (R121b). -/
theorem runningPeak_eq_leastPeak {x : List Sample} (hx : 0 < x.length) :
    (runningPeak x (x.length - 1)).2 = leastPeak x := by
  rw [runningPeak_eq_scanPeak]
  exact isPeakBin_unique (scanPeak_isPeakBin hx) (leastPeak_isPeakBin x hx).1

/-! ## The windows -/

/-- The registers when `out` is put out and the window store holds `store`. -/
def filling (out : List Bit) (store : List Sample) : DemDatapath where
  sampcnt := store.length
  store := store
  out := out

/-- The bits of the first `w` windows. -/
def windowBits (s : State) (w : Nat) : List Bit := (List.range w).map fun i => classify s (window s i)

theorem windowBits_succ (s : State) (w : Nat) : windowBits s (w + 1) = windowBits s w ++ [classify s (window s w)] := by
  simp [windowBits, List.range_succ]

theorem demodulate_eq_windowBits (s : State) : demodulate s = windowBits s (windowCount s) := rfl

/-- A window of `SPB` cells is `SPB` cells of the waveform (R111). -/
theorem window_of_full {s : State} {w : Nat} (h : (w + 1) * spb s ≤ s.mem.wave.length) :
    window s w = (s.mem.wave.drop (w * spb s)).take (spb s) := by
  have hmin : min (spb s) (s.mem.wave.length - w * spb s) = spb s := by
    rw [Nat.succ_mul] at h
    omega
  rw [window, hmin, memRead]

/-- The trailing short window is what is left of the waveform (R116). -/
theorem window_of_short {s : State} {w : Nat} (h : s.mem.wave.length ≤ (w + 1) * spb s) :
    window s w = s.mem.wave.drop (w * spb s) := by
  have hmin : min (spb s) (s.mem.wave.length - w * spb s) = (s.mem.wave.drop (w * spb s)).length := by
    rw [Nat.succ_mul] at h
    rw [List.length_drop]
    omega
  rw [window, hmin, memRead, List.take_length]

/-- A waveform of full windows has no other window (R111). -/
theorem windowCount_of_full {s : State} {w : Nat} (hspb : 0 < spb s) (h : s.mem.wave.length = w * spb s) :
    windowCount s = w := by
  refine Nat.div_eq_of_lt_le ?_ ?_ <;> rw [h]
  · omega
  · rw [Nat.succ_mul]
    omega

/-- The samples left after the full windows are one more window (R116). -/
theorem windowCount_of_short {s : State} {w : Nat} (hpast : w * spb s < s.mem.wave.length)
    (hend : s.mem.wave.length < (w + 1) * spb s) : windowCount s = w + 1 := by
  refine Nat.div_eq_of_lt_le ?_ ?_
  · rw [Nat.succ_mul]
    omega
  · rw [Nat.succ_mul (w + 1)]
    omega

/-! ## The ticks -/

/-- A sample that does not fill the window goes into the store. -/
theorem demTick_filling {s : State} {out : List Bit} {store : List Sample} (a : Sample)
    (h : store.length + 1 ≠ spb s) : demTick s (filling out store) a = filling out (store ++ [a]) := by
  simp [demTick, filling, h]

theorem foldl_demTick_filling {s : State} {out : List Bit} {store xs : List Sample}
    (h : store.length + xs.length < spb s) : xs.foldl (demTick s) (filling out store) = filling out (store ++ xs) := by
  induction xs generalizing store with
  | nil => simp
  | cons a xs ih =>
    rw [List.length_cons] at h
    rw [List.foldl_cons, demTick_filling a (by omega), ih (by rw [List.length_append, List.length_singleton]; omega),
      List.append_assoc, List.singleton_append]

section
variable {s : State} (htie : s.params.tie = .leastIndex)
include htie

/-- Closing a window emits its bit and empties the store. -/
theorem demClose_filling (out : List Bit) {x : List Sample} (hx : 0 < x.length) :
    demClose s (filling out x) = filling (out ++ [classify s x]) [] := by
  simp only [demClose, filling, runningPeak_eq_leastPeak hx, classify, htie, peakBin, List.length_nil]

/-- `SPB` samples from an empty store close one window. -/
theorem foldl_demTick_window (out : List Bit) {x : List Sample} (hx : x.length = spb s) (hspb : 0 < spb s) :
    x.foldl (demTick s) (filling out []) = filling (out ++ [classify s x]) [] := by
  obtain rfl | ⟨init, last, rfl⟩ := List.eq_nil_or_concat' x
  · exact absurd hx hspb.ne
  · have hfull : init.length + 1 = spb s := by simpa using hx
    have hinit : init.foldl (demTick s) (filling out []) = filling out init :=
      foldl_demTick_filling (by rw [List.length_nil]; omega)
    rw [List.foldl_append, hinit, ← demClose_filling htie out (by simp)]
    simp [demTick, filling, hfull]

/-- The samples of the first `w` windows, all full, emit their bits. -/
theorem foldl_demTick_windows (hspb : 0 < spb s) {w : Nat} (hw : w * spb s ≤ s.mem.wave.length) :
    (s.mem.wave.take (w * spb s)).foldl (demTick s) .start = filling (windowBits s w) [] := by
  induction w with
  | zero => simp [filling, windowBits, DemDatapath.start]
  | succ w ih =>
    have hstart : w * spb s ≤ s.mem.wave.length := (Nat.mul_le_mul_right _ w.le_succ).trans hw
    have hlength : (window s w).length = spb s := by
      rw [window_length]
      rw [Nat.succ_mul] at hw
      omega
    rw [Nat.succ_mul, List.take_add, List.foldl_append, ih hstart, ← window_of_full hw,
      foldl_demTick_window htie _ hlength hspb, windowBits_succ]

/-- All samples emit the bits of the full windows; what is left stays in the store. -/
theorem foldl_demTick_wave (hspb : 0 < spb s) {w : Nat} (hfull : w * spb s ≤ s.mem.wave.length)
    (hend : s.mem.wave.length < (w + 1) * spb s) :
    s.mem.wave.foldl (demTick s) .start = filling (windowBits s w) (s.mem.wave.drop (w * spb s)) := by
  have hshort : ([] : List Sample).length + (s.mem.wave.drop (w * spb s)).length < spb s := by
    rw [Nat.succ_mul] at hend
    rw [List.length_nil, List.length_drop]
    omega
  conv_lhs => rw [← List.take_append_drop (w * spb s) s.mem.wave]
  rw [List.foldl_append, foldl_demTick_windows htie hspb hfull, foldl_demTick_filling hshort, List.nil_append]

/-- The end of the waveform closes the trailing window, if there is one: all the bits are put out. -/
theorem demTicks_eq (hspb : 0 < spb s) : demTicks s = filling (demodulate s) [] := by
  obtain ⟨w, hfull, hend⟩ : ∃ w, w * spb s ≤ s.mem.wave.length ∧ s.mem.wave.length < (w + 1) * spb s :=
    ⟨s.mem.wave.length / spb s, Nat.div_mul_le_self _ _, Nat.lt_mul_of_div_lt (Nat.lt_succ_self _) hspb⟩
  rw [demTicks, foldl_demTick_wave htie hspb hfull hend, demodulate_eq_windowBits]
  rcases hfull.eq_or_lt with hexact | hpast
  · rw [windowCount_of_full hspb hexact.symm, List.drop_eq_nil_of_le hexact.ge]
    rfl
  · have hpos : 0 < (s.mem.wave.drop (w * spb s)).length := by
      rw [List.length_drop]
      exact Nat.sub_pos_of_lt hpast
    rw [windowCount_of_short hpast hend, windowBits_succ, window_of_short hend.le, ← demClose_filling htie _ hpos]
    exact if_pos hpos

end

end Sys2Proof.Laws

namespace Sys2Proof.Proofs

open Sys2Proof.Machine Sys2Proof.Laws

/-- Settles O54: the detector puts out the bits of all windows, which are what a successful `DEM` wrote. -/
theorem windowedPeakComputesDem : Obligations.WindowedPeakComputesDem := by
  unfold Obligations.WindowedPeakComputesDem
  intro s t htie h hok
  obtain ⟨hlegal, rfl⟩ := exec_dem_of_ok h hok
  rw [demTicks_eq htie (spb_pos hlegal)]
  exact ⟨rfl, rfl⟩

end Sys2Proof.Proofs
end

