-- ==== Sys2Proof/Proofs/ValidatorFamily.lean ====
section
/-!
PROOFS. The statement about `VAL` (spec/43_validator.md R125 to R127).
-/

namespace Sys2Proof.Laws

open Sys2Proof.Machine

/-- A command that has set `VALID` and completes leaves a `Completed` state: `setValid` leaves `REJ` alone. -/
theorem complete_setValid_completed (v : Bool) (s : State) : Completed s (complete (setValid v s)) :=
  { complete_completed (setValid v s) s.mem with rej := by simp }

theorem statusValid_complete_setValid (v : Bool) (s : State) :
    statusValid (complete (setValid v s)).status = v := by
  simp

end Sys2Proof.Laws

namespace Sys2Proof.Proofs

open Sys2Proof.Machine Sys2Proof.Laws

/-- Settles O25: `VAL` has one end, which leaves the answer of `isValid` in `VALID`; the range test holds of no
character at all. -/
theorem validatesText : Obligations.ValidatesText := by
  unfold Obligations.ValidatesText
  intro s
  have hvalid : statusValid (complete (setValid (isValid s.mem.text) s)).status = true ↔
      ∀ c ∈ s.mem.text, 32 ≤ c ∧ c ≤ 126 := by
    rw [statusValid_complete_setValid, isValid_iff]
  refine ⟨_, exec_val_eq s, complete_setValid_completed _ s, rfl, hvalid, fun hempty => ?empty⟩
  rw [hvalid, hempty]
  exact List.forall_mem_nil _

end Sys2Proof.Proofs
end

