-- ==== Sys2Proof/Proofs/SendRequest.lean ====
section
/-!
PROOFS. What a send request does while idle, and the statement about the sends that are skipped
(spec/44_session.md R131, R137).
-/

namespace Sys2Proof.Laws

open Sys2Proof.Machine

/-- With the session layer and while idle, a send request is neither refused nor rejected (R79, R135). -/
theorem requestSend_of_idle {s : State} (text : List Nat) (hlayer : s.params.hasSessionLayer = true)
    (hidle : statusBusy s.status = false) : requestSend text s = startSend text s := by
  simp [requestSend, hlayer, hidle]

/-- A text that is all white space starts nothing (R137). -/
theorem startSend_of_skipped {s : State} {text : List Nat} (hskip : skipped s.params text = true) :
    startSend text s = s :=
  if_pos hskip

/-- The white space of the reference build is the six ASCII white-space code points (R137). -/
theorem mem_whiteSpace_default_iff (c : Nat) : c ∈ Params.default.whiteSpace ↔ (9 ≤ c ∧ c ≤ 13) ∨ c = 32 := by
  have hmem : c ∈ Params.default.whiteSpace ↔ c = 9 ∨ c = 10 ∨ c = 11 ∨ c = 12 ∨ c = 13 ∨ c = 32 := by
    simp [Params.default]
  rw [hmem]
  omega

end Sys2Proof.Laws

namespace Sys2Proof.Proofs

open Sys2Proof.Machine Sys2Proof.Laws

/-- Settles O44: an idle request reaches `startSend`, which skips the text; the default white space is a list of six
numbers. -/
theorem emptySendIsSkipped : Obligations.EmptySendIsSkipped := by
  unfold Obligations.EmptySendIsSkipped
  refine ⟨fun s text hlayer hidle hwhite => ?skip, mem_whiteSpace_default_iff⟩
  have hskip : skipped s.params text = true := (skipped_iff s.params text).mpr hwhite
  have hsame : requestSend text s = s := (requestSend_of_idle text hlayer hidle).trans (startSend_of_skipped hskip)
  exact congrArg Host.Outcome.next hsame

end Sys2Proof.Proofs
end

