-- ==== Sys2Proof/Proofs/ErrorPriorityLaws.lean ====
section
/-!
SUPPORT. The code a command leaves in `STATUS.ERR`: one fact for each condition of the order of priority
(spec/60_exceptions.md R158), and the case split over them.
-/

namespace Sys2Proof.Laws

open Sys2Proof.Machine

/-! ## The conditions -/

/-- The command reads the configuration, which is not legal (R154). -/
def ConfigFails (i : Instr) (s : State) : Prop := (i = .mod ∨ i = .dem) ∧ ¬ ConfigLegal s

/-- `ENC` meets a code point above 255 (R151). -/
def TextFails (i : Instr) (s : State) : Prop := i = .enc ∧ ∃ c ∈ s.mem.text, 255 < c

/-- `DEC` meets a length that is no multiple of 8 (R152). -/
def BitsFail (i : Instr) (s : State) : Prop := i = .dec ∧ s.mem.bits.length % 8 ≠ 0

/-- The command has an output and its buffer cannot hold it (R156). -/
def OutputTooLong (i : Instr) (s : State) : Prop :=
  ∃ out, outputSpace i = some out ∧ ¬ Fits (capacityOf s.params out) (neededLength s i)

/-- None of the conditions that are looked at before the capacity. -/
structure InputSound (i : Instr) (s : State) : Prop where
  config : ¬ ConfigFails i s
  text : ¬ TextFails i s
  bits : ¬ BitsFail i s

section
variable {i : Instr} {s : State}

/-! ## What sound input means for each command -/

theorem InputSound.codes (h : InputSound .enc s) : ∀ c ∈ s.mem.text, c ≤ 255 := fun c hc =>
  Nat.le_of_not_lt fun hbig => h.text ⟨rfl, c, hc, hbig⟩

theorem InputSound.groups (h : InputSound .dec s) : s.mem.bits.length % 8 = 0 :=
  of_not_not fun hlen => h.bits ⟨rfl, hlen⟩

theorem InputSound.legal (h : InputSound i s) (hi : i = .mod ∨ i = .dem) : ConfigLegal s :=
  of_not_not fun hlegal => h.config ⟨hi, hlegal⟩

/-! ## The code under each condition, highest priority first -/

variable {t : State}

theorem statusErr_of_configFails (h : exec i s = .next t) (hconfig : ConfigFails i s) : statusErr t.status = 4#4 := by
  obtain ⟨hi, hlegal⟩ := hconfig
  rw [statusErr_exec h, errCode_eq_config_iff]
  exact (commandFault_config_iff hi s).mpr hlegal

theorem statusErr_of_textFails (h : exec i s = .next t) (htext : TextFails i s) : statusErr t.status = 1#4 := by
  obtain ⟨rfl, c, hc, hbig⟩ := htext
  have hfirst : firstUnencodable 0 s.mem.text ≠ none := fun hnone =>
    absurd ((firstUnencodable_eq_none_iff 0 _).mp hnone c hc) (Nat.not_le.mpr hbig)
  obtain ⟨k, hk⟩ := Option.ne_none_iff_exists'.mp hfirst
  cases h.symm.trans (exec_enc_of_unencodable hk)
  exact statusErr_raise _ _ _

theorem statusErr_of_bitsFail (h : exec i s = .next t) (hbits : BitsFail i s) : statusErr t.status = 2#4 := by
  obtain ⟨rfl, hlen⟩ := hbits
  exact (exec_dec_errMalformed_iff h).mpr hlen

theorem statusErr_of_outputTooLong (h : exec i s = .next t) (hsound : InputSound i s) (hlong : OutputTooLong i s) :
    statusErr t.status = 6#4 := by
  obtain ⟨out, hout, hcap⟩ := hlong
  cases i <;> cases hout
  case enc =>
    cases h.symm.trans (exec_enc_of_not_fits hsound.codes hcap)
    exact statusErr_raise _ _ _
  case dec =>
    cases h.symm.trans (exec_dec_of_not_fits hsound.groups hcap)
    exact statusErr_raise _ _ _
  case mod =>
    cases h.symm.trans (exec_mod_of_not_fits (hsound.legal (.inl rfl)) hcap)
    exact statusErr_raise _ _ _
  case dem =>
    cases h.symm.trans (exec_dem_of_not_fits (hsound.legal (.inr rfl)) hcap)
    exact statusErr_raise _ _ _

/-- An output that is not too long fits. -/
theorem fits_of_not_outputTooLong (hfits : ¬ OutputTooLong i s) (out : Space) (hout : outputSpace i = some out) :
    Fits (capacityOf s.params out) (neededLength s i) :=
  of_not_not fun hcap => hfits ⟨out, hout, hcap⟩

theorem statusErr_of_fits (h : exec i s = .next t) (hsound : InputSound i s) (hfits : ¬ OutputTooLong i s) :
    statusErr t.status = 0#4 := by
  have hcap := fits_of_not_outputTooLong hfits
  cases i with
  | enc =>
    cases h.symm.trans (exec_enc_of_fits hsound.codes (hcap .bits rfl))
    simp
  | dec =>
    cases h.symm.trans (exec_dec_of_fits hsound.groups (hcap .text rfl))
    simp
  | mod =>
    cases h.symm.trans (exec_mod_of_fits (hsound.legal (.inl rfl)) (hcap .wave rfl))
    simp
  | dem =>
    cases h.symm.trans (exec_dem_of_fits (hsound.legal (.inr rfl)) (hcap .bits rfl))
    simp
  | val =>
    cases h.symm.trans (exec_val_eq s)
    simp

/-- Every code a command can leave, with its condition. -/
theorem statusErr_exec_cases (h : exec i s = .next t) :
    (ConfigFails i s ∧ statusErr t.status = 4#4) ∨ (TextFails i s ∧ statusErr t.status = 1#4) ∨
      (BitsFail i s ∧ statusErr t.status = 2#4) ∨ statusErr t.status = 6#4 ∨ statusErr t.status = 0#4 := by
  by_cases hconfig : ConfigFails i s
  · exact .inl ⟨hconfig, statusErr_of_configFails h hconfig⟩
  by_cases htext : TextFails i s
  · exact .inr <| .inl ⟨htext, statusErr_of_textFails h htext⟩
  by_cases hbits : BitsFail i s
  · exact .inr <| .inr <| .inl ⟨hbits, statusErr_of_bitsFail h hbits⟩
  by_cases hlong : OutputTooLong i s
  · exact .inr <| .inr <| .inr <| .inl <| statusErr_of_outputTooLong h ⟨hconfig, htext, hbits⟩ hlong
  · exact .inr <| .inr <| .inr <| .inr <| statusErr_of_fits h ⟨hconfig, htext, hbits⟩ hlong

theorem statusErr_eq_encoding_iff (h : exec i s = .next t) : statusErr t.status = 1#4 ↔ TextFails i s := by
  refine ⟨fun herr => ?_, statusErr_of_textFails h⟩
  obtain ⟨-, hcode⟩ | ⟨htext, -⟩ | ⟨-, hcode⟩ | hcode | hcode := statusErr_exec_cases h
  case inr.inl => exact htext
  all_goals simp [herr] at hcode

theorem statusErr_eq_malformed_iff (h : exec i s = .next t) : statusErr t.status = 2#4 ↔ BitsFail i s := by
  refine ⟨fun herr => ?_, statusErr_of_bitsFail h⟩
  obtain ⟨-, hcode⟩ | ⟨-, hcode⟩ | ⟨hbits, -⟩ | hcode | hcode := statusErr_exec_cases h
  case inr.inr.inl => exact hbits
  all_goals simp [herr] at hcode

/-- No command raises `E_AUDIO` (R153). -/
theorem statusErr_exec_ne_audio (h : exec i s = .next t) : statusErr t.status ≠ 3#4 := by
  obtain ⟨-, hcode⟩ | ⟨-, hcode⟩ | ⟨-, hcode⟩ | hcode | hcode := statusErr_exec_cases h <;> simp [hcode]

end

end Sys2Proof.Laws
end

