-- ==== Sys2Proof/Proofs/ErrorEntryLaws.lean ====
section
/-!
SUPPORT. What an error leaves behind: a command that fails (spec/60_exceptions.md R159), and a session one of whose
steps fails (spec/44_session.md R131 to R133).
-/

namespace Sys2Proof.Laws

open Sys2Proof.Machine

section
variable {i : Instr} {s t : State}

/-- A command that leaves a code other than `OK` raised the error of that code on its own output buffer. -/
theorem exec_failed (h : exec i s = .next t) (herr : statusErr t.status ≠ 0#4) :
    ∃ out e, outputSpace i = some out ∧ statusErr t.status = errCode (some e) ∧
      Failed (statusErr t.status) out e s t := by
  obtain ⟨e, out, -, hout, rfl⟩ | ⟨-, hok⟩ := exec_ends h
  · refine ⟨out, e, hout, statusErr_raise e out s, ?_⟩
    rw [statusErr_raise]
    exact raise_failed e out s
  · exact absurd hok herr

/-- A command whose output buffer is known and that leaves the code `code` has failed with it. -/
theorem exec_failed_code {out : Space} {code : BitVec 4} (h : exec i s = .next t) (hout : outputSpace i = some out)
    (hcode : statusErr t.status = code) (herr : code ≠ 0#4) : ∃ e, Failed code out e s t := by
  subst hcode
  obtain ⟨out', e, hout', -, hfailed⟩ := exec_failed h herr
  cases hout.symm.trans hout'
  exact ⟨e, hfailed⟩

/-- A stage whose command fails ends the session. -/
theorem commandStage_of_failed (next : Orch) (h : exec i s = .next t) (herr : statusErr t.status ≠ 0#4) :
    commandStage i next s = .next (failSession t) :=
  (commandStage_of_next next h).trans (congrArg Host.Outcome.next (if_neg herr))

end

theorem failSession_ended (s : State) : SessionEnded (statusErr s.status) (failSession s) where
  err := by simp
  busy := by simp
  orch := rfl

/-- An audio failure ends the session with the code of `E_AUDIO` and one entry of it. -/
theorem failSession_audio (device : AudioDevice) (s : State) :
    SessionEnded 3#4 (failSession (setErr (some (.audio device)) s)) ∧
      (failSession (setErr (some (.audio device)) s)).log = s.log ++ [.error 3#4] := by
  have hcode : statusErr (setErr (some (.audio device)) s).status = 3#4 := by simp [errCode]
  have hended := failSession_ended (setErr (some (.audio device)) s)
  rw [hcode] at hended
  refine ⟨hended, ?_⟩
  rw [failSession_log, hcode, setErr_log]

/-- Waiting for the playback collaborator, its failure ends the session. -/
theorem takeEvent_playbackFailed {s : State} (h : s.orch = .sending .playing) :
    takeEvent .playbackFailed s = .next (failSession (setErr (some (.audio .playback)) s)) :=
  if_pos h

/-- Waiting for the capture collaborator, its failure ends the session. -/
theorem takeEvent_captureFailed {s : State} (h : s.orch = .listening) :
    takeEvent .captureFailed s = .next (failSession (setErr (some (.audio .capture)) s)) :=
  if_pos h

/-- At its encoding stage a send issues `ENC`. -/
theorem takeEvent_quiet_of_encode {s : State} (h : s.orch = .sending .encode) :
    takeEvent .quiet s = commandStage .enc (.sending .modulate) s := by
  rw [takeEvent, advance, h]

end Sys2Proof.Laws
end

