-- ==== Sys2Proof/Proofs/ExceptionsFamily.lean ====
section
/-!
PROOFS. The statements about errors (spec/60_exceptions.md): the data errors (R151, R152), audio failures (R153),
rejection while busy (R157), priority (R158) and error entry (R159).
-/

namespace Sys2Proof.Laws

open Sys2Proof.Machine

/-! ## Requests while busy -/

section
variable {s : State}

theorem takeEvent_hostLoad_of_busy (data : BufferData) (hbusy : statusBusy s.status = true) :
    takeEvent (.hostLoad data) s = .next (reject s) := by
  simp [takeEvent, hostLoad, hbusy]

theorem takeEvent_send_of_busy (text : List Nat) (hlayer : s.params.hasSessionLayer = true)
    (hbusy : statusBusy s.status = true) : takeEvent (.send text) s = .next (reject s) := by
  simp [takeEvent, requestSend, hlayer, hbusy]

theorem takeEvent_recv_of_busy (hlayer : s.params.hasSessionLayer = true) (hbusy : statusBusy s.status = true) :
    takeEvent .recv s = .next (reject s) := by
  simp [takeEvent, requestRecv, hlayer, hbusy]

/-! ## Writes of `STATUS` -/

/-- Idle, a write of `STATUS` clears `REJ` if its bit 2 is 1 (R29). -/
theorem takeEvent_regWrite_status (v : Byte) (hidle : statusBusy s.status = false) :
    takeEvent (.regWrite 6 v.toNat) s = .next (if v.getLsbD 2 then setRej false s else s) := by
  have hlt : v.toNat < 256 := v.isLt
  rw [← BitVec.testBit_toNat]
  simp [takeEvent, regWrite, writeStatus, hidle, hlt]

end

end Sys2Proof.Laws

namespace Sys2Proof.Proofs

open Sys2Proof.Machine Sys2Proof.Laws

/-- Settles O8: the two codes have one condition each, which names the command, and the send's stage fails with the
encoding error, which touches no more than `BITS`. -/
theorem dataErrorsHaveOneSource : Obligations.DataErrorsHaveOneSource := by
  unfold Obligations.DataErrorsHaveOneSource
  refine ⟨fun s t h => ⟨?encCause, ?encEffect⟩, fun s t h => ⟨exec_dec_errMalformed_iff h, ?decEffect⟩,
    fun i s t hne h herr => ?encOnly, fun i s t hne h herr => ?decOnly, fun s hstage hbig => ?send⟩
  case encCause =>
    rw [statusErr_eq_encoding_iff h, TextFails]
    exact and_iff_right rfl
  case encEffect => exact fun herr => exec_failed_code h rfl herr (by decide)
  case decEffect => exact fun herr => exec_failed_code h rfl herr (by decide)
  case encOnly => exact hne ((statusErr_eq_encoding_iff h).mp herr).1
  case decOnly => exact hne ((statusErr_eq_malformed_iff h).mp herr).1
  case send =>
    obtain ⟨u, hu⟩ := exec_next .enc s
    have hcode : statusErr u.status = 1#4 := statusErr_of_textFails hu ⟨rfl, hbig⟩
    have herr : statusErr u.status ≠ 0#4 := by simp [hcode]
    obtain ⟨e, hfailed⟩ := exec_failed_code hu rfl hcode (by decide)
    refine ⟨failSession u, ?_, hcode ▸ failSession_ended u, ?calls, ?wave⟩
    · rw [takeEvent_quiet_of_encode hstage, commandStage_of_failed _ hu herr]
    case calls => rw [failSession_playbackCalls, hfailed.frame]
    case wave => exact BufferData.wave.inj (hfailed.others .wave (by decide))

/-- Settles O26: a failing command has raised its error, and a stage that issues it ends the session with that code. -/
theorem errorEntry : Obligations.ErrorEntry := by
  unfold Obligations.ErrorEntry
  refine fun i s t h herr => ⟨exec_failed h herr, fun next =>
    ⟨failSession t, commandStage_of_failed next h herr, failSession_ended t, ?logged, rfl⟩⟩
  rw [failSession_log, exec_frame h]

/-- Settles O27: busy and illegal words are the two ends before a command runs; a command that runs leaves the code of
the first of its own conditions; a failing stage ends the session. -/
theorem errorPriority : Obligations.ErrorPriority := by
  unfold Obligations.ErrorPriority
  refine ⟨fun s v hbusy => ?busy, fun s w e hidle hw => ?illegal, fun s w i hidle hw => ?command,
    fun i s t next h herr => ⟨failSession t, commandStage_of_failed next h herr, rfl⟩⟩
  case busy => exact ⟨reject s, takeEvent_regWrite_of_busy v hbusy le_rfl, reject_rejected s⟩
  case illegal =>
    refine ⟨raiseIllegal w s, ?_, by simp⟩
    rw [takeEvent_regWrite_command _ hidle, writeCommand_of_decode_error hw]
  case command =>
    obtain ⟨t, ht⟩ := exec_next i s
    refine ⟨t, ?_, fun cfg enc dec cap hcfg henc hdec hcap => ?chain⟩
    · rw [takeEvent_regWrite_command _ hidle, writeCommand_of_decode hw, ht]
    have hsound : ¬ cfg → ¬ enc → ¬ dec → InputSound i s := fun hnc hne hnd =>
      ⟨hcfg.not.mp hnc, henc.not.mp hne, hdec.not.mp hnd⟩
    exact ⟨fun hc => statusErr_of_configFails ht (hcfg.mp hc), fun he => statusErr_of_textFails ht (henc.mp he),
      fun hd => statusErr_of_bitsFail ht (hdec.mp hd),
      fun hnc hne hnd hp => statusErr_of_outputTooLong ht (hsound hnc hne hnd) (hcap.mp hp),
      fun hnc hne hnd hnp => statusErr_of_fits ht (hsound hnc hne hnd) (hcap.not.mp hnp)⟩

/-- Settles O29: each request ends in `reject`; reset and a 1 in bit 2 of `STATUS` clear `REJ`, a 0 there does not. -/
theorem busyRejectsRequests : Obligations.BusyRejectsRequests := by
  unfold Obligations.BusyRejectsRequests
  refine ⟨fun s hbusy => ⟨fun n v hn => ?write, fun data => ?load, fun hlayer => ⟨fun text => ?send, ?recv⟩⟩,
    fun s => ⟨resetEvent s, rfl, ?reset⟩, fun s v hidle hbit => ?clear, fun s v hidle hbit => ?keep⟩
  case write => exact ⟨reject s, takeEvent_regWrite_of_busy v hbusy hn, reject_rejected s⟩
  case load => exact ⟨reject s, takeEvent_hostLoad_of_busy data hbusy, reject_rejected s⟩
  case send => exact ⟨reject s, takeEvent_send_of_busy text hlayer hbusy, reject_rejected s⟩
  case recv => exact ⟨reject s, takeEvent_recv_of_busy hlayer hbusy, reject_rejected s⟩
  case reset =>
    have hreset : statusRej State.reset.status = false := by decide
    exact hreset
  case clear =>
    refine ⟨setRej false s, ?_, by simp, by simp, by simp, by simp [hidle], rfl⟩
    rw [takeEvent_regWrite_status v hidle, if_pos hbit]
  case keep => rw [takeEvent_regWrite_status v hidle, hbit, if_neg Bool.false_ne_true]

/-- Settles O48: either failure ends the session it is waited for in, and no command's code is 3. -/
theorem audioFailureIsFatal : Obligations.AudioFailureIsFatal := by
  unfold Obligations.AudioFailureIsFatal
  refine ⟨fun s hwait => ?playback, fun s hwait => ?capture, fun i s t h => statusErr_exec_ne_audio h⟩
  case playback =>
    obtain ⟨hended, hlog⟩ := failSession_audio .playback s
    exact ⟨_, takeEvent_playbackFailed hwait, hended, hlog, rfl, rfl⟩
  case capture =>
    obtain ⟨hended, hlog⟩ := failSession_audio .capture s
    exact ⟨_, takeEvent_captureFailed hwait, hended, hlog, rfl, rfl⟩

end Sys2Proof.Proofs
end

