-- ==== Sys2Proof/Proofs/ResetFamily.lean ====
section
/-!
PROOFS. The statement about the reset event (spec/70_reset_and_hazards.md R180), with the fact of the orchestrator it
needs: idle, it does nothing on its own (spec/44_session.md R131, spec/60_exceptions.md R171).
-/

namespace Sys2Proof.Laws

open Sys2Proof.Machine

/-- Idle, the block waits: with no outside event, nothing changes. -/
theorem takeEvent_quiet_of_idle {s : State} (hidle : s.orch = .idle) : takeEvent .quiet s = .next s := by
  simp [takeEvent, advance, hidle]

end Sys2Proof.Laws

namespace Sys2Proof.Proofs

open Sys2Proof.Machine Sys2Proof.Laws

/-- Settles O39: the event ends in `Machine.resetEvent`, whose fields are those of the reset state (`resetState`),
and that is an idle state, which waits. -/
theorem resetEvent : Obligations.ResetEvent := by
  unfold Obligations.ResetEvent
  intro s
  obtain ⟨hfs, hbaud, hf1, hf2, hcapdur, -, -, -, -, -, -, htext, hbits, hwave, horch, hdelivered, hlog⟩ := resetState
  have hwaits : takeEvent .quiet (Machine.resetEvent s) = .next (Machine.resetEvent s) :=
    takeEvent_quiet_of_idle horch
  exact ⟨Machine.resetEvent s, rfl, hfs, hbaud, hf1, hf2, hcapdur, rfl, htext, hbits, hwave, horch, hdelivered, hlog,
    hwaits⟩

end Sys2Proof.Proofs
end

