-- ==== Sys2Proof/Proofs/StepEffects.lean ====
section
/-!
SUPPORT. Everything an event can do, once (`Effect`, `effect_of_takeEvent`), and everything a command can do
(`exec_cases`): what every step keeps and who writes what is a case analysis over these. Before them, which words decode
to which command (spec/30_encoding.md R70 to R72).
-/

namespace Sys2Proof.Laws

open Sys2Proof.Machine

/-! ## Command words -/

theorem opcodeInstr_eq_some_iff (op : BitVec 3) (i : Instr) : opcodeInstr op = some i ↔ op = opcodeOf i := by
  revert op
  cases i <;> decide

theorem decode_ok_iff_fields (hs : Bool) (w : Byte) (i : Instr) :
    decode hs w = .ok i ↔ wellFormed hs i = true ∧ reservedField w = 0#5 ∧ opcodeField w = opcodeOf i := by
  rw [← opcodeInstr_eq_some_iff, decode]
  by_cases hres : reservedField w = 0#5
  case neg => simp [hres]
  case pos =>
    cases hop : opcodeInstr (opcodeField w) with
    | none => simp [hres]
    | some j =>
      cases hwf : wellFormed hs j
      · have hne : wellFormed hs i = true → j ≠ i := fun hi hji => by simp [← hji, hwf] at hi
        simpa [hres, hwf] using hne
      · have hi : j = i → wellFormed hs i = true := fun hji => hji ▸ hwf
        simpa [hres, hwf] using hi

/-- A word is its two fields (R70). -/
theorem eq_encode_iff_fields (w : Byte) (i : Instr) :
    w = encode i ↔ reservedField w = 0#5 ∧ opcodeField w = opcodeOf i := by
  have hencode : (encode i).toNat = (opcodeOf i).toNat := by cases i <;> rfl
  have hopcode : (opcodeOf i).toNat < 8 := (opcodeOf i).isLt
  rw [reservedField_eq_zero_iff, ← BitVec.toNat_inj, ← BitVec.toNat_inj, hencode, opcodeField_toNat]
  omega

theorem decode_ok_iff (hs : Bool) (w : Byte) (i : Instr) :
    decode hs w = .ok i ↔ wellFormed hs i = true ∧ w = encode i := by
  rw [decode_ok_iff_fields, eq_encode_iff_fields]

/-! ## A command -/

/-- What a command that succeeds writes: its output buffer, or for `VAL` the flag (R71). -/
def withOutput : Instr → State → State
  | .enc, s => writeBits (encodeText s.mem.text) s
  | .dec, s => writeText (decodeBits s.mem.bits) s
  | .mod, s => writeWave (modulate s) s
  | .dem, s => writeBits (demodulate s) s
  | .val, s => setValid (isValid s.mem.text) s

theorem exec_of_fault {i : Instr} {s : State} {e : Err} (he : commandFault i s = some e) :
    ∃ out, outputSpace i = some out ∧ exec i s = .next (raise e out s) := by
  obtain ⟨t, ht⟩ := exec_next i s
  obtain ⟨e', out, he', hout, rfl⟩ | ⟨hnone, -⟩ := exec_ends ht
  · cases he.symm.trans he'
    exact ⟨out, hout, ht⟩
  · cases he.symm.trans hnone

theorem exec_of_no_fault {i : Instr} {s : State} (hnone : commandFault i s = none) :
    exec i s = .next (complete (withOutput i s)) := by
  cases i with
  | enc => simp_all [commandFault, exec, execEnc, withOutput]
  | dec => simp_all [commandFault, exec, execDec, withOutput]
  | mod => simp_all [commandFault, exec, execMod, withOutput]
  | dem => simp_all [commandFault, exec, execDem, withOutput]
  | val => exact exec_val_eq s

/-- The two ends of a command: its error, raised on its output buffer, or its output. -/
theorem exec_cases {i : Instr} {s t : State} (h : exec i s = .next t) :
    (∃ e out, commandFault i s = some e ∧ outputSpace i = some out ∧ t = raise e out s) ∨
      commandFault i s = none ∧ t = complete (withOutput i s) := by
  cases hfault : commandFault i s with
  | none =>
    rw [exec_of_no_fault hfault] at h
    cases h
    exact .inr ⟨rfl, rfl⟩
  | some e =>
    obtain ⟨out, hout, hexec⟩ := exec_of_fault hfault
    rw [hexec] at h
    cases h
    exact .inl ⟨e, out, rfl, hout, rfl⟩

/-! ## The stages of a session -/

/-- The stage a session goes on to when the command of its stage succeeds (R131, R133). -/
def nextStage : Orch → Orch
  | .sending .encode => .sending .modulate
  | .sending .modulate => .sending .call
  | .decoding .demodulate => .decoding .decode
  | .decoding .decode => .decoding .validate
  | .decoding .validate => .decoding .conclude
  | o => o

/-- The stages that issue a command, each with its own. -/
theorem stageCommand_cases {o : Orch} {i : Instr} (h : stageCommand o = some i) :
    (o = .sending .encode ∧ i = .enc) ∨ (o = .sending .modulate ∧ i = .mod) ∨ (o = .decoding .demodulate ∧ i = .dem) ∨
      (o = .decoding .decode ∧ i = .dec) ∨ (o = .decoding .validate ∧ i = .val) := by
  cases o with
  | idle => cases h
  | sending stage => cases stage <;> cases h <;> simp
  | listening => cases h
  | decoding stage => cases stage <;> cases h <;> simp

/-- The orchestrator has nothing to do by itself: no session, or one that waits for a collaborator. -/
def isWaiting : Orch → Bool
  | .idle => true
  | .sending .playing => true
  | .listening => true
  | _ => false

section
variable {s : State}

theorem advance_of_waiting (h : isWaiting s.orch = true) : advance s = .next s := by
  unfold advance
  split <;> simp_all [isWaiting]

theorem advance_of_unloaded (h : isUnloaded s.orch = true) : advance s = .next (rejectSession s) := by
  unfold advance
  split <;> simp_all [isUnloaded]

theorem advance_of_stage {i : Instr} (h : stageCommand s.orch = some i) :
    advance s = commandStage i (nextStage s.orch) s := by
  unfold advance
  split <;> simp_all [stageCommand, nextStage]

theorem advance_of_call (h : s.orch = .sending .call) : advance s = .next (callPlayback s) := by
  simp [advance, h]

theorem advance_of_conclude (h : s.orch = .decoding .conclude) : advance s = .next (concludeDecoding s) := by
  simp [advance, h]

/-- Where the orchestrator can be: waiting, ending a session whose load was refused, at a command, at the call of the
playback, or at the end of a decoding. -/
theorem orch_cases (o : Orch) :
    isWaiting o = true ∨ isUnloaded o = true ∨ (∃ i, stageCommand o = some i) ∨ o = .sending .call ∨
      o = .decoding .conclude := by
  cases o with
  | idle => simp [isWaiting]
  | sending stage => cases stage <;> simp [isWaiting, isUnloaded, stageCommand]
  | listening => simp [isWaiting]
  | decoding stage => cases stage <;> simp [isWaiting, isUnloaded, stageCommand]

theorem commandStage_of_ok {i : Instr} {t : State} (next : Orch) (h : exec i s = .next t)
    (hok : statusErr t.status = 0#4) : commandStage i next s = .next (setBusy true { t with orch := next }) :=
  (commandStage_of_next next h).trans (congrArg Host.Outcome.next (if_pos hok))

/-- A decoding whose text is valid and not empty is delivered (R133). -/
def deliver (s : State) : State := endSession { s with delivered := s.delivered ++ [s.mem.text] }

theorem concludeDecoding_of_valid (hvalid : statusValid s.status = true) (htext : s.mem.text ≠ []) :
    concludeDecoding s = deliver s := by
  simp [concludeDecoding, deliver, hvalid, List.length_pos_iff.mpr htext]

theorem concludeDecoding_of_not_valid (h : ¬ (statusValid s.status = true ∧ s.mem.text ≠ [])) :
    concludeDecoding s = rejectSession s := by
  rw [← List.length_pos_iff] at h
  simp only [concludeDecoding, Bool.and_eq_true, decide_eq_true_eq, h, if_false]

end

/-! ## A request of a session -/

/-- What a `SEND` leaves whose text fits `TEXT` (R131). -/
def sendLoaded (text : List Nat) (s : State) : State :=
  writeText (heldText s.params text) (setBusy true { s with orch := .sending .encode })

/-- What a `SEND` leaves whose text is longer than `TEXT` (log 20). -/
def sendUnloaded (s : State) : State := setBusy true { s with orch := .sending .unloaded }

theorem startSend_of_fits {s : State} {text : List Nat} (hskip : skipped s.params text = false)
    (hfit : Fits s.params.textCap text.length) : startSend text s = sendLoaded text s := by
  simp [startSend, hskip, (exceeds_eq_false_iff _ _).mpr hfit, sendLoaded]

theorem startSend_of_not_fits {s : State} {text : List Nat} (hskip : skipped s.params text = false)
    (hfit : ¬ Fits s.params.textCap text.length) : startSend text s = sendUnloaded s := by
  simp [startSend, hskip, (exceeds_eq_true_iff _ _).mpr hfit, sendUnloaded]

/-- What a capture leaves that fits `WAVE` (R132). -/
def captureLoaded (samples : List Sample) (s : State) : State :=
  { writeWave samples s with orch := .decoding .demodulate }

/-- What a capture leaves that is longer than `WAVE` (log 21). -/
def captureUnloaded (s : State) : State := { s with orch := .decoding .unloaded }

theorem loadCapture_of_fits {s : State} {samples : List Sample} (hfit : Fits s.params.waveCap samples.length) :
    loadCapture samples s = captureLoaded samples s := by
  simp [loadCapture, (exceeds_eq_false_iff _ _).mpr hfit, captureLoaded]

theorem loadCapture_of_not_fits {s : State} {samples : List Sample} (hfit : ¬ Fits s.params.waveCap samples.length) :
    loadCapture samples s = captureUnloaded s := by
  simp [loadCapture, (exceeds_eq_true_iff _ _).mpr hfit, captureUnloaded]

/-! ## An event -/

/-- `Effect e s t`: the event `e` can leave `t` behind in `s`. One constructor for each thing the rules say an event
does. -/
inductive Effect : Event → State → State → Prop
  | reset {s} : Effect .reset s (Machine.resetEvent s)
  /-- a read, or a request that is refused -/
  | answers {e s} (r : Reply) : e.isRequest = true → Effect e s (answer r s)
  | rejects {e s} : e.isRequest = true → statusBusy s.status = true → Effect e s (reject s)
  /-- a send of white space, or a write of `STATUS` with nothing to clear -/
  | ignores {e s} : e.isRequest = true → Effect e s s
  | loads {s data} : statusBusy s.status = false → loadFits s.params data = true →
      Effect (.hostLoad data) s (loadBuffer data s)
  | configures {s n v} : statusBusy s.status = false → n ≤ 4 → v < 2 ^ s.params.cfgW →
      Effect (.regWrite n v) s (writeConfig n v s)
  | commands {s i t} : statusBusy s.status = false → exec i s = .next t → Effect (.regWrite 5 (encode i).toNat) s t
  | illegal {s} {w : Byte} : statusBusy s.status = false → Effect (.regWrite 5 w.toNat) s (raiseIllegal w s)
  | clearsRej {s v} : statusBusy s.status = false → v.testBit 2 = true → Effect (.regWrite 6 v) s (setRej false s)
  | sendLoaded {s text} : s.params.hasSessionLayer = true → statusBusy s.status = false →
      skipped s.params text = false → Fits s.params.textCap text.length → Effect (.send text) s (sendLoaded text s)
  | sendUnloaded {s text} : s.params.hasSessionLayer = true → statusBusy s.status = false →
      skipped s.params text = false → ¬ Fits s.params.textCap text.length → Effect (.send text) s (sendUnloaded s)
  | recv {s} : s.params.hasSessionLayer = true → statusBusy s.status = false → Effect .recv s (startRecv s)
  | waits {s} : isWaiting s.orch = true → Effect .quiet s s
  | unloaded {s} : isUnloaded s.orch = true → Effect .quiet s (rejectSession s)
  | stageGoesOn {s i t} : stageCommand s.orch = some i → exec i s = .next t → statusErr t.status = 0#4 →
      Effect .quiet s (setBusy true { t with orch := nextStage s.orch })
  | stageFails {s i t} : stageCommand s.orch = some i → exec i s = .next t → statusErr t.status ≠ 0#4 →
      Effect .quiet s (failSession t)
  | calls {s} : s.orch = .sending .call → Effect .quiet s (callPlayback s)
  | delivers {s} : s.orch = .decoding .conclude → statusValid s.status = true → s.mem.text ≠ [] →
      Effect .quiet s (deliver s)
  | concludes {s} : s.orch = .decoding .conclude → ¬ (statusValid s.status = true ∧ s.mem.text ≠ []) →
      Effect .quiet s (rejectSession s)
  | playbackDone {s} : s.orch = .sending .playing → Effect .playbackDone s (endSession (setErr none s))
  | playbackFailed {s} : s.orch = .sending .playing →
      Effect .playbackFailed s (failSession (setErr (some (.audio .playback)) s))
  | captureLoaded {s samples} : s.orch = .listening → samples.length = s.cfgFs * s.cfgCapdur →
      Fits s.params.waveCap samples.length → Effect (.captureDone samples) s (captureLoaded samples s)
  | captureUnloaded {s samples} : s.orch = .listening → samples.length = s.cfgFs * s.cfgCapdur →
      ¬ Fits s.params.waveCap samples.length → Effect (.captureDone samples) s (captureUnloaded s)
  | captureFailed {s} : s.orch = .listening →
      Effect .captureFailed s (failSession (setErr (some (.audio .capture)) s))

section
variable {s t : State}

theorem effect_hostLoad (data : BufferData) : Effect (.hostLoad data) s (hostLoad data s) := by
  unfold hostLoad
  split_ifs with hbusy hfit
  · exact .rejects rfl hbusy
  · exact .loads (Bool.not_eq_true _ ▸ hbusy) hfit
  · exact .answers .refused rfl

theorem effect_hostRead (space : Space) : Effect (.hostRead space) s (hostRead space s) := by
  unfold hostRead
  split_ifs
  · exact .answers .refused rfl
  · exact .answers _ rfl

theorem effect_hostReadCell (space : Space) (i : Nat) : Effect (.hostReadCell space i) s (hostReadCell space i s) := by
  unfold hostReadCell
  split_ifs
  · exact .answers .refused rfl
  · split
    · exact .answers _ rfl
    · exact .answers .refused rfl

theorem effect_regRead (n : Nat) : Effect (.regRead n) s (regRead n s) := by
  unfold regRead
  split_ifs
  · exact .answers .refused rfl
  · split
    · exact .answers _ rfl
    · exact .answers .refused rfl

theorem effect_writeConfig {n v : Nat} (hidle : statusBusy s.status = false) (hn : n ≤ 4) :
    Effect (.regWrite n v) s (writeConfig n v s) := by
  by_cases hv : v < 2 ^ s.params.cfgW
  · exact .configures hidle hn hv
  · have hrefused : writeConfig n v s = refuse s := if_neg hv
    rw [hrefused]
    exact .answers .refused rfl

theorem effect_writeCommand {v : Nat} (hidle : statusBusy s.status = false) (h : writeCommand v s = .next t) :
    Effect (.regWrite 5 v) s t := by
  by_cases hv : v < 256
  case neg =>
    rw [writeCommand, if_neg hv] at h
    cases h
    exact .answers .refused rfl
  case pos =>
    have hword : (BitVec.ofNat 8 v).toNat = v := Nat.mod_eq_of_lt hv
    rw [← hword] at h ⊢
    cases hw : decode s.params.hasSessionLayer (BitVec.ofNat 8 v) with
    | ok i =>
      rw [writeCommand_of_decode hw] at h
      obtain ⟨-, hencode⟩ := (decode_ok_iff _ _ _).mp hw
      rw [hencode]
      exact .commands hidle h
    | error e =>
      rw [writeCommand_of_decode_error hw] at h
      cases h
      exact .illegal hidle

theorem effect_writeStatus {v : Nat} (hidle : statusBusy s.status = false) :
    Effect (.regWrite 6 v) s (writeStatus v s) := by
  unfold writeStatus
  split_ifs with hv hbit
  · exact .clearsRej hidle hbit
  · exact .ignores rfl
  · exact .answers .refused rfl

theorem effect_regWrite {n v : Nat} (h : regWrite n v s = .next t) : Effect (.regWrite n v) s t := by
  unfold regWrite at h
  split_ifs at h with hbusy hrequest hconfig hcommand hstatus
  · cases h
    exact .rejects rfl hbusy
  · cases h
    exact .answers .refused rfl
  · cases h
    exact effect_writeConfig (Bool.not_eq_true _ ▸ hbusy) hconfig
  · subst hcommand
    exact effect_writeCommand (Bool.not_eq_true _ ▸ hbusy) h
  · cases h
    subst hstatus
    exact effect_writeStatus (Bool.not_eq_true _ ▸ hbusy)
  · cases h
    exact .answers .refused rfl

theorem effect_requestSend (text : List Nat) : Effect (.send text) s (requestSend text s) := by
  unfold requestSend
  split_ifs with hlayer hbusy
  · exact .answers .refused rfl
  · exact .rejects rfl hbusy
  · have hlayer : s.params.hasSessionLayer = true := by simpa using hlayer
    have hidle : statusBusy s.status = false := by simpa using hbusy
    cases hskip : skipped s.params text with
    | true =>
      rw [startSend_of_skipped hskip]
      exact .ignores rfl
    | false =>
      by_cases hfit : Fits s.params.textCap text.length
      · rw [startSend_of_fits hskip hfit]
        exact .sendLoaded hlayer hidle hskip hfit
      · rw [startSend_of_not_fits hskip hfit]
        exact .sendUnloaded hlayer hidle hskip hfit

theorem effect_requestRecv : Effect .recv s (requestRecv s) := by
  unfold requestRecv
  split_ifs with hlayer hbusy
  · exact .answers .refused rfl
  · exact .rejects rfl hbusy
  · exact .recv (by simpa using hlayer) (by simpa using hbusy)

theorem effect_stage {i : Instr} (hi : stageCommand s.orch = some i) (h : advance s = .next t) : Effect .quiet s t := by
  obtain ⟨u, hu⟩ := exec_next i s
  rw [advance_of_stage hi] at h
  by_cases hok : statusErr u.status = 0#4
  · rw [commandStage_of_ok _ hu hok] at h
    cases h
    exact .stageGoesOn hi hu hok
  · rw [commandStage_of_failed _ hu hok] at h
    cases h
    exact .stageFails hi hu hok

theorem effect_advance (h : advance s = .next t) : Effect .quiet s t := by
  obtain hwait | hunloaded | ⟨i, hi⟩ | hcall | hconclude := orch_cases s.orch
  · rw [advance_of_waiting hwait] at h
    cases h
    exact .waits hwait
  · rw [advance_of_unloaded hunloaded] at h
    cases h
    exact .unloaded hunloaded
  · exact effect_stage hi h
  · rw [advance_of_call hcall] at h
    cases h
    exact .calls hcall
  · rw [advance_of_conclude hconclude] at h
    cases h
    by_cases hvalid : statusValid s.status = true ∧ s.mem.text ≠ []
    · rw [concludeDecoding_of_valid hvalid.1 hvalid.2]
      exact .delivers hconclude hvalid.1 hvalid.2
    · rw [concludeDecoding_of_not_valid hvalid]
      exact .concludes hconclude hvalid

theorem effect_captureDone {samples : List Sample} (h : captureDone samples s = .next t) :
    Effect (.captureDone samples) s t := by
  unfold captureDone at h
  split_ifs at h with hlistening hlength
  cases h
  by_cases hfit : Fits s.params.waveCap samples.length
  · rw [loadCapture_of_fits hfit]
    exact .captureLoaded hlistening hlength hfit
  · rw [loadCapture_of_not_fits hfit]
    exact .captureUnloaded hlistening hlength hfit

/-- Whatever an event leaves behind is one of its effects. -/
theorem effect_of_takeEvent {e : Event} (h : takeEvent e s = .next t) : Effect e s t := by
  cases e with
  | reset => cases h; exact .reset
  | quiet => exact effect_advance h
  | hostLoad data => cases h; exact effect_hostLoad data
  | hostRead space => cases h; exact effect_hostRead space
  | hostReadCell space i => cases h; exact effect_hostReadCell space i
  | regRead n => cases h; exact effect_regRead n
  | regWrite n v => exact effect_regWrite h
  | send text => cases h; exact effect_requestSend text
  | recv => cases h; exact effect_requestRecv
  | playbackDone =>
    rw [takeEvent, Machine.playbackDone] at h
    split_ifs at h with hwait
    cases h
    exact .playbackDone hwait
  | playbackFailed =>
    rw [takeEvent, Machine.playbackFailed] at h
    split_ifs at h with hwait
    cases h
    exact .playbackFailed hwait
  | captureDone samples => exact effect_captureDone h
  | captureFailed =>
    rw [takeEvent, Machine.captureFailed] at h
    split_ifs at h with hwait
    cases h
    exact .captureFailed hwait

end

end Sys2Proof.Laws
end

