-- ==== Sys2Proof/Proofs/InvariantFamily.lean ====
section
/-!
PROOFS. The invariant (`StateInv`): the reset state meets it (spec/10_state.md R40), each effect of an event keeps it,
and so does every step.
-/

namespace Sys2Proof.Laws

open Sys2Proof.Machine

/-! ## What a command leaves in `STATUS` -/

section
variable {i : Instr} {s t : State}

@[simp] theorem statusRej_withOutput (i : Instr) (s : State) :
    statusRej (withOutput i s).status = statusRej s.status := by
  cases i <;> simp [withOutput]

theorem statusValid_withOutput (hval : i ≠ .val) (s : State) :
    statusValid (withOutput i s).status = statusValid s.status := by
  cases i <;> simp_all [withOutput]

theorem exec_busy (h : exec i s = .next t) : statusBusy t.status = false := by
  obtain ⟨e, out, -, -, rfl⟩ | ⟨-, rfl⟩ := exec_cases h <;> simp

theorem exec_rej (h : exec i s = .next t) : statusRej t.status = statusRej s.status := by
  obtain ⟨e, out, -, -, rfl⟩ | ⟨-, rfl⟩ := exec_cases h <;> simp

theorem exec_reserved (h : exec i s = .next t) : t.status.getLsbD 3 = false := by
  obtain ⟨e, out, -, -, rfl⟩ | ⟨-, rfl⟩ := exec_cases h
  · rw [raise_status, statusReserved_pack]
  · rw [complete_status, statusReserved_pack]

/-- `STATUS.ERR` is the code of the command's outcome. -/
theorem exec_err (h : exec i s = .next t) : statusErr t.status = errCode t.cause := by
  obtain ⟨e, out, -, -, rfl⟩ | ⟨-, rfl⟩ := exec_cases h <;> simp [errCode]

/-- Only `VAL` writes `STATUS.VALID` (R29). -/
theorem exec_valid (hval : i ≠ .val) (h : exec i s = .next t) : statusValid t.status = statusValid s.status := by
  obtain ⟨e, out, -, -, rfl⟩ | ⟨-, rfl⟩ := exec_cases h
  · simp
  · rw [complete_status, statusValid_pack, statusValid_withOutput hval]

/-- After `VAL`, `STATUS.VALID` says whether the text is valid, and the text is as it was (R125). -/
theorem exec_val_valid (h : exec .val s = .next t) : statusValid t.status = isValid t.mem.text := by
  cases h
  exact statusValid_complete_setValid _ s

/-! ## The buffers -/

/-- An output that raises no error is in canonical form and fits its buffer. -/
theorem withOutput_wf (hbuild : s.params.wf) (hmem : s.mem.wf s.params) (hnone : commandFault i s = none) :
    (withOutput i s).mem.wf s.params := by
  cases i with
  | enc =>
    obtain ⟨-, hcap⟩ := (encFault_eq_none_iff s).mp hnone
    exact writeBits_wf hmem (by rwa [encodeText_length])
  | dec =>
    obtain ⟨-, hcap⟩ := (decFault_eq_none_iff s).mp hnone
    exact writeText_wf hmem (decodeBits_fits hbuild _) (by rwa [decodeBits_length])
  | mod =>
    obtain ⟨-, hcap⟩ := (modFault_eq_none_iff s).mp hnone
    exact writeWave_wf hmem (by rwa [modulate_length])
  | dem =>
    obtain ⟨-, hcap⟩ := (demFault_eq_none_iff s).mp hnone
    exact writeBits_wf hmem (by rwa [demodulate_length])
  | val => exact hmem

theorem exec_wf (hbuild : s.params.wf) (hmem : s.mem.wf s.params) (h : exec i s = .next t) : t.mem.wf s.params := by
  obtain ⟨e, out, -, -, rfl⟩ | ⟨hnone, rfl⟩ := exec_cases h
  · rw [raise_mem]
    exact clearBuffer_wf hmem out
  · exact withOutput_wf hbuild hmem hnone

end

/-! ## Each effect keeps the invariant -/

/-- A session that goes on is in flight, and only after `VAL` is it about to conclude. -/
theorem nextStage_of_command {o : Orch} {i : Instr} (h : stageCommand o = some i) :
    (nextStage o).name ≠ .Idle ∧ (nextStage o = .decoding .conclude → i = .val) := by
  obtain ⟨rfl, rfl⟩ | ⟨rfl, rfl⟩ | ⟨rfl, rfl⟩ | ⟨rfl, rfl⟩ | ⟨rfl, rfl⟩ := stageCommand_cases h <;> decide

/-- The reset event establishes the invariant in every build the rules make sense of. -/
theorem stateInv_resetEvent {s : State} (hbuild : s.params.wf) : StateInv (Machine.resetEvent s) where
  params := hbuild
  cfgFs := hbuild.1
  cfgBaud := (show 300 < 44100 by norm_num).trans hbuild.1
  cfgF1 := (show 1500 < 44100 by norm_num).trans hbuild.1
  cfgF2 := (show 2500 < 44100 by norm_num).trans hbuild.1
  cfgCapdur := (show 5 < 44100 by norm_num).trans hbuild.1
  mem := ⟨List.forall_mem_nil _, exceeds_zero _, exceeds_zero _, exceeds_zero _⟩
  reserved := show (0#8).getLsbD 3 = false by decide
  err := show statusErr 0#8 = 0#4 by decide
  busy := show statusBusy 0#8 = true ↔ OrchName.Idle ≠ .Idle by decide
  session _ := rfl
  conclude h := nomatch h
  delivered _ h := nomatch h

section
variable {s t : State} (hs : StateInv s)
include hs

theorem orch_eq_idle_of_idle (hidle : statusBusy s.status = false) : s.orch = .idle := by
  have hname : s.orch.name = .Idle := by simpa [hidle] using hs.busy
  cases horch : s.orch <;> simp_all [Orch.name]

theorem statusBusy_of_orch_ne_idle (hbusy : s.orch ≠ .idle) : statusBusy s.status = true := by
  by_contra hidle
  exact hbusy (orch_eq_idle_of_idle hs (Bool.not_eq_true _ ▸ hidle))

theorem statusBusy_of_orch_idle (hidle : s.orch = .idle) : statusBusy s.status = false := by
  have hname : s.orch.name = .Idle := by rw [hidle]; rfl
  simpa [hname] using hs.busy

/-- A session in flight is one of a build that has the session layer. -/
theorem sessionLayer_of_orch_ne_idle (hbusy : s.orch ≠ .idle) : s.params.hasSessionLayer = true := by
  by_contra hlayer
  exact hbusy (hs.session (Bool.not_eq_true _ ▸ hlayer))

theorem stateInv_received : StateInv (received s) := { hs with }

theorem stateInv_answer (r : Reply) : StateInv (answer r s) := { hs with }

/-- `REJ` has no part in the invariant. -/
theorem stateInv_setRej (r : Bool) : StateInv (setRej r s) :=
  { hs with
    reserved := statusReserved_pack ..
    err := (statusErr_pack ..).trans hs.err
    busy := by simpa using hs.busy
    conclude := fun h => (statusValid_pack ..).trans (hs.conclude h) }

theorem stateInv_setErr (e : Option Err) : StateInv (setErr e s) :=
  { hs with
    reserved := statusReserved_pack ..
    err := statusErr_pack ..
    busy := by simpa using hs.busy
    conclude := fun h => (statusValid_pack ..).trans (hs.conclude h) }

theorem stateInv_writeConfig {n v : Nat} (hv : v < 2 ^ s.params.cfgW) : StateInv (writeConfig n v s) := by
  simp only [writeConfig, hv, if_true]
  split
  · exact { hs with cfgFs := hv }
  · exact { hs with cfgBaud := hv }
  · exact { hs with cfgF1 := hv }
  · exact { hs with cfgF2 := hv }
  · split
    · exact { hs with cfgCapdur := hv }
    · exact stateInv_answer hs .refused
  · exact stateInv_answer hs .refused

/-- Where no text is about to be delivered, the buffers can be replaced. -/
theorem stateInv_withMem {m : Memory} (hstage : s.orch ≠ .decoding .conclude) (hwf : m.wf s.params) :
    StateInv { s with mem := m } :=
  { hs with mem := hwf, conclude := fun h => absurd h hstage }

theorem stateInv_loadBuffer (hidle : s.orch = .idle) {data : BufferData} (hfit : loadFits s.params data = true) :
    StateInv (loadBuffer data s) := by
  have hwf := loadBuffer_wf hs.mem hfit
  have hstage : s.orch ≠ .decoding .conclude := by simp [hidle]
  cases data <;> exact stateInv_withMem hs hstage hwf

/-- Between two stages of a session, `ORCH` moves on. -/
theorem stateInv_moveTo {o : Orch} (hbusy : s.orch ≠ .idle) (ho : o.name ≠ .Idle) (hstage : o ≠ .decoding .conclude) :
    StateInv { s with orch := o } :=
  { hs with
    busy := by simp [statusBusy_of_orch_ne_idle hs hbusy, ho]
    session := fun h => nomatch (sessionLayer_of_orch_ne_idle hs hbusy).symm.trans h
    conclude := fun h => absurd h hstage }

/-- A session begins or goes on. -/
theorem stateInv_goOn {o : Orch} (hlayer : s.params.hasSessionLayer = true) (ho : o.name ≠ .Idle)
    (hconclude : o = .decoding .conclude → statusValid s.status = isValid s.mem.text) :
    StateInv (setBusy true { s with orch := o }) :=
  { hs with
    reserved := statusReserved_pack ..
    err := (statusErr_pack ..).trans hs.err
    busy := by simp [ho]
    session := fun h => nomatch hlayer.symm.trans h
    conclude := fun h => (statusValid_pack ..).trans (hconclude h) }

/-- A session ends, whatever it logs. -/
theorem stateInv_endSession (log : List LogEntry) : StateInv (endSession { s with log := log }) :=
  { hs with
    reserved := statusReserved_pack ..
    err := (statusErr_pack ..).trans hs.err
    busy := by simp [Orch.name]
    session := fun _ => rfl
    conclude := fun h => nomatch h }

/-- What is delivered is the text that `VAL` has found valid. -/
theorem stateInv_deliver (hstage : s.orch = .decoding .conclude) (hvalid : statusValid s.status = true)
    (htext : s.mem.text ≠ []) : StateInv (deliver s) :=
  { stateInv_endSession hs s.log with
    delivered := fun t ht => by
      obtain hold | hnew := List.mem_append.mp ht
      · exact hs.delivered t hold
      · rw [List.mem_singleton.mp hnew]
        exact ⟨htext, (isValid_iff _).mp ((hs.conclude hstage).symm.trans hvalid)⟩ }

/-- A command leaves a state that would meet the invariant in `Idle`. -/
theorem stateInv_exec {i : Instr} (h : exec i s = .next t) : StateInv { t with orch := .idle } := by
  have hwf := exec_wf hs.params hs.mem h
  have hreserved := exec_reserved h
  have herr := exec_err h
  have hbusy := exec_busy h
  rw [exec_frame h]
  exact { hs with
    mem := hwf
    reserved := hreserved
    err := herr
    busy := by simp [hbusy, Orch.name]
    session := fun _ => rfl
    conclude := fun hc => nomatch hc }

theorem stateInv_exec_idle {i : Instr} (hidle : s.orch = .idle) (h : exec i s = .next t) : StateInv t := by
  have horch : t.orch = .idle := by rw [exec_frame h, hidle]
  have hexec := stateInv_exec hs h
  rwa [← horch] at hexec

theorem stateInv_stageGoesOn {i : Instr} (hi : stageCommand s.orch = some i) (h : exec i s = .next t) :
    StateInv (setBusy true { t with orch := nextStage s.orch }) := by
  have hbusy : s.orch ≠ .idle := fun hidle => by simp [hidle, stageCommand] at hi
  have hbuild : t.params = s.params := by rw [exec_frame h]
  have hlayer : t.params.hasSessionLayer = true := hbuild ▸ sessionLayer_of_orch_ne_idle hs hbusy
  obtain ⟨hname, hval⟩ := nextStage_of_command hi
  refine stateInv_goOn (stateInv_exec hs h) hlayer hname fun hconclude => ?_
  obtain rfl := hval hconclude
  have hvalid := exec_val_valid h
  exact hvalid

theorem stateInv_effect {e : Event} (h : Effect e s t) : StateInv t := by
  cases h with
  | reset => exact stateInv_resetEvent hs.params
  | answers r _ => exact stateInv_answer hs r
  | rejects _ _ => exact stateInv_answer (stateInv_setRej hs true) .refused
  | ignores _ => exact hs
  | loads hidle hfit => exact stateInv_loadBuffer hs (orch_eq_idle_of_idle hs hidle) hfit
  | configures _ _ hv => exact stateInv_writeConfig hs hv
  | commands hidle hexec => exact stateInv_exec_idle hs (orch_eq_idle_of_idle hs hidle) hexec
  | illegal _ => exact stateInv_setErr hs _
  | clearsRej _ _ => exact stateInv_setRej hs false
  | sendLoaded hlayer _ _ hfit =>
    have hgo := stateInv_goOn hs (o := .sending .encode) hlayer (by decide) nofun
    have hwf := writeText_wf hs.mem (heldText_fits hs.params _)
      ((exceeds_eq_false_iff _ _).mpr ((heldText_length s.params _).symm ▸ hfit))
    exact stateInv_withMem hgo nofun hwf
  | sendUnloaded hlayer _ _ _ => exact stateInv_goOn hs hlayer (by decide) nofun
  | recv hlayer _ => exact { stateInv_goOn hs (o := .listening) hlayer (by decide) nofun with }
  | waits _ => exact hs
  | unloaded _ => exact stateInv_endSession hs _
  | stageGoesOn hi hexec _ => exact stateInv_stageGoesOn hs hi hexec
  | stageFails _ hexec _ => exact stateInv_endSession (stateInv_exec hs hexec) _
  | calls hcall =>
    exact { stateInv_moveTo hs (o := .sending .playing) (by simp [hcall]) (by decide) nofun with }
  | delivers hstage hvalid htext => exact stateInv_deliver hs hstage hvalid htext
  | concludes _ _ => exact stateInv_endSession hs _
  | playbackDone _ => exact stateInv_endSession (stateInv_setErr hs none) _
  | playbackFailed _ => exact stateInv_endSession (stateInv_setErr hs _) _
  | captureLoaded hlistening _ hfit =>
    have hmove := stateInv_moveTo hs (o := .decoding .demodulate) (by simp [hlistening]) (by decide) nofun
    exact stateInv_withMem hmove nofun (writeWave_wf hs.mem ((exceeds_eq_false_iff _ _).mpr hfit))
  | captureUnloaded hlistening _ _ => exact stateInv_moveTo hs (by simp [hlistening]) (by decide) nofun
  | captureFailed _ => exact stateInv_endSession (stateInv_setErr hs _) _

end

end Sys2Proof.Laws

namespace Sys2Proof.Proofs

open Sys2Proof.Machine Sys2Proof.Laws

/-- Settles O40: the reset state is what the reset event leaves, and that event establishes the invariant. -/
theorem resetMeetsInvariant : Obligations.ResetMeetsInvariant := by
  unfold Obligations.ResetMeetsInvariant
  have hbuild : State.reset.params.wf := by decide
  exact stateInv_resetEvent hbuild

/-- Settles O41: a step is the effect of an event on the state that has received it. -/
theorem stepKeepsInvariant : Obligations.StepKeepsInvariant := by
  unfold Obligations.StepKeepsInvariant
  intro s t hs hstep
  exact stateInv_effect (stateInv_received hs) (effect_of_takeEvent hstep)

end Sys2Proof.Proofs
end

