-- ==== Sys2Proof/Proofs/HostAccessFamily.lean ====
section
/-!
PROOFS. The statements about command words (spec/30_encoding.md R70 to R72), the step around a command
(spec/00_scope.md R10) and what the host reads and writes (spec/10_state.md R20 to R24, spec/20_memory.md R57).
-/

namespace Sys2Proof.Laws

open Sys2Proof.Machine

section
variable {s : State}

/-! ## Buffers -/

/-- Idle, a load that does not fit is refused. -/
theorem takeEvent_hostLoad_of_not_fits {data : BufferData} (hidle : statusBusy s.status = false)
    (hfit : loadFits s.params data = false) : takeEvent (.hostLoad data) s = .next { s with reply := .refused } := by
  simp [takeEvent, hostLoad, hidle, hfit, refuse, answer]

theorem loadFits_of_tooLong {data : BufferData} (hlong : loadTooLong s.params data = true) :
    loadFits s.params data = false := by
  simp [loadFits, hlong]

theorem takeEvent_hostRead_of_idle (space : Space) (hidle : statusBusy s.status = false) :
    takeEvent (.hostRead space) s = .next { s with reply := .buffer (bufferOf s.mem space) } := by
  simp [takeEvent, hostRead, hidle, answer]

theorem takeEvent_hostReadCell_of_some {space : Space} {i : Nat} {c : Cell} (hidle : statusBusy s.status = false)
    (hc : cellOf s.mem space i = some c) :
    takeEvent (.hostReadCell space i) s = .next { s with reply := .cell c } := by
  simp [takeEvent, hostReadCell, hidle, hc, answer]

theorem takeEvent_hostReadCell_of_none {space : Space} {i : Nat} (hc : cellOf s.mem space i = none) :
    takeEvent (.hostReadCell space i) s = .next { s with reply := .refused } := by
  simp [takeEvent, hostReadCell, hc, refuse, answer]

/-- Cells at or beyond the length do not exist (R34). -/
theorem cellOf_of_length_le {m : Memory} {space : Space} {i : Nat} (hi : bufferLen m space ≤ i) :
    cellOf m space i = none := by
  cases space <;> simpa [cellOf, bufferLen] using hi

/-! ## Registers -/

/-- `STATUS` can be read idle and busy (R57). -/
theorem takeEvent_regRead_status : takeEvent (.regRead 6) s = .next { s with reply := .number s.status.toNat } := by
  simp [takeEvent, regRead, registerValue, answer]

theorem takeEvent_regWrite_config {n : Nat} (v : Nat) (hidle : statusBusy s.status = false) (hn : n ≤ 4) :
    takeEvent (.regWrite n v) s = .next (writeConfig n v s) := by
  simp [takeEvent, regWrite, hidle, hn]

theorem writeConfig_of_wide {n v : Nat} (hv : 2 ^ s.params.cfgW ≤ v) :
    writeConfig n v s = { s with reply := .refused } :=
  if_neg (Nat.not_lt.mpr hv)

/-- Idle, a value that does not fit the 8 bits of `CMD` or of `STATUS` is refused. -/
theorem takeEvent_regWrite_byte_of_wide {n v : Nat} (hidle : statusBusy s.status = false) (hn : n = 5 ∨ n = 6)
    (hv : 256 ≤ v) : takeEvent (.regWrite n v) s = .next { s with reply := .refused } := by
  have hwide : ¬ v < 256 := Nat.not_lt.mpr hv
  obtain rfl | rfl := hn
  · simp [takeEvent, regWrite, writeCommand, hidle, hwide, refuse, answer]
  · simp [takeEvent, regWrite, writeStatus, hidle, hwide, refuse, answer]

/-! ## Reads while busy -/

variable (hbusy : statusBusy s.status = true)
include hbusy

theorem takeEvent_hostRead_of_busy (space : Space) :
    takeEvent (.hostRead space) s = .next { s with reply := .refused } := by
  simp [takeEvent, hostRead, hbusy, refuse, answer]

theorem takeEvent_hostReadCell_of_busy (space : Space) (i : Nat) :
    takeEvent (.hostReadCell space i) s = .next { s with reply := .refused } := by
  simp [takeEvent, hostReadCell, hbusy, refuse, answer]

theorem takeEvent_regRead_of_busy {n : Nat} (hn : n ≠ 6) :
    takeEvent (.regRead n) s = .next { s with reply := .refused } := by
  simp [takeEvent, regRead, hbusy, hn, refuse, answer]

end

end Sys2Proof.Laws

namespace Sys2Proof.Proofs

open Sys2Proof.Machine Sys2Proof.Laws

/-- Settles O3: the two fields of the word are those of the command's own word. -/
theorem decodeEncodeAgree : Obligations.DecodeEncodeAgree := by
  unfold Obligations.DecodeEncodeAgree
  exact decode_ok_iff

/-- Settles O5: a step takes its event at the state that has received it; an idle write of `CMD` runs the command. -/
theorem stepRunsDecodedCommand : Obligations.StepRunsDecodedCommand := by
  unfold Obligations.StepRunsDecodedCommand
  refine ⟨fun s e es hinbox => step_cons hinbox, fun s hinbox => step_nil hinbox,
    fun s w i es hinbox hidle hw => ?command⟩
  obtain ⟨hruns, -⟩ := commandWriteRunsCommand
  rw [step_cons hinbox]
  exact hruns _ w i hidle hw

/-- Settles O31: each register that can be read has a value in the register map, and a value of its width is stored. -/
theorem registerMap : Obligations.RegisterMap := by
  unfold Obligations.RegisterMap
  refine fun s hidle => ⟨?reads, fun v hv => ?writes⟩
  case reads =>
    refine ⟨takeEvent_regRead_of_some hidle rfl, takeEvent_regRead_of_some hidle rfl,
      takeEvent_regRead_of_some hidle rfl, takeEvent_regRead_of_some hidle rfl,
      fun hlayer => takeEvent_regRead_of_some hidle ?_, takeEvent_regRead_status,
      takeEvent_regRead_of_some hidle rfl, takeEvent_regRead_of_some hidle rfl, takeEvent_regRead_of_some hidle rfl⟩
    simp [registerValue, hlayer]
  case writes =>
    have hconfig (n : Nat) (hn : n ≤ 4) := takeEvent_regWrite_config v hidle hn
    rw [hconfig 0 (by decide), hconfig 1 (by decide), hconfig 2 (by decide), hconfig 3 (by decide),
      hconfig 4 (by decide)]
    simp +contextual [writeConfig, hv]

/-- Settles O34: idle, each primitive answers by what it finds, and what does not fit is refused; busy, loads and writes
are rejected and reads refused. -/
theorem hostPrimitives : Obligations.HostPrimitives := by
  unfold Obligations.HostPrimitives
  refine fun s => ⟨fun hidle => ?idle, fun hbusy => ?busy, takeEvent_regRead_status⟩
  case idle =>
    refine ⟨fun cells hcodes hcap => takeEvent_hostLoad_of_fits hidle ((loadFits_text_iff _ _).mpr ⟨hcodes, hcap⟩),
      fun cells hcap => takeEvent_hostLoad_of_fits hidle ((loadFits_bits_iff _ _).mpr hcap),
      fun cells hcap => takeEvent_hostLoad_of_fits hidle ((loadFits_wave_iff _ _).mpr hcap),
      fun data hlong => takeEvent_hostLoad_of_not_fits hidle (loadFits_of_tooLong hlong),
      fun cells hwide => takeEvent_hostLoad_of_not_fits hidle ?wide,
      takeEvent_hostRead_of_idle _ hidle, takeEvent_hostRead_of_idle _ hidle, takeEvent_hostRead_of_idle _ hidle,
      fun i c hc => takeEvent_hostReadCell_of_some hidle (congrArg (Option.map Cell.text) hc),
      fun i b hb => takeEvent_hostReadCell_of_some hidle (congrArg (Option.map Cell.bit) hb),
      fun i x hx => takeEvent_hostReadCell_of_some hidle (congrArg (Option.map Cell.sample) hx),
      fun space i hi => takeEvent_hostReadCell_of_none (cellOf_of_length_le hi),
      fun n v hn hv => ?config, fun n v hn hv => takeEvent_regWrite_byte_of_wide hidle hn hv⟩
    case wide =>
      obtain ⟨c, hc, hbig⟩ := hwide
      rw [← Bool.not_eq_true, loadFits_text_iff]
      exact fun ⟨hcodes, _⟩ => absurd (hcodes c hc) (Nat.not_lt.mpr hbig)
    case config => rw [takeEvent_regWrite_config v hidle hn, writeConfig_of_wide hv]
  case busy =>
    exact ⟨fun data => ⟨reject s, takeEvent_hostLoad_of_busy data hbusy, reject_rejected s⟩,
      fun n v hn => ⟨reject s, takeEvent_regWrite_of_busy v hbusy hn, reject_rejected s⟩,
      takeEvent_hostRead_of_busy hbusy, takeEvent_hostReadCell_of_busy hbusy,
      fun n hn => takeEvent_regRead_of_busy hbusy hn⟩

end Sys2Proof.Proofs
end

