-- ==== Sys2Proof/Proofs/CommandInputs.lean ====
section
/-!
PROOFS. A command is a pure function of its input (spec/20_memory.md R56): its error and its output are the same in
states that agree on what it reads (`SameInput`), so it can be issued twice and reads nothing else; and its output is
never truncated (spec/60_exceptions.md R156, spec/20_memory.md R63).
-/

namespace Sys2Proof.Laws

open Sys2Proof.Machine

/-! ## What a command reads -/

/-- Two states agree on the four configuration registers `MOD` and `DEM` read (R71). -/
structure SameModem (s s' : State) : Prop where
  fs : s.cfgFs = s'.cfgFs
  baud : s.cfgBaud = s'.cfgBaud
  f1 : s.cfgF1 = s'.cfgF1
  f2 : s.cfgF2 = s'.cfgF2

/-- Two states of one build agree on what a command reads: its input buffer and, for `MOD` and `DEM`, the configuration
(R56, R71). -/
structure SameInput (i : Instr) (s s' : State) : Prop where
  params : s.params = s'.params
  input : bufferOf s.mem (inputSpace i) = bufferOf s'.mem (inputSpace i)
  config : i = .mod ∨ i = .dem → SameModem s s'

section
variable {s s' : State}

theorem SameInput.text {i : Instr} (h : SameInput i s s') (hi : inputSpace i = .text) : s.mem.text = s'.mem.text := by
  have hinput := h.input
  rw [hi] at hinput
  exact BufferData.text.inj hinput

theorem SameInput.bits {i : Instr} (h : SameInput i s s') (hi : inputSpace i = .bits) : s.mem.bits = s'.mem.bits := by
  have hinput := h.input
  rw [hi] at hinput
  exact BufferData.bits.inj hinput

theorem SameInput.wave {i : Instr} (h : SameInput i s s') (hi : inputSpace i = .wave) : s.mem.wave = s'.mem.wave := by
  have hinput := h.input
  rw [hi] at hinput
  exact BufferData.wave.inj hinput

theorem SameModem.spb_eq (h : SameModem s s') : spb s = spb s' := by
  simp only [spb, h.fs, h.baud]

theorem SameModem.configFault_eq (h : SameModem s s') : configFault s = configFault s' := by
  simp only [configFault, h.fs, h.baud, h.f1, h.f2]

/-- The bit of a window depends on the build and the configuration alone. -/
theorem classify_congr (hparams : s.params = s'.params) (h : SameModem s s') (x : List Sample) :
    classify s x = classify s' x := by
  have hmid : mid2 s = mid2 s' := by rw [mid2, mid2, h.f1, h.f2]
  rw [classify, classify, hparams, h.fs, hmid]

/-- The segment of a bit depends on the build and the configuration alone. -/
theorem bitSegment_congr (hparams : s.params = s'.params) (h : SameModem s s') (b : Bit) :
    bitSegment s b = bitSegment s' b := by
  simp only [bitSegment, toneOf, hparams, h.spb_eq, h.fs, h.f1, h.f2]

theorem windowCount_congr (h : SameModem s s') (hlength : s.mem.wave.length = s'.mem.wave.length) :
    windowCount s = windowCount s' := by
  rw [windowCount, windowCount, h.spb_eq, hlength]

/-- The error of a `DEM` depends on the number of samples alone. -/
theorem demFault_congr_of_length (hparams : s.params = s'.params) (h : SameModem s s')
    (hlength : s.mem.wave.length = s'.mem.wave.length) : demFault s = demFault s' := by
  rw [demFault, demFault, h.configFault_eq, windowCount_congr h hlength, hparams]

theorem encFault_congr (h : SameInput .enc s s') : encFault s = encFault s' := by
  rw [encFault, encFault, h.params, h.text rfl]

theorem decFault_congr (h : SameInput .dec s s') : decFault s = decFault s' := by
  rw [decFault, decFault, h.params, h.bits rfl]

theorem modFault_congr (h : SameInput .mod s s') : modFault s = modFault s' := by
  have hconfig := h.config (.inl rfl)
  rw [modFault, modFault, hconfig.configFault_eq, hconfig.spb_eq, h.params, h.bits rfl]

theorem demFault_congr (h : SameInput .dem s s') : demFault s = demFault s' :=
  demFault_congr_of_length h.params (h.config (.inr rfl)) (congrArg List.length (h.wave rfl))

theorem commandFault_congr {i : Instr} (h : SameInput i s s') : commandFault i s = commandFault i s' := by
  cases i with
  | enc => exact encFault_congr h
  | dec => exact decFault_congr h
  | mod => exact modFault_congr h
  | dem => exact demFault_congr h
  | val => rfl

theorem modulate_congr (h : SameInput .mod s s') : modulate s = modulate s' := by
  rw [modulate, modulate, funext (bitSegment_congr h.params (h.config (.inl rfl))), h.bits rfl]

theorem demodulate_congr (h : SameInput .dem s s') : demodulate s = demodulate s' := by
  have hconfig := h.config (.inr rfl)
  have hwindow (w : Nat) : window s w = window s' w := by rw [window, window, hconfig.spb_eq, h.wave rfl]
  rw [demodulate, demodulate, windowCount_congr hconfig (congrArg List.length (h.wave rfl))]
  exact List.map_congr_left fun w _ => by rw [hwindow, classify_congr h.params hconfig]

/-- The output buffer of a command that succeeds. -/
theorem withOutput_congr {i : Instr} {out : Space} (h : SameInput i s s') (hout : outputSpace i = some out) :
    bufferOf (withOutput i s).mem out = bufferOf (withOutput i s').mem out := by
  cases i <;> cases hout
  case enc => exact congrArg (fun text => BufferData.bits (encodeText text)) (h.text rfl)
  case dec => exact congrArg (fun bits => BufferData.text (decodeBits bits)) (h.bits rfl)
  case mod => exact congrArg BufferData.wave (modulate_congr h)
  case dem => exact congrArg BufferData.bits (demodulate_congr h)

end

/-! ## A command's output is not its input -/

/-- No command writes the buffer it reads (R51). -/
theorem inputSpace_ne_of_output {i : Instr} {out : Space} (hout : outputSpace i = some out) : inputSpace i ≠ out := by
  cases i <;> cases hout <;> decide

section
variable {i : Instr} {s t : State}

theorem bufferOf_withOutput_input (i : Instr) (s : State) :
    bufferOf (withOutput i s).mem (inputSpace i) = bufferOf s.mem (inputSpace i) := by
  cases i <;> rfl

/-- A command leaves what it reads as it was. -/
theorem exec_sameInput (h : exec i s = .next t) : SameInput i t s where
  params := by rw [exec_frame h]
  input := by
    obtain ⟨e, out, -, hout, rfl⟩ | ⟨-, rfl⟩ := exec_cases h
    · rw [raise_mem, bufferOf_clearBuffer_of_ne (inputSpace_ne_of_output hout)]
    · exact bufferOf_withOutput_input i s
  config _ := by
    rw [exec_frame h]
    exact ⟨rfl, rfl, rfl, rfl⟩

theorem exec_eq_complete (h : exec i s = .next t) (hnone : commandFault i s = none) :
    t = complete (withOutput i s) := by
  rw [exec_of_no_fault hnone] at h
  cases h
  rfl

/-- The outcome a command leaves is its error, if it has one. -/
theorem exec_cause (h : exec i s = .next t) : t.cause = commandFault i s := by
  obtain ⟨e, out, he, -, rfl⟩ | ⟨hnone, rfl⟩ := exec_cases h
  · rw [raise_cause, he]
  · rw [complete_cause, hnone]

/-! ## The same command twice -/

/-- Raising an error a second time changes nothing more. -/
theorem raise_idem (e : Err) (out : Space) (s : State) : raise e out (raise e out s) = raise e out s := by
  have hmem : (clearBuffer out (raise e out s)).mem = (clearBuffer out s).mem := by cases out <;> rfl
  rw [raise_eq e out (raise e out s), hmem, raise_eq e out s]
  simp

theorem complete_writeText_idem (cells : List Nat) (s : State) :
    complete (writeText cells (complete (writeText cells s))) = complete (writeText cells s) := by
  simp [complete_eq, writeText]

theorem complete_writeBits_idem (cells : List Bit) (s : State) :
    complete (writeBits cells (complete (writeBits cells s))) = complete (writeBits cells s) := by
  simp [complete_eq, writeBits]

theorem complete_writeWave_idem (cells : List Sample) (s : State) :
    complete (writeWave cells (complete (writeWave cells s))) = complete (writeWave cells s) := by
  simp [complete_eq, writeWave]

theorem complete_setValid_idem (v : Bool) (s : State) :
    complete (setValid v (complete (setValid v s))) = complete (setValid v s) := by
  simp [complete_eq, setValid]

/-- Writing the output a second time changes nothing more. -/
theorem complete_withOutput_idem (h : exec i s = .next (complete (withOutput i s))) :
    complete (withOutput i (complete (withOutput i s))) = complete (withOutput i s) := by
  have hsame := exec_sameInput h
  cases i with
  | enc => exact complete_writeBits_idem _ s
  | dec => exact complete_writeText_idem _ s
  | mod => rw [withOutput, modulate_congr hsame]; exact complete_writeWave_idem _ s
  | dem => rw [withOutput, demodulate_congr hsame]; exact complete_writeBits_idem _ s
  | val => exact complete_setValid_idem _ s

theorem exec_idem (h : exec i s = .next t) : exec i t = .next t := by
  have hfault : commandFault i t = commandFault i s := commandFault_congr (exec_sameInput h)
  obtain ⟨e, out, he, hout, rfl⟩ | ⟨hnone, rfl⟩ := exec_cases h
  · obtain ⟨out', hout', hexec⟩ := exec_of_fault (hfault.trans he)
    cases hout.symm.trans hout'
    rw [hexec, raise_idem]
  · rw [exec_of_no_fault (hfault.trans hnone), complete_withOutput_idem h]

/-- In states that agree on its input, a command leaves the same output buffer. -/
theorem exec_output_congr {s' t' : State} {out : Space} (hsame : SameInput i s s') (h : exec i s = .next t)
    (h' : exec i s' = .next t') (hout : outputSpace i = some out) : bufferOf t.mem out = bufferOf t'.mem out := by
  have hfault := commandFault_congr hsame
  cases hcase : commandFault i s' with
  | none =>
    rw [exec_eq_complete h (hfault.trans hcase), exec_eq_complete h' hcase]
    exact withOutput_congr hsame hout
  | some e =>
    rw [exec_eq_raise h (hfault.trans hcase) hout, exec_eq_raise h' hcase hout, raise_mem, raise_mem]
    cases out <;> rfl

end

/-! ## Capacity -/

section
variable {i : Instr} {s t : State} {out : Space}

/-- What a command that succeeds puts out has the length the rules give, untruncated (R63). -/
theorem bufferLen_withOutput (hout : outputSpace i = some out) :
    bufferLen (withOutput i s).mem out = neededLength s i := by
  cases i <;> cases hout
  case enc => exact encodeText_length _
  case dec => exact decodeBits_length _
  case mod => exact modulate_length s
  case dem => exact demodulate_length s

theorem fits_of_no_fault (hnone : commandFault i s = none) (hout : outputSpace i = some out) :
    Fits (capacityOf s.params out) (neededLength s i) := by
  rw [← exceeds_eq_false_iff]
  cases i <;> cases hout
  case enc => exact ((encFault_eq_none_iff s).mp hnone).2
  case dec => exact ((decFault_eq_none_iff s).mp hnone).2
  case mod => exact ((modFault_eq_none_iff s).mp hnone).2
  case dem => exact ((demFault_eq_none_iff s).mp hnone).2

theorem encFault_eq_capacity_iff (s : State) (n : Nat) :
    encFault s = some (.capacity n) ↔ firstUnencodable 0 s.mem.text = none ∧
      exceeds s.params.bitsCap (8 * s.mem.text.length) = true ∧ 8 * s.mem.text.length = n := by
  rw [encFault]
  cases firstUnencodable 0 s.mem.text <;> simp

theorem decFault_eq_capacity_iff (s : State) (n : Nat) :
    decFault s = some (.capacity n) ↔ s.mem.bits.length % 8 = 0 ∧
      exceeds s.params.textCap (s.mem.bits.length / 8) = true ∧ s.mem.bits.length / 8 = n := by
  rw [decFault]
  split_ifs <;> simp_all

theorem modFault_eq_capacity_iff (s : State) (n : Nat) :
    modFault s = some (.capacity n) ↔ configFault s = none ∧
      exceeds s.params.waveCap (s.mem.bits.length * spb s) = true ∧ s.mem.bits.length * spb s = n := by
  rw [modFault]
  cases configFault s <;> simp

theorem demFault_eq_capacity_iff (s : State) (n : Nat) :
    demFault s = some (.capacity n) ↔ configFault s = none ∧
      exceeds s.params.bitsCap (windowCount s) = true ∧ windowCount s = n := by
  rw [demFault]
  cases configFault s <;> simp

/-- `E_CAPACITY` names the length needed, which does not fit (R156). -/
theorem not_fits_of_capacity {n : Nat} (he : commandFault i s = some (.capacity n)) (hout : outputSpace i = some out) :
    ¬ Fits (capacityOf s.params out) (neededLength s i) ∧ neededLength s i = n := by
  rw [← exceeds_eq_true_iff]
  cases i <;> cases hout
  case enc => exact ((encFault_eq_capacity_iff s n).mp he).2
  case dec => exact ((decFault_eq_capacity_iff s n).mp he).2
  case mod => exact ((modFault_eq_capacity_iff s n).mp he).2
  case dem => exact ((demFault_eq_capacity_iff s n).mp he).2

theorem errCode_eq_capacity_iff (e : Option Err) : errCode e = 6#4 ↔ ∃ n, e = some (.capacity n) := by
  rcases e with _ | e
  · simp [errCode]
  · cases e <;> simp [errCode]

/-- A command that leaves the code 6 raised `E_CAPACITY` with the length it needed. -/
theorem exec_of_errCapacity (h : exec i s = .next t) (herr : statusErr t.status = 6#4) (hout : outputSpace i = some out) :
    ¬ Fits (capacityOf s.params out) (neededLength s i) ∧ t = raise (.capacity (neededLength s i)) out s := by
  rw [statusErr_exec h, errCode_eq_capacity_iff] at herr
  obtain ⟨n, hn⟩ := herr
  obtain ⟨hfits, rfl⟩ := not_fits_of_capacity hn hout
  exact ⟨hfits, exec_eq_raise h hn hout⟩

/-- An unbounded buffer holds any number of cells. -/
theorem fits_none (n : Nat) : Fits none n := fun _ h => nomatch h

theorem fits_of_unbounded (htext : s.params.textCap = none) (hbits : s.params.bitsCap = none)
    (hwave : s.params.waveCap = none) (space : Space) (n : Nat) : Fits (capacityOf s.params space) n := by
  cases space
  · rw [capacityOf, htext]; exact fits_none n
  · rw [capacityOf, hbits]; exact fits_none n
  · rw [capacityOf, hwave]; exact fits_none n

end

end Sys2Proof.Laws

namespace Sys2Proof.Proofs

open Sys2Proof.Machine Sys2Proof.Laws

/-- Settles O35: a command leaves its input as it was, so a second issue has the same error or the same output. -/
theorem commandsAreIdempotent : Obligations.CommandsAreIdempotent := by
  unfold Obligations.CommandsAreIdempotent
  exact fun i s t h => exec_idem h

/-- Settles O36: the two states agree on the command's input, so it has the same error in both, or the same output. -/
theorem commandsReadOnlyTheirInput : Obligations.CommandsReadOnlyTheirInput := by
  unfold Obligations.CommandsReadOnlyTheirInput
  intro i s s' t t' hparams hinput hconfig h h'
  have hsame : SameInput i s s' := ⟨hparams, hinput, fun hi =>
    let ⟨hfs, hbaud, hf1, hf2⟩ := hconfig hi
    ⟨hfs, hbaud, hf1, hf2⟩⟩
  have hfault := commandFault_congr hsame
  refine ⟨by rw [statusErr_exec h, statusErr_exec h', hfault], by rw [exec_cause h, exec_cause h', hfault],
    fun out hout => exec_output_congr hsame h h' hout, ?valid⟩
  rintro rfl
  rw [exec_val_valid h, exec_val_valid h', (exec_sameInput h).text rfl, (exec_sameInput h').text rfl, hsame.text rfl]

end Sys2Proof.Proofs
end

