-- ==== Sys2Proof/Proofs/WritersFamily.lean ====
section
/-!
PROOFS. Who writes what: the statements about every event that follow from the list of its effects (`Effect`). The
configuration (spec/20_memory.md R61), `STATUS` (spec/10_state.md R29), `E_CAPACITY` (spec/60_exceptions.md R156), the
output streams (R164 to R166, R170) and the transitions of `ORCH` (spec/44_session.md R130).
-/

namespace Sys2Proof.Laws

open Sys2Proof.Machine

/-! ## What a load, a write of the configuration and a command leave alone -/

theorem loadBuffer_frame (data : BufferData) (s : State) :
    loadBuffer data s = { s with mem := (loadBuffer data s).mem } := by
  cases data <;> rfl

/-- A write of the configuration changes one of its registers, or is refused. -/
theorem writeConfig_frame (n v : Nat) (s : State) :
    writeConfig n v s =
      { s with
        cfgFs := (writeConfig n v s).cfgFs
        cfgBaud := (writeConfig n v s).cfgBaud
        cfgF1 := (writeConfig n v s).cfgF1
        cfgF2 := (writeConfig n v s).cfgF2
        cfgCapdur := (writeConfig n v s).cfgCapdur
        reply := (writeConfig n v s).reply } := by
  unfold writeConfig
  split
  · split
    case h_5 => split <;> rfl
    all_goals rfl
  · rfl

/-! ## The configuration -/

/-- The build and the five configuration registers are the same. -/
structure SameConfig (s t : State) : Prop where
  params : t.params = s.params
  fs : t.cfgFs = s.cfgFs
  baud : t.cfgBaud = s.cfgBaud
  f1 : t.cfgF1 = s.cfgF1
  f2 : t.cfgF2 = s.cfgF2
  capdur : t.cfgCapdur = s.cfgCapdur

theorem SameConfig.refl (s : State) : SameConfig s s := ⟨rfl, rfl, rfl, rfl, rfl, rfl⟩

theorem exec_sameConfig {i : Instr} {s t : State} (h : exec i s = .next t) : SameConfig s t := by
  rw [exec_frame h]
  exact { SameConfig.refl s with }

/-- Only reset and an idle write of the configuration write it (R61, R186). -/
theorem effect_sameConfig {e : Event} {s t : State} (h : Effect e s t) :
    e = .reset ∨ (statusBusy s.status = false ∧ ∃ n v, n ≤ 4 ∧ v < 2 ^ s.params.cfgW ∧ e = .regWrite n v) ∨
      SameConfig s t := by
  have hrefl := SameConfig.refl s
  cases h with
  | reset => exact .inl rfl
  | configures hidle hn hv => exact .inr (.inl ⟨hidle, _, _, hn, hv, rfl⟩)
  | loads => rw [loadBuffer_frame]; exact .inr (.inr { hrefl with })
  | commands _ hexec => exact .inr (.inr (exec_sameConfig hexec))
  | stageGoesOn _ hexec _ => exact .inr (.inr { exec_sameConfig hexec with })
  | stageFails _ hexec _ => exact .inr (.inr { exec_sameConfig hexec with })
  | _ => exact .inr (.inr { hrefl with })

theorem effect_params {e : Event} {s t : State} (h : Effect e s t) : t.params = s.params := by
  cases h with
  | configures => rw [writeConfig_frame]
  | loads => rw [loadBuffer_frame]
  | commands _ hexec => exact (exec_sameConfig hexec).params
  | stageGoesOn _ hexec _ => exact (exec_sameConfig hexec).params
  | stageFails _ hexec _ => exact (exec_sameConfig hexec).params
  | _ => rfl

/-! ## `STATUS` -/

@[simp] theorem writeConfig_status (n v : Nat) (s : State) : (writeConfig n v s).status = s.status := by
  rw [writeConfig_frame]

@[simp] theorem loadBuffer_status (data : BufferData) (s : State) : (loadBuffer data s).status = s.status := by
  rw [loadBuffer_frame]

section
variable (s : State)

@[simp] theorem reject_status :
    (reject s).status = packStatus (statusErr s.status) true (statusValid s.status) (statusBusy s.status) := rfl
@[simp] theorem sendLoaded_status (text : List Nat) :
    (sendLoaded text s).status = packStatus (statusErr s.status) (statusRej s.status) (statusValid s.status) true := rfl
@[simp] theorem sendUnloaded_status :
    (sendUnloaded s).status = packStatus (statusErr s.status) (statusRej s.status) (statusValid s.status) true := rfl
@[simp] theorem startRecv_status :
    (startRecv s).status = packStatus (statusErr s.status) (statusRej s.status) (statusValid s.status) true := rfl
@[simp] theorem rejectSession_status :
    (rejectSession s).status = packStatus (statusErr s.status) (statusRej s.status) (statusValid s.status) false := rfl
@[simp] theorem deliver_status :
    (deliver s).status = packStatus (statusErr s.status) (statusRej s.status) (statusValid s.status) false := rfl
@[simp] theorem callPlayback_status : (callPlayback s).status = s.status := rfl
@[simp] theorem captureLoaded_status (samples : List Sample) : (captureLoaded samples s).status = s.status := rfl
@[simp] theorem captureUnloaded_status : (captureUnloaded s).status = s.status := rfl
@[simp] theorem resetEvent_status : (Machine.resetEvent s).status = 0#8 := rfl

end

theorem stageCommand_eq_val {o : Orch} (h : stageCommand o = some .val) : o = .decoding .validate := by
  obtain ⟨rfl, hi⟩ | ⟨rfl, hi⟩ | ⟨rfl, hi⟩ | ⟨rfl, hi⟩ | ⟨rfl, -⟩ := stageCommand_cases h
  case inr.inr.inr.inr => rfl
  all_goals cases hi

section
variable {e : Event} {s t : State} (h : Effect e s t)
include h

/-- `REJ` is cleared by reset and by an idle write of a 1 to it (R29). -/
theorem effect_rej_kept (hrej : statusRej s.status = true) :
    statusRej t.status = true ∨ e = .reset ∨
      ∃ v, e = .regWrite 6 v ∧ v.testBit 2 = true ∧ statusBusy s.status = false := by
  cases h with
  | reset => exact .inr (.inl rfl)
  | clearsRej hidle hbit => exact .inr (.inr ⟨_, rfl, hbit, hidle⟩)
  | commands _ hexec => simp [exec_rej hexec, hrej]
  | stageGoesOn _ hexec _ => simp [exec_rej hexec, hrej]
  | stageFails _ hexec _ => simp [exec_rej hexec, hrej]
  | _ => simp [hrej]

/-- `REJ` is set by a request while busy (R29, R157). -/
theorem effect_rej_set (hrej : statusRej t.status = true) :
    statusRej s.status = true ∨ (statusBusy s.status = true ∧ e.isRequest = true) := by
  cases h with
  | reset => exact absurd hrej (show ¬ statusRej 0#8 = true by decide)
  | rejects hrequest hbusy => exact .inr ⟨hbusy, hrequest⟩
  | commands _ hexec => exact .inl (by simpa [exec_rej hexec] using hrej)
  | stageGoesOn _ hexec _ => exact .inl (by simpa [exec_rej hexec] using hrej)
  | stageFails _ hexec _ => exact .inl (by simpa [exec_rej hexec] using hrej)
  | _ => simp_all

/-- `VALID` is written by `VAL` and by reset (R29). -/
theorem effect_valid :
    statusValid t.status = statusValid s.status ∨ e = .reset ∨
      (e = .regWrite 5 5 ∧ statusBusy s.status = false) ∨ (e = .quiet ∧ s.orch = .decoding .validate) := by
  cases h with
  | reset => exact .inr (.inl rfl)
  | @commands _ i _ hidle hexec =>
    by_cases hval : i = .val
    · subst hval
      exact .inr (.inr (.inl ⟨rfl, hidle⟩))
    · exact .inl (exec_valid hval hexec)
  | @stageGoesOn _ i _ hi hexec _ =>
    by_cases hval : i = .val
    · exact .inr (.inr (.inr ⟨rfl, stageCommand_eq_val (hval ▸ hi)⟩))
    · simp [exec_valid hval hexec]
  | @stageFails _ i _ hi hexec _ =>
    by_cases hval : i = .val
    · exact .inr (.inr (.inr ⟨rfl, stageCommand_eq_val (hval ▸ hi)⟩))
    · simp [exec_valid hval hexec]
  | _ => simp

theorem effect_reserved (hreserved : s.status.getLsbD 3 = false) : t.status.getLsbD 3 = false := by
  cases h with
  | reset => rw [resetEvent_status]; decide
  | configures => rwa [writeConfig_status]
  | loads => rwa [loadBuffer_status]
  | commands _ hexec => exact exec_reserved hexec
  | answers => exact hreserved
  | ignores => exact hreserved
  | waits => exact hreserved
  | calls => exact hreserved
  | captureLoaded => exact hreserved
  | captureUnloaded => exact hreserved
  | _ => exact statusReserved_pack ..

/-- `E_CAPACITY` comes from a command that raises it, of the host or of a session (R156). -/
theorem effect_errCapacity (herr : statusErr t.status = 6#4) :
    statusErr s.status = 6#4 ∨
      ∃ i u, exec i s = .next u ∧ statusErr u.status = 6#4 ∧
        ((e = .regWrite 5 (encode i).toNat ∧ statusBusy s.status = false) ∨
          (e = .quiet ∧ stageCommand s.orch = some i)) := by
  cases h with
  | reset => exact absurd herr (show ¬ statusErr 0#8 = 6#4 by decide)
  | @commands _ i _ hidle hexec => exact .inr ⟨i, t, hexec, herr, .inl ⟨rfl, hidle⟩⟩
  | @stageGoesOn _ i u _ _ hok => simp [hok] at herr
  | @stageFails _ i u hi hexec _ => exact .inr ⟨i, u, hexec, by simpa using herr, .inr ⟨rfl, hi⟩⟩
  | _ => simp_all [errCode]

end

/-! ## The output streams -/

/-- The four output streams are the same. -/
structure SameOutputs (s t : State) : Prop where
  delivered : t.delivered = s.delivered
  log : t.log = s.log
  playbackCalls : t.playbackCalls = s.playbackCalls
  captureCalls : t.captureCalls = s.captureCalls

theorem SameOutputs.refl (s : State) : SameOutputs s s := ⟨rfl, rfl, rfl, rfl⟩

theorem exec_sameOutputs {i : Instr} {s t : State} (h : exec i s = .next t) : SameOutputs s t := by
  rw [exec_frame h]
  exact { SameOutputs.refl s with }

theorem exec_orch {i : Instr} {s t : State} (h : exec i s = .next t) : t.orch = s.orch := by rw [exec_frame h]

section
variable {s : State}

/-- A stage whose command fails fails the session (R131, R133). -/
theorem sessionFails_stage {i : Instr} {t : State} (hi : stageCommand s.orch = some i) (h : exec i s = .next t)
    (herr : statusErr t.status ≠ 0#4) : SessionFails .quiet s (failSession t) := by
  have hcode : statusErr (failSession t).status = statusErr t.status := by simp
  refine ⟨.inl ⟨rfl, i, t, hi, h, hcode.symm⟩, hcode ▸ herr, rfl, ?_, ?_⟩
  · rw [failSession_log, (exec_sameOutputs h).log, hcode]
  · rw [failSession_delivered, (exec_sameOutputs h).delivered]

theorem sessionFails_playback (hwait : s.orch = .sending .playing) :
    SessionFails .playbackFailed s (failSession (setErr (some (.audio .playback)) s)) := by
  obtain ⟨⟨hcode, -, -⟩, hlog⟩ := failSession_audio .playback s
  exact ⟨.inr (.inl ⟨rfl, hwait, hcode⟩), by rw [hcode]; decide, rfl, by rw [hlog, hcode], rfl⟩

theorem sessionFails_capture (hwait : s.orch = .listening) :
    SessionFails .captureFailed s (failSession (setErr (some (.audio .capture)) s)) := by
  obtain ⟨⟨hcode, -, -⟩, hlog⟩ := failSession_audio .capture s
  exact ⟨.inr (.inr ⟨rfl, hwait, hcode⟩), by rw [hcode]; decide, rfl, by rw [hlog, hcode], rfl⟩

end

/-- A session that fails is in flight. -/
theorem orch_ne_idle_of_sessionFails {e : Event} {s t : State} (h : SessionFails e s t) : s.orch ≠ .idle := by
  obtain ⟨-, i, u, hi, -⟩ | ⟨-, hwait, -⟩ | ⟨-, hwait, -⟩ := h.step
  · exact fun hidle => by simp [hidle, stageCommand] at hi
  · simp [hwait]
  · simp [hwait]

theorem orch_ne_idle_of_unloaded {s : State} (h : isUnloaded s.orch = true) : s.orch ≠ .idle :=
  fun hidle => by simp [hidle, isUnloaded] at h

/-- What an event other than reset does to the output streams: nothing, a delivery, a rejection, a failure, or a call of
a collaborator. -/
theorem effect_outputs {e : Event} {s t : State} (h : Effect e s t) (hreset : e ≠ .reset) :
    SameOutputs s t ∨
      (s.orch = .decoding .conclude ∧ statusValid s.status = true ∧ s.mem.text ≠ [] ∧ t = deliver s) ∨
      (e = .quiet ∧ (s.orch = .decoding .conclude ∨ isUnloaded s.orch = true) ∧ t = rejectSession s) ∨
      (SessionFails e s t ∧ t.playbackCalls = s.playbackCalls ∧ t.captureCalls = s.captureCalls) ∨
      (s.orch = .sending .call ∧ t = callPlayback s) ∨ (e = .recv ∧ t = startRecv s) := by
  have hrefl := SameOutputs.refl s
  cases h with
  | reset => exact absurd rfl hreset
  | delivers hstage hvalid htext => exact .inr (.inl ⟨hstage, hvalid, htext, rfl⟩)
  | unloaded hunloaded => exact .inr (.inr (.inl ⟨rfl, .inr hunloaded, rfl⟩))
  | concludes hstage _ => exact .inr (.inr (.inl ⟨rfl, .inl hstage, rfl⟩))
  | stageFails hi hexec herr =>
    have hsame := exec_sameOutputs hexec
    exact .inr (.inr (.inr (.inl ⟨sessionFails_stage hi hexec herr, hsame.playbackCalls, hsame.captureCalls⟩)))
  | playbackFailed hwait => exact .inr (.inr (.inr (.inl ⟨sessionFails_playback hwait, rfl, rfl⟩)))
  | captureFailed hwait => exact .inr (.inr (.inr (.inl ⟨sessionFails_capture hwait, rfl, rfl⟩)))
  | calls hcall => exact .inr (.inr (.inr (.inr (.inl ⟨hcall, rfl⟩))))
  | recv => exact .inr (.inr (.inr (.inr (.inr ⟨rfl, rfl⟩))))
  | configures => rw [writeConfig_frame]; exact .inl { hrefl with }
  | loads => rw [loadBuffer_frame]; exact .inl { hrefl with }
  | commands _ hexec => exact .inl (exec_sameOutputs hexec)
  | stageGoesOn _ hexec _ => exact .inl { exec_sameOutputs hexec with }
  | _ => exact .inl { hrefl with }

/-! ## The transitions of `ORCH` -/

/-- A text that is not skipped is not empty and has a character that is no white space (R137). -/
theorem exists_of_not_skipped {p : Params} {text : List Nat} (h : skipped p text = false) :
    text ≠ [] ∧ ∃ c ∈ text, c ∉ p.whiteSpace := by
  have hsome : ∃ c ∈ text, c ∉ p.whiteSpace := by
    rw [← Bool.not_eq_true, skipped_iff] at h
    simpa using h
  refine ⟨?_, hsome⟩
  rintro rfl
  simp at hsome

/-- A stage that goes on stays in its state of R130's table. -/
theorem nextStage_name (o : Orch) : (nextStage o).name = o.name := by
  cases o with
  | idle => rfl
  | sending stage => cases stage <;> rfl
  | listening => rfl
  | decoding stage => cases stage <;> rfl

/-- Where a command is issued, the session is a send or a decoding. -/
theorem name_of_stageCommand {o : Orch} {i : Instr} (h : stageCommand o = some i) :
    o.name = .Sending ∨ o.name = .Decoding := by
  obtain ⟨rfl, -⟩ | ⟨rfl, -⟩ | ⟨rfl, -⟩ | ⟨rfl, -⟩ | ⟨rfl, -⟩ := stageCommand_cases h <;> decide

theorem isUnloaded_cases {o : Orch} (h : isUnloaded o = true) : o = .sending .unloaded ∨ o = .decoding .unloaded := by
  cases o with
  | idle => cases h
  | sending stage => cases stage <;> simp_all [isUnloaded]
  | listening => cases h
  | decoding stage => cases stage <;> simp_all [isUnloaded]

end Sys2Proof.Laws

namespace Sys2Proof.Proofs

open Sys2Proof.Machine Sys2Proof.Laws

/-- Settles O37: of the effects of an event only two write the configuration, and none the build. -/
theorem configurationIsFrozenInFlight : Obligations.ConfigurationIsFrozenInFlight := by
  unfold Obligations.ConfigurationIsFrozenInFlight
  intro e s t h
  have heffect := effect_of_takeEvent h
  refine ⟨effect_params heffect, ?_⟩
  obtain hreset | hwrite | hsame := effect_sameConfig heffect
  · exact .inl hreset
  · exact .inr (.inl hwrite)
  · exact .inr (.inr ⟨hsame.fs, hsame.baud, hsame.f1, hsame.f2, hsame.capdur⟩)

/-- Settles O30: one fact for each flag, over the effects of an event. -/
theorem statusFlagsHaveFewWriters : Obligations.StatusFlagsHaveFewWriters := by
  unfold Obligations.StatusFlagsHaveFewWriters
  intro e s t h
  have heffect := effect_of_takeEvent h
  exact ⟨effect_rej_kept heffect, effect_rej_set heffect, effect_valid heffect, effect_reserved heffect⟩

/-- Settles O28: a command's output has the needed length or the command has raised `E_CAPACITY`; a long load is
refused; and no other effect of an event leaves the code 6. -/
theorem capacityNeverTruncates : Obligations.CapacityNeverTruncates := by
  unfold Obligations.CapacityNeverTruncates
  refine ⟨fun i s t out hout h => ⟨fun hok => ?success, fun herr => ?capacity,
    fun htext hbits hwave herr => ?unbounded⟩,
    fun s data hidle hlong => takeEvent_hostLoad_of_not_fits hidle (loadFits_of_tooLong hlong),
    fun e s t h herr => effect_errCapacity (effect_of_takeEvent h) herr⟩
  case success =>
    rw [statusErr_exec h, errCode_eq_zero_iff] at hok
    rw [exec_eq_complete h hok, complete_mem]
    exact ⟨fits_of_no_fault hok hout, bufferLen_withOutput hout⟩
  case capacity =>
    obtain ⟨hfits, rfl⟩ := exec_of_errCapacity h herr hout
    exact ⟨hfits, raise_failed (.capacity _) out s⟩
  case unbounded =>
    obtain ⟨hfits, -⟩ := exec_of_errCapacity h herr hout
    exact hfits (fits_of_unbounded htext hbits hwave out _)

/-- Settles O50: each of the effects on the output streams adds one entry to one of them. -/
theorem outputsOnlyGrow : Obligations.OutputsOnlyGrow := by
  unfold Obligations.OutputsOnlyGrow
  intro e s t hs hreset h
  obtain hsame | ⟨hstage, hvalid, htext, rfl⟩ | ⟨hquiet, hstage, rfl⟩ | ⟨hfails, hplayback, hcapture⟩ | ⟨hcall, rfl⟩ |
    ⟨hrecv, rfl⟩ := effect_outputs (effect_of_takeEvent h) hreset
  · exact ⟨.inl hsame.delivered, .inl hsame.log, .inl hsame.playbackCalls, .inl hsame.captureCalls⟩
  · have hprintable := (isValid_iff _).mp ((hs.conclude hstage).symm.trans hvalid)
    exact ⟨.inr ⟨s.mem.text, rfl, rfl, htext, hprintable, hstage, rfl⟩, .inl rfl, .inl rfl, .inl rfl⟩
  · have hbusy : s.orch ≠ .idle := hstage.elim (fun hc => by simp [hc]) orch_ne_idle_of_unloaded
    exact ⟨.inl rfl, .inr ⟨.rejected, rfl, hbusy, rfl, .inl ⟨rfl, hquiet, hstage⟩⟩, .inl rfl, .inl rfl⟩
  · have hbusy := orch_ne_idle_of_sessionFails hfails
    exact ⟨.inl hfails.delivered, .inr ⟨_, hfails.logged, hbusy, hfails.ended, .inr ⟨rfl, hfails⟩⟩, .inl hplayback,
      .inl hcapture⟩
  · exact ⟨.inl rfl, .inl rfl, .inr ⟨rfl, hcall, rfl⟩, .inl rfl⟩
  · exact ⟨.inl rfl, .inl rfl, .inl rfl, .inr ⟨rfl, hrecv, rfl⟩⟩

/-- Settles O43: each effect leaves `ORCH` in its state or is a row of the table. -/
theorem orchTransitions : Obligations.OrchTransitions := by
  unfold Obligations.OrchTransitions
  intro e s t hs hreset h
  have hidle (h : statusBusy s.status = false) : s.orch.name = .Idle := by rw [orch_eq_idle_of_idle hs h]; rfl
  cases effect_of_takeEvent h with
  | reset => exact absurd rfl hreset
  | loads => rw [loadBuffer_frame]; exact .inl rfl
  | configures => rw [writeConfig_frame]; exact .inl rfl
  | commands _ hexec => rw [exec_orch hexec]; exact .inl rfl
  | sendLoaded _ hfree hskip _ => exact .inr (.inl ⟨hidle hfree, rfl, _, rfl, exists_of_not_skipped hskip⟩)
  | sendUnloaded _ hfree hskip _ => exact .inr (.inl ⟨hidle hfree, rfl, _, rfl, exists_of_not_skipped hskip⟩)
  | recv _ hfree => exact .inr (.inr (.inr (.inl ⟨hidle hfree, rfl, rfl⟩)))
  | unloaded hunloaded =>
    have herr : statusErr (rejectSession s).status = statusErr s.status := by simp
    obtain hsend | hrecv := isUnloaded_cases hunloaded
    · exact .inr (.inr (.inl ⟨by rw [hsend]; rfl, rfl, .inr (.inl ⟨rfl, hsend, herr, rfl⟩)⟩))
    · exact .inr (.inr (.inr (.inr (.inr (.inr ⟨by rw [hrecv]; rfl, rfl, rfl,
        .inr (.inr (.inl ⟨hrecv, herr, rfl, rfl⟩))⟩)))))
  | stageGoesOn => exact .inl (nextStage_name _)
  | stageFails hi hexec herr =>
    have hfails := sessionFails_stage hi hexec herr
    obtain hsend | hrecv := name_of_stageCommand hi
    · exact .inr (.inr (.inl ⟨hsend, rfl, .inr (.inr hfails)⟩))
    · exact .inr (.inr (.inr (.inr (.inr (.inr ⟨hrecv, rfl, rfl, .inr (.inr (.inr hfails))⟩)))))
  | calls hcall => exact .inl (by rw [hcall]; rfl)
  | delivers hstage hvalid htext =>
    exact .inr (.inr (.inr (.inr (.inr (.inr ⟨by rw [hstage]; rfl, rfl, rfl,
      .inl ⟨hstage, hvalid, htext, rfl, rfl⟩⟩)))))
  | concludes hstage hvalid =>
    exact .inr (.inr (.inr (.inr (.inr (.inr ⟨by rw [hstage]; rfl, rfl, rfl,
      .inr (.inl ⟨hstage, hvalid, rfl, rfl⟩)⟩)))))
  | playbackDone hwait =>
    exact .inr (.inr (.inl ⟨by rw [hwait]; rfl, rfl, .inl ⟨rfl, hwait, by simp [errCode], rfl⟩⟩))
  | playbackFailed hwait =>
    exact .inr (.inr (.inl ⟨by rw [hwait]; rfl, rfl, .inr (.inr (sessionFails_playback hwait))⟩))
  | captureLoaded hwait hlength hfit =>
    exact .inr (.inr (.inr (.inr (.inl ⟨by rw [hwait]; rfl, rfl, _, rfl, hlength,
      fun _ => ⟨rfl, rfl⟩, fun hlong => absurd hfit hlong⟩))))
  | captureUnloaded hwait hlength hlong =>
    exact .inr (.inr (.inr (.inr (.inl ⟨by rw [hwait]; rfl, rfl, _, rfl, hlength,
      fun hfit => absurd hfit hlong, fun _ => ⟨rfl, rfl⟩⟩))))
  | captureFailed hwait =>
    exact .inr (.inr (.inr (.inr (.inr (.inl ⟨by rw [hwait]; rfl, rfl, rfl, sessionFails_capture hwait⟩)))))
  | _ => exact .inl rfl

end Sys2Proof.Proofs
end

