-- ==== Sys2Proof/Proofs/StopsFamily.lean ====
section
/-!
PROOFS. Which events stop the machine, and what requests do while busy (spec/44_session.md R134, R136;
spec/60_exceptions.md R157, R164; log 22, log 23).
-/

namespace Sys2Proof.Laws

open Sys2Proof.Machine

section
variable {s : State}

theorem writeCommand_next (v : Nat) (s : State) : ∃ t, writeCommand v s = .next t := by
  unfold writeCommand
  split
  · split
    · exact exec_next _ s
    · exact ⟨_, rfl⟩
  · exact ⟨_, rfl⟩

theorem regWrite_next (n v : Nat) (s : State) : ∃ t, regWrite n v s = .next t := by
  unfold regWrite
  by_cases hcommand : n = 5 ∧ statusBusy s.status = false
  · obtain ⟨rfl, hidle⟩ := hcommand
    simpa [hidle] using writeCommand_next v s
  · split_ifs <;> simp_all

/-- Whatever the orchestrator does next, it stops nothing: no command stops (R163). -/
theorem advance_next (s : State) : ∃ t, advance s = .next t := by
  obtain hwait | hunloaded | ⟨i, hi⟩ | hcall | hconclude := orch_cases s.orch
  · exact ⟨s, advance_of_waiting hwait⟩
  · exact ⟨_, advance_of_unloaded hunloaded⟩
  · obtain ⟨u, hu⟩ := exec_next i s
    rw [advance_of_stage hi, commandStage_of_next _ hu]
    exact ⟨_, rfl⟩
  · exact ⟨_, advance_of_call hcall⟩
  · exact ⟨_, advance_of_conclude hconclude⟩

theorem request_next {e : Event} (he : e.isRequest = true) (s : State) : ∃ t, takeEvent e s = .next t := by
  cases e with
  | regWrite n v => exact regWrite_next n v s
  | hostLoad => exact ⟨_, rfl⟩
  | hostRead => exact ⟨_, rfl⟩
  | hostReadCell => exact ⟨_, rfl⟩
  | regRead => exact ⟨_, rfl⟩
  | send => exact ⟨_, rfl⟩
  | recv => exact ⟨_, rfl⟩
  | reset => cases he
  | quiet => cases he
  | playbackDone => cases he
  | playbackFailed => cases he
  | captureDone => cases he
  | captureFailed => cases he

/-- A request while busy is answered or rejected, and does nothing else (R134, R157). -/
theorem effect_request_busy {e : Event} {t : State} (h : Effect e s t) (he : e.isRequest = true)
    (hbusy : statusBusy s.status = true) : (∃ r, t = answer r s) ∨ t = reject s ∨ t = s := by
  have hidle : statusBusy s.status = false → (∃ r, t = answer r s) ∨ t = reject s ∨ t = s :=
    fun hidle => nomatch hbusy.symm.trans hidle
  cases h with
  | answers r _ => exact .inl ⟨r, rfl⟩
  | rejects => exact .inr (.inl rfl)
  | ignores => exact .inr (.inr rfl)
  | loads h _ => exact hidle h
  | configures h _ _ => exact hidle h
  | commands h _ => exact hidle h
  | illegal h => exact hidle h
  | clearsRej h _ => exact hidle h
  | sendLoaded _ h _ _ => exact hidle h
  | sendUnloaded _ h _ _ => exact hidle h
  | recv _ h => exact hidle h
  | _ => cases he

end

end Sys2Proof.Laws

namespace Sys2Proof.Proofs

open Sys2Proof.Machine Sys2Proof.Laws

/-- Settles O42: requests, reset and the absence of an event have a next state; a collaborator's answer has one if a
session waits for it, and if a capture has the length asked for. -/
theorem onlyCollaboratorsCanStopTheMachine : Obligations.OnlyCollaboratorsCanStopTheMachine := by
  unfold Obligations.OnlyCollaboratorsCanStopTheMachine
  intro e s
  by_cases hrequest : e.isRequest = true
  · exact .inl (request_next hrequest s)
  cases e with
  | reset => exact .inl ⟨_, rfl⟩
  | quiet => exact .inl (advance_next s)
  | playbackDone =>
    by_cases hwait : s.orch = .sending .playing
    · exact .inl ⟨_, if_pos hwait⟩
    · exact .inr (.inr (.inl ⟨.inl rfl, hwait, if_neg hwait⟩))
  | playbackFailed =>
    by_cases hwait : s.orch = .sending .playing
    · exact .inl ⟨_, if_pos hwait⟩
    · exact .inr (.inr (.inl ⟨.inr rfl, hwait, if_neg hwait⟩))
  | captureDone samples =>
    by_cases hwait : s.orch = .listening
    · by_cases hlength : samples.length = s.cfgFs * s.cfgCapdur
      · exact .inl ⟨_, (if_pos hwait).trans (if_pos hlength)⟩
      · exact .inr (.inl ⟨samples, rfl, hwait, hlength, (if_pos hwait).trans (if_neg hlength)⟩)
    · exact .inr (.inr (.inr ⟨.inr ⟨samples, rfl⟩, hwait, if_neg hwait⟩))
  | captureFailed =>
    by_cases hwait : s.orch = .listening
    · exact .inl ⟨_, if_pos hwait⟩
    · exact .inr (.inr (.inr ⟨.inl rfl, hwait, if_neg hwait⟩))
  | _ => exact absurd rfl hrequest

/-- Settles O49: a request while busy is answered, rejected or ignored; a session that waits does not move. -/
theorem noRequestDisturbsASession : Obligations.NoRequestDisturbsASession := by
  unfold Obligations.NoRequestDisturbsASession
  refine ⟨fun e s hbusy he => ?request, fun s hwait => advance_of_waiting ?waiting⟩
  case request =>
    obtain ⟨t, ht⟩ := request_next he s
    refine ⟨t, ht, ?_⟩
    obtain ⟨r, rfl⟩ | rfl | rfl := effect_request_busy (effect_of_takeEvent ht) he hbusy
    · exact ⟨rfl, rfl, rfl, hbusy⟩
    · exact ⟨rfl, by simp, by simp, by simp [hbusy]⟩
    · exact ⟨rfl, rfl, rfl, hbusy⟩
  case waiting => obtain h | h := hwait <;> rw [h] <;> rfl

end Sys2Proof.Proofs
end

