-- ==== Sys2Proof/Proofs/PeakLaws.lean ====
section
/-!
PROOFS. What a window's bit means (spec/42_demodulator.md R118, R121, and the corner cases of R110): the search split at
the threshold, constant waveforms, and the amplitude.
-/

namespace Sys2Proof.Laws

open Sys2Proof.Machine

/-! ## The least peak -/

/-- A bin of the lower half is nearer to 0 than to the window's length (R114, R121b). -/
theorem absBin_of_le_half {k len : Nat} (hk : k ≤ len / 2) : absBin k len = k := by
  unfold absBin
  omega

section
variable {x : List Sample} (hx : 0 < x.length)
include hx

/-- Whatever the tie rule, R115 compares the peak bin itself with the threshold. -/
theorem classify_iff_peakBin (s : State) :
    classify s x = true ↔ mid2 s * x.length ≤ 2 * peakBin s.params.tie x * s.cfgFs := by
  rw [classify_iff, absBin_of_le_half (peakBin_isGreatestBin s.params.tie x hx).2]

/-- R115 at the one bin the least-index rule leaves. -/
theorem classify_iff_of_isPeakBin {s : State} (htie : s.params.tie = .leastIndex) {k : Nat}
    (hk : IsPeakBin (x.map Sample.val) k) : classify s x = true ↔ mid2 s * x.length ≤ 2 * k * s.cfgFs := by
  rw [classify_iff_peakBin hx s, isPeakBin_unique (peakBin_isPeakBin htie hx) hk]

end

theorem magnitude_lt_peak {x : List ℝ} {j k : Nat} (hk : IsPeakBin x k) (hj : j < k) :
    magnitude x j < magnitude x k := by
  obtain ⟨-, hmax, hleast⟩ := hk
  obtain ⟨l, hl, hlt⟩ := hleast j hj
  exact hlt.trans_le (hmax l hl)

/-- Bin 0 is the peak where no bin exceeds it. -/
theorem isPeakBin_zero {x : List ℝ} (hx : 0 < x.length) (hmax : ∀ j < x.length, magnitude x j ≤ magnitude x 0) :
    IsPeakBin x 0 :=
  ⟨hx, hmax, fun _ hk => absurd hk (Nat.not_lt_zero _)⟩

/-! ## Constant waveforms -/

/-- The factors of the transform have absolute value 1. -/
theorem norm_exp_turn (k n len : Nat) :
    ‖Complex.exp (-(2 * Real.pi * Complex.I * k * n / len))‖ = 1 := by
  have hreal : -(2 * Real.pi * Complex.I * k * n / len) = ((-(2 * Real.pi * k * n / len) : ℝ) : ℂ) * Complex.I := by
    push_cast
    ring
  rw [hreal, Complex.norm_exp_ofReal_mul_I]

/-- No bin exceeds the sum of the absolute values (the triangle inequality). -/
theorem magnitude_le_sum_abs (x : List ℝ) (k : Nat) :
    magnitude x k ≤ ∑ n ∈ Finset.range x.length, |x.getD n 0| := by
  refine (norm_sum_le _ _).trans_eq (Finset.sum_congr rfl fun n _ => ?_)
  rw [norm_mul, norm_exp_turn, mul_one, Complex.norm_real, Real.norm_eq_abs]

/-- Bin 0 of a window is the sum of its samples. -/
theorem magnitude_zero_bin (x : List ℝ) : magnitude x 0 = |∑ n ∈ Finset.range x.length, x.getD n 0| := by
  rw [← Real.norm_eq_abs, ← Complex.norm_real, magnitude, dft]
  simp

/-- In a constant window no bin exceeds bin 0. -/
theorem magnitude_replicate_le (len : Nat) (a : ℝ) (k : Nat) :
    magnitude (List.replicate len a) k ≤ magnitude (List.replicate len a) 0 := by
  have hcell : ∀ n ∈ Finset.range len, (List.replicate len a).getD n 0 = a := fun n hn => by
    simp [List.getD_eq_getElem?_getD, Finset.mem_range.mp hn]
  refine (magnitude_le_sum_abs _ k).trans_eq ?_
  rw [magnitude_zero_bin, List.length_replicate, Finset.sum_congr rfl hcell,
    Finset.sum_congr rfl fun n hn => congrArg abs (hcell n hn)]
  simp [abs_mul]

theorem classify_of_constant {s : State} {x : List Sample} {a : ℝ} (hlegal : ConfigLegal s)
    (htie : s.params.tie = .leastIndex) (hx : 0 < x.length) (hconst : ∀ e ∈ x, e.val = a) : classify s x = false := by
  have hvalues : x.map Sample.val = List.replicate x.length a := by
    rw [List.eq_replicate_iff]
    simpa using hconst
  have hpeak : IsPeakBin (x.map Sample.val) 0 := by
    rw [hvalues]
    exact isPeakBin_zero (by simpa using hx) fun k _ => magnitude_replicate_le x.length a k
  have hpos : 0 < mid2 s * x.length := Nat.mul_pos (mid2_pos hlegal) hx
  rw [← Bool.not_eq_true, classify_iff_of_isPeakBin hx htie hpeak]
  omega

/-! ## Scaling -/

theorem magnitude_map_mul (r : ℝ) (x : List ℝ) (k : Nat) : magnitude (x.map (r * ·)) k = |r| * magnitude x k := by
  have hdft : dft (x.map (r * ·)) k = r * dft x k := by
    rw [dft, dft, List.length_map, Finset.mul_sum]
    refine Finset.sum_congr rfl fun n _ => ?_
    have hcell : (x.map (r * ·)).getD n 0 = r * x.getD n 0 := by
      simpa using List.getD_map (l := x) (n := n) (d := 0) (f := (r * ·))
    rw [hcell, Complex.ofReal_mul, mul_assoc]
  rw [magnitude, hdft, norm_mul, Complex.norm_real, Real.norm_eq_abs, magnitude]

/-- Scaling a window does not move its peak (R118). -/
theorem isPeakBin_map_mul {r : ℝ} (hr : r ≠ 0) {x : List ℝ} {k : Nat} (hk : IsPeakBin x k) :
    IsPeakBin (x.map (r * ·)) k := by
  have hpos : 0 < |r| := abs_pos.mpr hr
  obtain ⟨hlt, hmax, hleast⟩ := hk
  simp only [IsPeakBin, List.length_map, magnitude_map_mul, mul_le_mul_iff_right₀ hpos, mul_lt_mul_iff_right₀ hpos]
  exact ⟨hlt, hmax, hleast⟩

theorem classify_of_scaled {s : State} {x y : List Sample} {r : ℝ} (htie : s.params.tie = .leastIndex) (hr : r ≠ 0)
    (hx : 0 < x.length) (hy : y.map Sample.val = x.map fun e => r * e.val) : classify s y = classify s x := by
  have hlength : y.length = x.length := by simpa using congrArg List.length hy
  have hpeak := isPeakBin_map_mul hr (peakBin_isPeakBin htie hx)
  rw [List.map_map] at hpeak
  rw [Bool.eq_iff_iff, classify_iff_of_isPeakBin (hlength ▸ hx) htie (hy ▸ hpeak), classify_iff_peakBin hx, hlength]

/-- The values of a window, as a part of the waveform's values. -/
theorem map_window (f : Sample → ℝ) (s : State) (w : Nat) :
    (window s w).map f = memRead (s.mem.wave.map f) (w * spb s) (min (spb s) (s.mem.wave.length - w * spb s)) := by
  rw [window, memRead, memRead, List.map_take, List.map_drop]

theorem demodulate_of_scaled {s s' : State} {r : ℝ} (hparams : s'.params = s.params) (hmodem : SameModem s' s)
    (hlegal : ConfigLegal s) (htie : s.params.tie = .leastIndex) (hr : r ≠ 0)
    (hscaled : s'.mem.wave.map Sample.val = s.mem.wave.map fun e => r * e.val) : demodulate s' = demodulate s := by
  have hlength : s'.mem.wave.length = s.mem.wave.length := by simpa using congrArg List.length hscaled
  rw [demodulate, demodulate, windowCount_congr hmodem hlength]
  refine List.map_congr_left fun w hw => ?_
  have hwindow : (window s' w).map Sample.val = (window s w).map fun e => r * e.val := by
    rw [map_window, map_window, hscaled, hlength, hmodem.spb_eq]
  rw [classify_congr hparams hmodem]
  exact classify_of_scaled htie hr (window_length_pos (spb_pos hlegal) (List.mem_range.mp hw)) hwindow

end Sys2Proof.Laws

namespace Sys2Proof.Proofs

open Sys2Proof.Machine Sys2Proof.Laws

/-- Settles O17: the peak bin is such a bin if it is at or above the threshold, and is beaten by such a bin if it is
below. -/
theorem splitSearchDecidesTheBit : Obligations.SplitSearchDecidesTheBit := by
  unfold Obligations.SplitSearchDecidesTheBit
  intro s x htie hx
  have hpeak := peakBin_isPeakBin htie hx
  have hhalf := (peakBin_isGreatestBin s.params.tie x hx).2
  rw [classify_iff_peakBin hx]
  generalize peakBin s.params.tie x = p at hpeak hhalf
  constructor
  · refine fun hp => ⟨p, hhalf, hp, fun j hj _ => magnitude_lt_peak hpeak ?_⟩
    by_contra hle
    have hmono : 2 * p * s.cfgFs ≤ 2 * j * s.cfgFs := by gcongr; omega
    omega
  · rintro ⟨k, hk, -, hbeats⟩
    by_contra hp
    have hlt := hbeats p (Nat.lt_of_not_le hp) hhalf
    have hle := hpeak.2.1 k (by rw [List.length_map]; omega)
    exact absurd hlt hle.not_gt

/-- Settles O18: every window is constant, and bin 0 of a constant window is its least peak. -/
theorem constantWaveformGivesZeros : Obligations.ConstantWaveformGivesZeros := by
  unfold Obligations.ConstantWaveformGivesZeros
  intro s a hlegal htie hcap hconst
  refine ⟨_, exec_dem_of_fits hlegal hcap, by simp, ?_⟩
  change demodulate s = List.replicate (windowCount s) false
  rw [List.eq_replicate_iff]
  refine ⟨demodulate_length s, fun b hb => ?_⟩
  obtain ⟨w, hw, rfl⟩ := List.mem_map.mp hb
  refine classify_of_constant (a := a) hlegal htie (window_length_pos (spb_pos hlegal) (List.mem_range.mp hw)) fun e he => ?_
  exact hconst e (List.mem_of_mem_drop (List.mem_of_mem_take he))

/-- Settles O19: the two waveforms have the same error or windows that differ by the factor, which moves no peak. -/
theorem amplitudeDoesNotMatter : Obligations.AmplitudeDoesNotMatter := by
  unfold Obligations.AmplitudeDoesNotMatter
  intro s wave r htie hr hscaled
  have hlength : wave.length = s.mem.wave.length := by simpa using congrArg List.length hscaled
  have hmodem : SameModem { s with mem := { s.mem with wave := wave } } s := ⟨rfl, rfl, rfl, rfl⟩
  have hfault : demFault { s with mem := { s.mem with wave := wave } } = demFault s :=
    demFault_congr_of_length rfl hmodem hlength
  obtain ⟨e, he, hexec⟩ | ⟨hnone, hexec⟩ := exec_dem_cases s
  · obtain ⟨out, hout, hexec'⟩ := exec_of_fault (i := .dem) (hfault.trans he)
    cases hout
    exact ⟨_, _, hexec, hexec', rfl, by simp⟩
  · obtain ⟨hlegal, -⟩ := (demFault_eq_none_iff s).mp hnone
    refine ⟨_, _, hexec, exec_of_no_fault (hfault.trans hnone), ?_, by simp [withOutput]⟩
    exact demodulate_of_scaled rfl hmodem hlegal htie hr hscaled

end Sys2Proof.Proofs
end

