-- ==== Sys2Proof/Proofs/ToneSpectrum.lean ====
section
/-!
SUPPORT. The spectrum of a sampled sine (spec/42_demodulator.md R112, R119). Summed against a root of unity, a sine of
any frequency has a closed form, so the square of its magnitude at a bin is a quotient of two expressions in cosines
(`magnitude_toneWindow_sq`). A sine that is on a bin has its only peak there; the default tone of 2500 Hz, between two
bins, exceeds in bin 8 every bin below 7.
-/

namespace Sys2Proof.Laws

open Sys2Proof.Machine

/-! ## The closed form -/

/-- `len` samples of a sine of amplitude `amp` that advances by `step` a sample. -/
noncomputable def toneWindow (amp step : ℝ) (len : Nat) : List ℝ :=
  (List.range len).map fun n : Nat => amp * Real.sin (step * n)

@[simp] theorem toneWindow_length (amp step : ℝ) (len : Nat) : (toneWindow amp step len).length = len := by
  simp [toneWindow]

theorem toneWindow_getD {amp step : ℝ} {len n : Nat} (hn : n < len) :
    (toneWindow amp step len).getD n 0 = amp * Real.sin (step * n) := by
  simp [toneWindow, List.getD_eq_getElem?_getD, hn]

/-- The angle between a bin's neighbouring samples, `2π·k/L`. -/
noncomputable def binAngle (k len : Nat) : ℝ := 2 * Real.pi * k / len

/-- The factor the transform advances by from one sample to the next. -/
noncomputable def binRoot (k len : Nat) : ℂ := Complex.cos (binAngle k len) - Complex.sin (binAngle k len) * Complex.I

theorem binRoot_eq_exp (k len : Nat) : binRoot k len = Complex.exp (-(binAngle k len) * Complex.I) := by
  rw [Complex.exp_mul_I, Complex.cos_neg, Complex.sin_neg, binRoot]
  ring

theorem binRoot_pow (k len n : Nat) :
    binRoot k len ^ n = Complex.exp (-(2 * Real.pi * Complex.I * k * n / len)) := by
  rw [binRoot_eq_exp, ← Complex.exp_nat_mul, binAngle]
  congr 1
  push_cast
  ring

theorem binRoot_pow_length {len : Nat} (hlen : 0 < len) (k : Nat) : binRoot k len ^ len = 1 := by
  have hne : (len : ℂ) ≠ 0 := by exact_mod_cast hlen.ne'
  rw [binRoot_pow, mul_div_assoc, div_self hne, Complex.exp_eq_one_iff]
  exact ⟨-k, by push_cast; ring⟩

/-- The root is a zero of its quadratic. -/
theorem binRoot_quadratic (k len : Nat) :
    1 + binRoot k len ^ 2 = 2 * Complex.cos (binAngle k len) * binRoot k len := by
  have hpyth := Complex.sin_sq_add_cos_sq (binAngle k len)
  rw [binRoot]
  linear_combination Complex.sin (binAngle k len) ^ 2 * Complex.I_sq - hpyth

/-- The sum of a sine against the powers of any number, by the recurrence of the sine. -/
theorem sum_sin_mul_pow (step : ℝ) (q : ℂ) (n : Nat) :
    (1 - 2 * Complex.cos step * q + q ^ 2) * ∑ i ∈ Finset.range n, Complex.sin (step * i) * q ^ i =
      q * Complex.sin step - q ^ n * Complex.sin (step * n) + q ^ (n + 1) * Complex.sin (step * (n - 1)) := by
  induction n with
  | zero => simp
  | succ n ih =>
    have hrec : Complex.sin (step * (n + 1)) = 2 * Complex.cos step * Complex.sin (step * n) - Complex.sin (step * (n - 1)) := by
      rw [mul_add, mul_sub, Complex.sin_add, Complex.sin_sub, mul_one]
      ring
    rw [Finset.sum_range_succ, mul_add, ih]
    push_cast
    rw [hrec, add_sub_cancel_right]
    ring

/-- The transform of a tone, without a division. -/
theorem dft_toneWindow (amp step : ℝ) {len : Nat} (hlen : 0 < len) (k : Nat) :
    2 * (Complex.cos (binAngle k len) - Complex.cos step) * binRoot k len * dft (toneWindow amp step len) k =
      amp * ((Complex.sin step + Complex.sin (step * (len - 1))) * binRoot k len - Complex.sin (step * len)) := by
  have hdft : dft (toneWindow amp step len) k =
      amp * ∑ n ∈ Finset.range len, Complex.sin (step * n) * binRoot k len ^ n := by
    rw [dft, toneWindow_length, Finset.mul_sum]
    refine Finset.sum_congr rfl fun n hn => ?_
    rw [toneWindow_getD (Finset.mem_range.mp hn), binRoot_pow]
    push_cast
    ring
  have hsum := sum_sin_mul_pow step (binRoot k len) len
  rw [pow_succ _ len, binRoot_pow_length hlen, one_mul, one_mul] at hsum
  rw [hdft]
  linear_combination amp * hsum - amp * (∑ n ∈ Finset.range len, Complex.sin (step * n) * binRoot k len ^ n) * binRoot_quadratic k len

theorem norm_binRoot (k len : Nat) : ‖binRoot k len‖ = 1 := by
  rw [binRoot_eq_exp, ← Complex.ofReal_neg, Complex.norm_exp_ofReal_mul_I]

/-- The square of a real combination of the root and 1 (the cosine rule). -/
theorem norm_mul_binRoot_sub_sq (a b : ℝ) (k len : Nat) :
    ‖(a : ℂ) * binRoot k len - b‖ ^ 2 = a ^ 2 + b ^ 2 - 2 * a * b * Real.cos (binAngle k len) := by
  have hpyth := Real.sin_sq_add_cos_sq (binAngle k len)
  have hparts : (a : ℂ) * binRoot k len - b = ((a * Real.cos (binAngle k len) - b : ℝ) : ℂ) +
      ((-(a * Real.sin (binAngle k len)) : ℝ) : ℂ) * Complex.I := by
    rw [binRoot]
    push_cast
    ring
  rw [hparts, ← Complex.normSq_eq_norm_sq, Complex.normSq_add_mul_I]
  linear_combination a ^ 2 * hpyth

/-- What a tone adds to the numerator of its spectrum beside its last value. -/
noncomputable def edgeSum (step : ℝ) (len : Nat) : ℝ := Real.sin step + Real.sin (step * (len - 1))

/-- The spectrum of a tone: the square of a magnitude, without a division. -/
theorem magnitude_toneWindow_sq (amp step : ℝ) {len : Nat} (hlen : 0 < len) (k : Nat) :
    4 * (Real.cos (binAngle k len) - Real.cos step) ^ 2 * magnitude (toneWindow amp step len) k ^ 2 =
      amp ^ 2 * (edgeSum step len ^ 2 + Real.sin (step * len) ^ 2 -
        2 * edgeSum step len * Real.sin (step * len) * Real.cos (binAngle k len)) := by
  have hdft := dft_toneWindow amp step hlen k
  have hleft : 2 * (Complex.cos (binAngle k len) - Complex.cos step) =
      ((2 * (Real.cos (binAngle k len) - Real.cos step) : ℝ) : ℂ) := by push_cast; ring
  have hedge : Complex.sin step + Complex.sin (step * (len - 1)) = ((edgeSum step len : ℝ) : ℂ) := by
    rw [edgeSum]; push_cast; ring
  have hlast : Complex.sin (step * len) = ((Real.sin (step * len) : ℝ) : ℂ) := by push_cast; ring
  rw [hleft, hedge, hlast] at hdft
  have hnorm := congrArg (fun z : ℂ => ‖z‖ ^ 2) hdft
  simp only [norm_mul, mul_pow, norm_binRoot, Complex.norm_real, Real.norm_eq_abs, sq_abs, norm_mul_binRoot_sub_sq] at hnorm
  rw [magnitude, ← hnorm]
  ring

/-! ## A tone on a bin -/

/-- The angles of the bins of the lower half are at most `π`. -/
theorem binAngle_mem_Icc {k len : Nat} (hlen : 0 < len) (hk : 2 * k ≤ len) : binAngle k len ∈ Set.Icc 0 Real.pi := by
  have hlen' : (0 : ℝ) < len := by exact_mod_cast hlen
  have hk' : (2 : ℝ) * k ≤ len := by exact_mod_cast hk
  refine ⟨by unfold binAngle; positivity, ?_⟩
  rw [binAngle, div_le_iff₀ hlen']
  nlinarith [Real.pi_pos]

theorem binAngle_lt {j k len : Nat} (hlen : 0 < len) (h : j < k) : binAngle j len < binAngle k len := by
  have hlen' : (0 : ℝ) < len := by exact_mod_cast hlen
  have h' : (j : ℝ) < k := by exact_mod_cast h
  unfold binAngle
  gcongr

theorem binAngle_injective {j k len : Nat} (hlen : 0 < len) (h : binAngle j len = binAngle k len) : j = k := by
  rcases lt_trichotomy j k with hlt | heq | hgt
  · exact absurd h (binAngle_lt hlen hlt).ne
  · exact heq
  · exact absurd h (binAngle_lt hlen hgt).ne'

/-- `len` steps of a bin's angle are whole turns. -/
theorem binAngle_mul_length {len : Nat} (hlen : 0 < len) (k : Nat) : binAngle k len * len = k * (2 * Real.pi) := by
  have hne : (len : ℝ) ≠ 0 := by exact_mod_cast hlen.ne'
  rw [binAngle]
  field_simp

section
variable {amp : ℝ} {m len : Nat} (hlen : 0 < len) (hm : 2 * m ≤ len)
include hlen hm

/-- A tone on bin `m` has nothing in any other bin of the lower half. -/
theorem magnitude_toneWindow_of_ne {k : Nat} (hk : 2 * k ≤ len) (hne : k ≠ m) :
    magnitude (toneWindow amp (binAngle m len) len) k = 0 := by
  have hturns := binAngle_mul_length hlen m
  have hlast : Real.sin (binAngle m len * len) = 0 := by
    rw [hturns, Real.sin_periodic.nat_mul_eq, Real.sin_zero]
  have hedge : edgeSum (binAngle m len) len = 0 := by
    rw [edgeSum, mul_sub, mul_one, hturns, Real.sin_nat_mul_two_pi_sub, add_neg_cancel]
  have hcos : Real.cos (binAngle k len) - Real.cos (binAngle m len) ≠ 0 := fun h =>
    hne (binAngle_injective hlen
      (Real.injOn_cos (binAngle_mem_Icc hlen hk) (binAngle_mem_Icc hlen hm) (sub_eq_zero.mp h)))
  have hsq := magnitude_toneWindow_sq amp (binAngle m len) hlen k
  rw [hlast, hedge] at hsq
  simpa [hcos] using hsq

end

/-- The imaginary part of the transform of real samples. -/
theorem dft_im (x : List ℝ) (k : Nat) :
    (dft x k).im = -∑ n ∈ Finset.range x.length, x.getD n 0 * Real.sin (binAngle k x.length * n) := by
  rw [dft, Complex.im_sum, ← Finset.sum_neg_distrib]
  refine Finset.sum_congr rfl fun n _ => ?_
  have hexp : -(2 * Real.pi * Complex.I * k * n / x.length) = ((-(binAngle k x.length * n) : ℝ) : ℂ) * Complex.I := by
    rw [binAngle]
    push_cast
    ring
  rw [hexp, Complex.im_ofReal_mul, Complex.exp_ofReal_mul_I_im, Real.sin_neg, mul_neg]

/-- In its own bin, the imaginary part of a tone's transform is a sum of squares. -/
theorem dft_im_toneWindow_self (amp : ℝ) (m len : Nat) :
    (dft (toneWindow amp (binAngle m len) len) m).im =
      -(amp * ∑ n ∈ Finset.range len, Real.sin (binAngle m len * n) ^ 2) := by
  rw [dft_im, toneWindow_length, Finset.mul_sum]
  congr 1
  refine Finset.sum_congr rfl fun n hn => ?_
  rw [toneWindow_getD (Finset.mem_range.mp hn)]
  ring

theorem binAngle_mem_Ioo {m len : Nat} (hm : 0 < m) (hlen : 2 * m < len) : binAngle m len ∈ Set.Ioo 0 Real.pi := by
  have hlen' : (0 : ℝ) < len := by exact_mod_cast (Nat.zero_le _).trans_lt hlen
  have hm' : (0 : ℝ) < m := by exact_mod_cast hm
  have hhalf : (2 : ℝ) * m < len := by exact_mod_cast hlen
  refine ⟨by unfold binAngle; positivity, ?_⟩
  rw [binAngle, div_lt_iff₀ hlen']
  nlinarith [Real.pi_pos]

/-- A tone on a bin strictly inside the lower half is there in that bin. -/
theorem magnitude_toneWindow_self_pos {amp : ℝ} (hamp : amp ≠ 0) {m len : Nat} (hm : 0 < m) (hlen : 2 * m < len) :
    0 < magnitude (toneWindow amp (binAngle m len) len) m := by
  have hfirst : 0 < Real.sin (binAngle m len) := Real.sin_pos_of_mem_Ioo (binAngle_mem_Ioo hm hlen)
  have henergy : 0 < ∑ n ∈ Finset.range len, Real.sin (binAngle m len * n) ^ 2 := by
    refine Finset.sum_pos' (fun n _ => sq_nonneg _) ⟨1, Finset.mem_range.mpr (by omega), ?_⟩
    simpa using pow_pos hfirst 2
  have hne : (dft (toneWindow amp (binAngle m len) len) m).im ≠ 0 := by
    rw [dft_im_toneWindow_self]
    exact neg_ne_zero.mpr (mul_ne_zero hamp henergy.ne')
  exact (abs_pos.mpr hne).trans_le (Complex.abs_im_le_norm _)

/-- A tone on a bin peaks in that bin and in no other of the lower half. -/
theorem eq_of_isGreatestBin_toneWindow {amp : ℝ} (hamp : amp ≠ 0) {m len k : Nat} (hm : 0 < m) (hlen : 2 * m < len)
    (hk : IsGreatestBin (toneWindow amp (binAngle m len) len) k) (hhalf : k ≤ len / 2) : k = m := by
  by_contra hne
  obtain ⟨-, hmax⟩ := hk
  have hle := hmax m (by rw [toneWindow_length]; omega)
  rw [magnitude_toneWindow_of_ne (by omega) hlen.le (by omega) hne] at hle
  exact absurd (magnitude_toneWindow_self_pos hamp hm hlen) hle.not_gt

/-! ## The default tone between two bins -/

/-- Where the numerator of the spectrum grows with the bin's angle, a bin nearer to the tone from below is greater. -/
theorem magnitude_toneWindow_lt {amp step : ℝ} (hamp : amp ≠ 0) {j k len : Nat} (hlen : 0 < len) (hjk : j < k)
    (hk : 2 * k ≤ len) (hstep : binAngle k len < step) (hpi : step ≤ Real.pi) (hedge : 0 < edgeSum step len)
    (hlast : 0 < Real.sin (step * len)) :
    magnitude (toneWindow amp step len) j < magnitude (toneWindow amp step len) k := by
  have hkmem := binAngle_mem_Icc hlen hk
  have hjmem : binAngle j len ∈ Set.Icc 0 Real.pi := binAngle_mem_Icc hlen (by omega)
  have hcosjk : Real.cos (binAngle k len) < Real.cos (binAngle j len) :=
    Real.strictAntiOn_cos hjmem hkmem (binAngle_lt hlen hjk)
  have hcosk : Real.cos step < Real.cos (binAngle k len) :=
    Real.strictAntiOn_cos hkmem ⟨hkmem.1.trans hstep.le, hpi⟩ hstep
  have hj := magnitude_toneWindow_sq amp step hlen j
  have hk := magnitude_toneWindow_sq amp step hlen k
  have hamp2 : 0 < amp ^ 2 := by positivity
  have hcross : 0 < edgeSum step len * Real.sin (step * len) := mul_pos hedge hlast
  have hnum : 4 * (Real.cos (binAngle j len) - Real.cos step) ^ 2 * magnitude (toneWindow amp step len) j ^ 2 <
      4 * (Real.cos (binAngle k len) - Real.cos step) ^ 2 * magnitude (toneWindow amp step len) k ^ 2 := by
    rw [hj, hk]
    refine mul_lt_mul_of_pos_left ?_ hamp2
    nlinarith
  by_contra hle
  have hsq : magnitude (toneWindow amp step len) k ^ 2 ≤ magnitude (toneWindow amp step len) j ^ 2 :=
    pow_le_pow_left₀ (magnitude_nonneg _ _) (not_lt.mp hle) 2
  have hden : (Real.cos (binAngle k len) - Real.cos step) ^ 2 ≤ (Real.cos (binAngle j len) - Real.cos step) ^ 2 :=
    pow_le_pow_left₀ (by linarith) (by linarith) 2
  have hcontra := mul_le_mul (mul_le_mul_of_nonneg_left hden (show (0 : ℝ) ≤ 4 by norm_num)) hsq (sq_nonneg _) (by positivity)
  exact absurd hnum hcontra.not_gt

/-- The default tone of 2500 Hz, 8 turns and a third in a window of 147 samples, peaks at bin 7 or above. -/
theorem seven_le_of_isGreatestBin_default {amp : ℝ} (hamp : amp ≠ 0) {k : Nat}
    (hk : IsGreatestBin (toneWindow amp (50 * Real.pi / 441) 147) k) : 7 ≤ k := by
  have hpi := Real.pi_pos
  have hturns : 50 * Real.pi / 441 * (147 : ℕ) = 2 * Real.pi / 3 + (8 : ℕ) * (2 * Real.pi) := by push_cast; ring
  have hlast : 0 < Real.sin (50 * Real.pi / 441 * (147 : ℕ)) := by
    rw [hturns, Real.sin_add_nat_mul_two_pi]
    exact Real.sin_pos_of_pos_of_lt_pi (by linarith) (by linarith)
  have hbefore : 50 * Real.pi / 441 * ((147 : ℕ) - 1) = 244 * Real.pi / 441 + (8 : ℕ) * (2 * Real.pi) := by push_cast; ring
  have hedge : 0 < edgeSum (50 * Real.pi / 441) 147 := by
    rw [edgeSum, hbefore, Real.sin_add_nat_mul_two_pi]
    exact add_pos (Real.sin_pos_of_pos_of_lt_pi (by linarith) (by linarith))
      (Real.sin_pos_of_pos_of_lt_pi (by linarith) (by linarith))
  have hbelow : binAngle 8 147 < 50 * Real.pi / 441 := by
    rw [binAngle]
    push_cast
    linarith
  by_contra hlt
  have hgreater := magnitude_toneWindow_lt hamp (j := k) (k := 8) (len := 147) (by omega) (by omega) (by omega) hbelow
    (by linarith) hedge hlast
  exact absurd hgreater (hk.2 8 (by rw [toneWindow_length]; omega)).not_gt

end Sys2Proof.Laws
end

