-- ==== Sys2Proof/Proofs/RoundTripFamily.lean ====
section
/-!
PROOFS. `MOD` and then `DEM` (spec/42_demodulator.md R119; spec/70_reset_and_hazards.md R187, R193): each bit comes back
as the bit its segment is classified as.
-/

namespace Sys2Proof.Laws

open Sys2Proof.Machine

/-! ## The windows of a modulated waveform -/

/-- Where all parts of a concatenation have `k` cells, the `k` cells from `i·k` on are part `i`. -/
theorem take_drop_flatMap_of_length {α β : Type} {f : α → List β} {k : Nat} (hk : ∀ a, (f a).length = k)
    {l : List α} {i : Nat} {a : α} (ha : l[i]? = some a) : ((l.flatMap f).drop (i * k)).take k = f a := by
  refine List.ext_getElem? fun n => ?_
  by_cases hn : n < k
  · rw [List.getElem?_take_of_lt hn, List.getElem?_drop, flatMap_getElem?_of_length hk ha hn]
  · rw [List.getElem?_take_eq_none (Nat.le_of_not_lt hn), List.getElem?_eq_none (by rw [hk]; omega)]

/-- The state after a `MOD` that succeeds. -/
def modulated (s : State) : State := complete (writeWave (modulate s) s)

section
variable {s : State}

theorem modulated_sameModem (s : State) : SameModem (modulated s) s := ⟨rfl, rfl, rfl, rfl⟩

theorem window_modulated {w : Nat} {b : Bit} (hb : s.mem.bits[w]? = some b) :
    window (modulated s) w = bitSegment s b := by
  obtain ⟨hw, -⟩ := List.getElem?_eq_some_iff.mp hb
  have hspb : spb (modulated s) = spb s := (modulated_sameModem s).spb_eq
  have hfull : (w + 1) * spb (modulated s) ≤ (modulated s).mem.wave.length := by
    rw [hspb]
    exact (Nat.mul_le_mul_right _ hw).trans_eq (modulate_length s).symm
  rw [window_of_full hfull, hspb]
  exact take_drop_flatMap_of_length (bitSegment_length s) hb

variable (hlegal : ConfigLegal s)
include hlegal

theorem windowCount_modulated : windowCount (modulated s) = s.mem.bits.length := by
  have hspb : spb (modulated s) = spb s := (modulated_sameModem s).spb_eq
  exact windowCount_of_full (hspb ▸ spb_pos hlegal) (hspb ▸ modulate_length s)

theorem demodulate_modulated :
    demodulate (modulated s) = s.mem.bits.map fun b => classify s (bitSegment s b) := by
  refine List.ext_getElem (by simp [windowCount_modulated hlegal]) fun w hw hw' => ?_
  have hb : w < s.mem.bits.length := by simpa using hw'
  simp only [demodulate, List.getElem_map, List.getElem_range]
  rw [window_modulated (List.getElem?_eq_getElem hb)]
  exact classify_congr (s := modulated s) (s' := s) rfl (modulated_sameModem s) _

/-- `MOD` and then `DEM` give each bit back as the bit its segment is classified as. -/
theorem exec_mod_dem (hwave : Fits s.params.waveCap (s.mem.bits.length * spb s))
    (hbits : Fits s.params.bitsCap s.mem.bits.length) :
    ∃ t u, exec .mod s = .next t ∧ exec .dem t = .next u ∧ statusErr u.status = 0#4 ∧
      u.mem.bits = s.mem.bits.map fun b => classify s (bitSegment s b) := by
  have hcap : Fits (modulated s).params.bitsCap (windowCount (modulated s)) := by
    rwa [windowCount_modulated hlegal]
  exact ⟨_, _, exec_mod_of_fits hlegal hwave, exec_dem_of_fits hlegal hcap, by simp, demodulate_modulated hlegal⟩

end

/-! ## Tones -/

@[simp] theorem toneOf_false (s : State) : toneOf s false = s.cfgF1 := rfl

@[simp] theorem toneOf_true (s : State) : toneOf s true = s.cfgF2 := rfl

/-- The tone of a bit is a multiple of the baud rate, so on a bin, and strictly between 0 and half the sampling rate
(R119). -/
structure AlignedTone (s : State) (b : Bit) : Prop where
  multiple : toneOf s b % s.cfgBaud = 0
  pos : 0 < toneOf s b
  half : 2 * toneOf s b < s.cfgFs

section
variable {s : State} (hsine : s.params.sine = .mathematical) (hexact : s.params.numbers = .exact)
include hsine hexact

/-- The step of a tone from one sample to the next. -/
noncomputable def toneStep (s : State) (b : Bit) : ℝ := 2 * Real.pi * toneOf s b / s.cfgFs

/-- The values of a segment are a sampled sine (R101). -/
theorem bitSegment_map_val_eq_toneWindow (b : Bit) :
    (bitSegment s b).map Sample.val = toneWindow s.params.amp.val (toneStep s b) (spb s) := by
  rw [bitSegment_map_val, toneWindow]
  refine List.map_congr_left fun n _ => ?_
  rw [realTone_eq_sin hsine hexact, toneStep]
  congr 2
  ring

/-- A segment whose tone is aligned is classified by its own frequency (R119). -/
theorem classify_bitSegment_of_aligned (hlegal : ConfigLegal s) (hamp : s.params.amp.val ≠ 0) {b : Bit}
    (htone : AlignedTone s b) : classify s (bitSegment s b) = decide (mid2 s ≤ 2 * toneOf s b) := by
  obtain ⟨haligned, hpos, hhalf⟩ := htone
  obtain ⟨m, hm⟩ := Nat.dvd_of_mod_eq_zero haligned
  have hrate := spb_mul_baud hlegal
  have hspb := spb_pos hlegal
  have hbaud := hlegal.2.1
  have hmpos : 0 < m := by
    rcases Nat.eq_zero_or_pos m with rfl | h
    · simp [hm] at hpos
    · exact h
  have hmhalf : 2 * m < spb s := by
    rw [hm, ← hrate] at hhalf
    nlinarith
  have hstep : toneStep s b = binAngle m (spb s) := by
    have hb : (s.cfgBaud : ℝ) ≠ 0 := by exact_mod_cast hbaud.ne'
    rw [toneStep, binAngle, hm, ← hrate]
    push_cast
    field_simp
  have hlength : 0 < (bitSegment s b).length := by rwa [bitSegment_length]
  obtain ⟨hgreatest, hle⟩ := peakBin_isGreatestBin s.params.tie (bitSegment s b) hlength
  rw [bitSegment_map_val_eq_toneWindow hsine hexact, hstep] at hgreatest
  rw [bitSegment_length] at hle
  have hpeak := eq_of_isGreatestBin_toneWindow hamp hmpos hmhalf hgreatest hle
  rw [Bool.eq_iff_iff, classify_iff_peakBin hlength, hpeak, bitSegment_length, decide_eq_true_iff, hm, ← hrate]
  rw [show 2 * m * (spb s * s.cfgBaud) = 2 * (s.cfgBaud * m) * spb s by ring]
  exact Nat.mul_le_mul_right_iff hspb

end

/-! ## A trailing short window -/

theorem windowCount_of_remainder {s : State} (hlegal : ConfigLegal s) (hrest : s.mem.wave.length % spb s ≠ 0) :
    windowCount s = s.mem.wave.length / spb s + 1 := by
  have hspb := spb_pos hlegal
  have hsplit := Nat.div_add_mod' s.mem.wave.length (spb s)
  have hlt := Nat.mod_lt s.mem.wave.length hspb
  refine windowCount_of_short (by omega) ?_
  rw [Nat.succ_mul]
  omega

end Sys2Proof.Laws

namespace Sys2Proof.Proofs

open Sys2Proof.Machine Sys2Proof.Laws

/-- Settles O20: the bits come back as their segments are classified, so each must be classified as itself. -/
theorem roundTripIsTwoFacts : Obligations.RoundTripIsTwoFacts := by
  unfold Obligations.RoundTripIsTwoFacts
  intro s hlegal hwave hbits
  obtain ⟨t, u, hmod, hdem, hok, hout⟩ := exec_mod_dem hlegal hwave hbits
  refine ⟨t, u, hmod, hdem, hok, by simp [hout], ?_⟩
  rw [hout]
  nth_rw 2 [← List.map_id s.mem.bits]
  exact List.map_inj_left

/-- Settles O24: the trailing window is one bit more than the full windows, so the bits are no whole groups. -/
theorem trailingWindowSpoilsDecoding : Obligations.TrailingWindowSpoilsDecoding := by
  unfold Obligations.TrailingWindowSpoilsDecoding
  intro s hlegal hrest hgroups hcap
  have hcount := windowCount_of_remainder hlegal hrest
  have hlength : (demodulate s).length = s.mem.wave.length / spb s + 1 := (demodulate_length s).trans hcount
  have hpartial : (complete (writeBits (demodulate s) s)).mem.bits.length % 8 ≠ 0 := by
    change (demodulate s).length % 8 ≠ 0
    omega
  refine ⟨_, _, exec_dem_of_fits hlegal (hcount ▸ hcap), by simp, hlength, exec_dec_of_partial_group hpartial, ?_⟩
  rw [← hlength]
  exact raise_failed (.malformed _) .text _

/-- Settles O21: each tone is classified by its own frequency, and only that of 1 reaches the midpoint. -/
theorem alignedTonesRoundTrip : Obligations.AlignedTonesRoundTrip := by
  unfold Obligations.AlignedTonesRoundTrip
  intro s hbaud hrate hf1 hf2 hpos hlt hhalf hsine hexact hamp hwave hbits
  have hlegal : ConfigLegal s := ⟨by omega, hbaud, hrate, hlt.ne⟩
  have hzero : AlignedTone s false := ⟨hf1, hpos, (Nat.mul_lt_mul_of_pos_left hlt two_pos).trans hhalf⟩
  have hone : AlignedTone s true := ⟨hf2, hpos.trans hlt, hhalf⟩
  have hclassify (b : Bit) : classify s (bitSegment s b) = b := by
    cases b
    case false =>
      rw [classify_bitSegment_of_aligned hsine hexact hlegal hamp hzero, toneOf_false, mid2, decide_eq_false_iff_not]
      omega
    case true =>
      rw [classify_bitSegment_of_aligned hsine hexact hlegal hamp hone, toneOf_true, mid2, decide_eq_true_iff]
      omega
  obtain ⟨t, u, hmod, hdem, hok, hout⟩ := exec_mod_dem hlegal hwave hbits
  exact ⟨t, u, hmod, hdem, hok, by simp [hout, hclassify]⟩

/-- Settles O22: each tone is classified by its own frequency, and only that of 0 reaches the midpoint. -/
theorem reversedTonesInvert : Obligations.ReversedTonesInvert := by
  unfold Obligations.ReversedTonesInvert
  intro s hbaud hrate hf1 hf2 hpos hlt hhalf hsine hexact hamp hwave hbits
  have hlegal : ConfigLegal s := ⟨by omega, hbaud, hrate, hlt.ne'⟩
  have hzero : AlignedTone s false := ⟨hf1, hpos.trans hlt, hhalf⟩
  have hone : AlignedTone s true := ⟨hf2, hpos, (Nat.mul_lt_mul_of_pos_left hlt two_pos).trans hhalf⟩
  have hclassify (b : Bit) : classify s (bitSegment s b) = !b := by
    cases b
    case false =>
      rw [classify_bitSegment_of_aligned hsine hexact hlegal hamp hzero, toneOf_false, mid2, Bool.not_false,
        decide_eq_true_iff]
      omega
    case true =>
      rw [classify_bitSegment_of_aligned hsine hexact hlegal hamp hone, toneOf_true, mid2, Bool.not_true,
        decide_eq_false_iff_not]
      omega
  obtain ⟨t, u, hmod, hdem, hok, hout⟩ := exec_mod_dem hlegal hwave hbits
  exact ⟨t, u, hmod, hdem, hok, by simp [hout, hclassify]⟩

/-- Settles O23: the tone of 0 is aligned; that of 1 lies between bins 8 and 9, and its peak is above the bins below the
midpoint, 0 to 6. -/
theorem defaultTonesRoundTrip : Obligations.DefaultTonesRoundTrip := by
  unfold Obligations.DefaultTonesRoundTrip
  intro s hfs hbaud hf1 hf2 hsine hexact hamp hwave hbits
  have hlegal : ConfigLegal s := by simp [ConfigLegal, hfs, hbaud, hf1, hf2]
  have hspb : spb s = 147 := by rw [spb_of_legal hlegal, hfs, hbaud]
  have hamp' : s.params.amp.val ≠ 0 := by rw [hamp]; exact one_ne_zero
  have hzero : AlignedTone s false := by
    refine ⟨?_, ?_, ?_⟩
    · rw [toneOf_false, hf1, hbaud]
    · rw [toneOf_false, hf1]; omega
    · rw [toneOf_false, hf1, hfs]; omega
  have hstep : toneStep s true = 50 * Real.pi / 441 := by
    rw [toneStep, toneOf_true, hf2, hfs]
    push_cast
    ring
  have hclassify (b : Bit) : classify s (bitSegment s b) = b := by
    cases b
    case false =>
      rw [classify_bitSegment_of_aligned hsine hexact hlegal hamp' hzero, toneOf_false, mid2, decide_eq_false_iff_not]
      omega
    case true =>
      have hlength : 0 < (bitSegment s true).length := by rw [bitSegment_length, hspb]; omega
      obtain ⟨hgreatest, -⟩ := peakBin_isGreatestBin s.params.tie (bitSegment s true) hlength
      rw [bitSegment_map_val_eq_toneWindow hsine hexact, hstep, hspb] at hgreatest
      have hpeak := seven_le_of_isGreatestBin_default hamp' hgreatest
      rw [classify_iff_peakBin hlength, bitSegment_length, hspb, mid2, hf1, hf2, hfs]
      omega
  rw [← hspb] at hwave
  obtain ⟨t, u, hmod, hdem, hok, hout⟩ := exec_mod_dem hlegal hwave hbits
  exact ⟨t, u, hmod, hdem, hok, by simp [hout, hclassify]⟩

end Sys2Proof.Proofs
end

