-- ==== Sys2Proof/Proofs/SessionRuns.lean ====
section
/-!
SUPPORT. A session as a run of the machine (spec/44_session.md R131 to R133): a state of a session by the fields it can
differ in (`sessionState`), and one step from each kind of them.
-/

namespace Sys2Proof.Laws

open Sys2Proof.Machine

/-! ## Steps -/

/-- One step of a run that takes the event at the head of the inbox. -/
theorem steps_cons {k : Nat} {s t : State} {e : Event} {es : List Event} (hinbox : s.inbox = e :: es)
    (h : takeEvent e { s with inbox := es, reply := .nothing } = .next t) : steps (k + 1) s = steps k t :=
  steps_succ k ((step_cons hinbox).trans h)

/-- Waiting for the playback collaborator, its completion ends the session (R131). -/
theorem takeEvent_playbackDone {s : State} (h : s.orch = .sending .playing) :
    takeEvent .playbackDone s = .next (endSession (setErr none s)) :=
  if_pos h

/-! ## States of a session -/

/-- The state `s` with a session at `o`: the buffers are `m`, `STATUS` stands for the outcome `c`, and the events `es` are
still to come. -/
def sessionState (s : State) (o : Orch) (m : Memory) (valid : Bool) (c : Option Err) (es : List Event) : State :=
  { s with
    orch := o
    mem := m
    status := packStatus (errCode c) (statusRej s.status) valid (o != .idle)
    cause := c
    reply := .nothing
    inbox := es }

section
variable {s : State} {o : Orch} {m : Memory} {valid : Bool} {c : Option Err} {es : List Event}

theorem steps_sessionState {k : Nat} {e : Event} {t : State}
    (h : takeEvent e (sessionState s o m valid c es) = .next t) :
    steps (k + 1) (sessionState s o m valid c (e :: es)) = steps k t :=
  steps_cons rfl h

/-- Outside a session, a state that meets the invariant is a state of no session. -/
theorem sessionState_idle (hs : StateInv s) (hidle : s.orch = .idle) :
    sessionState s .idle s.mem (statusValid s.status) s.cause es = { s with reply := .nothing, inbox := es } := by
  have hstatus : packStatus (errCode s.cause) (statusRej s.status) (statusValid s.status) false = s.status := by
    rw [← hs.err, ← statusBusy_of_orch_idle hs hidle]
    exact packStatus_fields s.status hs.reserved
  have hbusy : (Orch.idle != .idle) = false := rfl
  rw [sessionState, hbusy, hstatus, hidle]

/-- Back in `Idle`, a session has ended with the code of its outcome. -/
theorem sessionState_ended {code : BitVec 4} (hcode : errCode c = code) :
    SessionEnded code (sessionState s .idle m valid c es) :=
  ⟨(statusErr_pack ..).trans hcode, statusBusy_pack .., rfl⟩

/-- A stage whose command succeeds. -/
theorem sessionState_stage {i : Instr} (hi : stageCommand o = some i) (hval : i ≠ .val)
    (hnone : commandFault i (sessionState s o m valid c es) = none) :
    takeEvent .quiet (sessionState s o m valid c es) =
      .next (sessionState s (nextStage o) (withOutput i (sessionState s o m valid c es)).mem valid none es) := by
  have hexec := exec_of_no_fault hnone
  have hi' : stageCommand (sessionState s o m valid c es).orch = some i := hi
  have hbusy : (nextStage o != .idle) = true := by
    rw [bne_iff_ne]
    rintro hidle
    exact (nextStage_of_command hi).1 (by rw [hidle]; rfl)
  rw [takeEvent, advance_of_stage hi', commandStage_of_ok _ hexec (by simp)]
  cases i with
  | val => exact absurd rfl hval
  | _ => simp [sessionState, complete_eq, withOutput, setBusy, writeText, writeBits, writeWave, errCode, hbusy]

/-- A stage whose command fails ends the session. -/
theorem sessionState_stage_fails {i : Instr} {e : Err} {out : Space} (hi : stageCommand o = some i)
    (hout : outputSpace i = some out) (he : commandFault i (sessionState s o m valid c es) = some e) :
    takeEvent .quiet (sessionState s o m valid c es) =
      .next (sessionState { s with log := s.log ++ [.error (errCode (some e))] } .idle
        (clearBuffer out (sessionState s o m valid c es)).mem valid (some e) es) := by
  obtain ⟨out', hout', hexec⟩ := exec_of_fault he
  cases hout.symm.trans hout'
  have hi' : stageCommand (sessionState s o m valid c es).orch = some i := hi
  rw [takeEvent, advance_of_stage hi', commandStage_of_failed _ hexec (statusErr_raise_ne_zero e out _)]
  simp [failSession_eq, raise_eq, sessionState]

/-- The send's playback is called with the whole waveform (R131, R164). -/
theorem sessionState_call :
    takeEvent .quiet (sessionState s (.sending .call) m valid c es) =
      .next (sessionState { s with playbackCalls := s.playbackCalls ++ [{ samples := m.wave, rate := s.cfgFs }] }
        (.sending .playing) m valid c es) := rfl

theorem sessionState_playbackDone :
    takeEvent .playbackDone (sessionState s (.sending .playing) m valid c es) =
      .next (sessionState s .idle m valid none es) := by
  rw [takeEvent_playbackDone rfl]
  simp [endSession_eq, setErr, sessionState]

theorem sessionState_playbackFailed :
    takeEvent .playbackFailed (sessionState s (.sending .playing) m valid c es) =
      .next (sessionState { s with log := s.log ++ [.error 3#4] } .idle m valid (some (.audio .playback)) es) := by
  rw [takeEvent_playbackFailed rfl]
  simp [failSession_eq, setErr, sessionState, errCode]

theorem sessionState_captureFailed :
    takeEvent .captureFailed (sessionState s .listening m valid c es) =
      .next (sessionState { s with log := s.log ++ [.error 3#4] } .idle m valid (some (.audio .capture)) es) := by
  rw [takeEvent_captureFailed rfl]
  simp [failSession_eq, setErr, sessionState, errCode]

/-- A session whose load was refused ends as rejected (log 20, log 21). -/
theorem sessionState_unloaded (ho : isUnloaded o = true) :
    takeEvent .quiet (sessionState s o m valid c es) =
      .next (sessionState { s with log := s.log ++ [.rejected] } .idle m valid c es) := by
  have ho' : isUnloaded (sessionState s o m valid c es).orch = true := ho
  rw [takeEvent, advance_of_unloaded ho']
  simp [rejectSession_eq, sessionState]

/-- After `VAL`, the flag says whether the text is valid (R125). -/
theorem sessionState_validate :
    takeEvent .quiet (sessionState s (.decoding .validate) m valid c es) =
      .next (sessionState s (.decoding .conclude) m (isValid m.text) none es) := by
  have hexec := exec_val_eq (sessionState s (.decoding .validate) m valid c es)
  have hbusy : (Orch.decoding .conclude != .idle) = true := rfl
  rw [takeEvent, advance_of_stage (i := .val) rfl, commandStage_of_ok _ hexec (by simp)]
  simp [sessionState, complete_eq, setBusy, setValid, nextStage, errCode, hbusy]

theorem sessionState_deliver (hvalid : valid = true) (htext : m.text ≠ []) :
    takeEvent .quiet (sessionState s (.decoding .conclude) m valid c es) =
      .next (sessionState { s with delivered := s.delivered ++ [m.text] } .idle m valid c es) := by
  have hvalid' : statusValid (sessionState s (.decoding .conclude) m valid c es).status = true := by
    rw [sessionState, statusValid_pack, hvalid]
  rw [takeEvent, advance_of_conclude rfl, concludeDecoding_of_valid hvalid' htext]
  simp [deliver, endSession_eq, sessionState]

theorem sessionState_reject (h : ¬ (valid = true ∧ m.text ≠ [])) :
    takeEvent .quiet (sessionState s (.decoding .conclude) m valid c es) =
      .next (sessionState { s with log := s.log ++ [.rejected] } .idle m valid c es) := by
  have h' : ¬ (statusValid (sessionState s (.decoding .conclude) m valid c es).status = true ∧
      (sessionState s (.decoding .conclude) m valid c es).mem.text ≠ []) := by
    rwa [sessionState, statusValid_pack]
  rw [takeEvent, advance_of_conclude rfl, concludeDecoding_of_not_valid h']
  simp [rejectSession_eq, sessionState]

end

/-! ## The errors of the commands -/

section
variable {s : State}

theorem encFault_eq_none (hcodes : ∀ c ∈ s.mem.text, c ≤ 255) (hcap : Fits s.params.bitsCap (8 * s.mem.text.length)) :
    commandFault .enc s = none :=
  (encFault_eq_none_iff s).mpr ⟨hcodes, (exceeds_eq_false_iff _ _).mpr hcap⟩

theorem encFault_eq_encoding {i : Nat} (h : firstUnencodable 0 s.mem.text = some i) :
    commandFault .enc s = some (.encoding i) := by
  rw [commandFault, encFault, h]

theorem encFault_eq_capacity (hcodes : ∀ c ∈ s.mem.text, c ≤ 255)
    (hcap : ¬ Fits s.params.bitsCap (8 * s.mem.text.length)) :
    commandFault .enc s = some (.capacity (8 * s.mem.text.length)) :=
  (encFault_eq_capacity_iff s _).mpr
    ⟨(firstUnencodable_eq_none_iff 0 _).mpr hcodes, (exceeds_eq_true_iff _ _).mpr hcap, rfl⟩

theorem decFault_eq_none (hgroups : s.mem.bits.length % 8 = 0) (hcap : Fits s.params.textCap (s.mem.bits.length / 8)) :
    commandFault .dec s = none :=
  (decFault_eq_none_iff s).mpr ⟨hgroups, (exceeds_eq_false_iff _ _).mpr hcap⟩

theorem decFault_eq_malformed (hgroups : s.mem.bits.length % 8 ≠ 0) :
    commandFault .dec s = some (.malformed s.mem.bits.length) :=
  if_pos hgroups

theorem decFault_eq_capacity (hgroups : s.mem.bits.length % 8 = 0)
    (hcap : ¬ Fits s.params.textCap (s.mem.bits.length / 8)) :
    commandFault .dec s = some (.capacity (s.mem.bits.length / 8)) :=
  (decFault_eq_capacity_iff s _).mpr ⟨hgroups, (exceeds_eq_true_iff _ _).mpr hcap, rfl⟩

theorem modFault_eq_none (hlegal : ConfigLegal s) (hcap : Fits s.params.waveCap (s.mem.bits.length * spb s)) :
    commandFault .mod s = none :=
  (modFault_eq_none_iff s).mpr ⟨hlegal, (exceeds_eq_false_iff _ _).mpr hcap⟩

theorem modFault_eq_capacity (hlegal : ConfigLegal s) (hcap : ¬ Fits s.params.waveCap (s.mem.bits.length * spb s)) :
    commandFault .mod s = some (.capacity (s.mem.bits.length * spb s)) :=
  (modFault_eq_capacity_iff s _).mpr
    ⟨(configFault_eq_none_iff s).mpr hlegal, (exceeds_eq_true_iff _ _).mpr hcap, rfl⟩

theorem demFault_eq_none (hlegal : ConfigLegal s) (hcap : Fits s.params.bitsCap (windowCount s)) :
    commandFault .dem s = none :=
  (demFault_eq_none_iff s).mpr ⟨hlegal, (exceeds_eq_false_iff _ _).mpr hcap⟩

theorem demFault_eq_capacity (hlegal : ConfigLegal s) (hcap : ¬ Fits s.params.bitsCap (windowCount s)) :
    commandFault .dem s = some (.capacity (windowCount s)) :=
  (demFault_eq_capacity_iff s _).mpr
    ⟨(configFault_eq_none_iff s).mpr hlegal, (exceeds_eq_true_iff _ _).mpr hcap, rfl⟩

end

/-! ## The stages whose command succeeds -/

section
variable {s : State} {m : Memory} {valid : Bool} {c : Option Err} {es : List Event}

theorem sessionState_encode (hcodes : ∀ c ∈ m.text, c ≤ 255) (hcap : Fits s.params.bitsCap (8 * m.text.length)) :
    takeEvent .quiet (sessionState s (.sending .encode) m valid c es) =
      .next (sessionState s (.sending .modulate) { m with bits := encodeText m.text } valid none es) :=
  sessionState_stage rfl (by decide) (encFault_eq_none hcodes hcap)

theorem sessionState_modulate (hlegal : ConfigLegal s) (hcap : Fits s.params.waveCap (m.bits.length * spb s)) :
    takeEvent .quiet (sessionState s (.sending .modulate) m valid c es) =
      .next (sessionState s (.sending .call) { m with wave := modulate { s with mem := m } } valid none es) :=
  sessionState_stage rfl (by decide) (modFault_eq_none hlegal hcap)

theorem sessionState_demodulate (hlegal : ConfigLegal s)
    (hcap : Fits s.params.bitsCap (windowCount { s with mem := m })) :
    takeEvent .quiet (sessionState s (.decoding .demodulate) m valid c es) =
      .next (sessionState s (.decoding .decode) { m with bits := demodulate { s with mem := m } } valid none es) :=
  sessionState_stage rfl (by decide) (demFault_eq_none hlegal hcap)

theorem sessionState_decode (hgroups : m.bits.length % 8 = 0) (hcap : Fits s.params.textCap (m.bits.length / 8)) :
    takeEvent .quiet (sessionState s (.decoding .decode) m valid c es) =
      .next (sessionState s (.decoding .validate) { m with text := decodeBits m.bits } valid none es) :=
  sessionState_stage rfl (by decide) (decFault_eq_none hgroups hcap)

end

end Sys2Proof.Laws
end

