-- ==== Sys2Proof/Proofs/SendFamily.lean ====
section
/-!
PROOFS. A send from its request to its end (spec/44_session.md R131).
-/

namespace Sys2Proof.Laws

open Sys2Proof.Machine

section
variable {s : State} {text : List Nat} (hs : StateInv s) (hidle : s.orch = .idle)
  (hlayer : s.params.hasSessionLayer = true) (hsome : ∃ c ∈ text, c ∉ s.params.whiteSpace)
include hs hidle hlayer hsome

theorem takeEvent_send_of_fits (hfit : Fits s.params.textCap text.length) :
    takeEvent (.send text) s = .next (sendLoaded text s) := by
  have hskip : skipped s.params text = false := by
    rw [← Bool.not_eq_true, skipped_iff]
    simpa using hsome
  rw [takeEvent, requestSend_of_idle text hlayer (statusBusy_of_orch_idle hs hidle), startSend_of_fits hskip hfit]

theorem takeEvent_send_of_not_fits (hfit : ¬ Fits s.params.textCap text.length) :
    takeEvent (.send text) s = .next (sendUnloaded s) := by
  have hskip : skipped s.params text = false := by
    rw [← Bool.not_eq_true, skipped_iff]
    simpa using hsome
  rw [takeEvent, requestSend_of_idle text hlayer (statusBusy_of_orch_idle hs hidle), startSend_of_not_fits hskip hfit]

/-- A send begins with its text in `TEXT`. -/
theorem steps_send (hfit : Fits s.params.textCap text.length) (k : Nat) (es : List Event) :
    steps (k + 1) { s with inbox := .send text :: es } =
      steps k (sessionState s (.sending .encode) { s.mem with text := heldText s.params text } (statusValid s.status)
        s.cause es) := by
  have hstart : takeEvent (.send text) { s with inbox := es, reply := .nothing } = _ :=
    takeEvent_send_of_fits { hs with } hidle hlayer hsome hfit
  refine (steps_cons (s := { s with inbox := .send text :: es }) rfl hstart).trans (congrArg (steps k) ?_)
  rw [sessionState, ← hs.err]
  rfl

theorem steps_send_tooLong (hlong : ¬ Fits s.params.textCap text.length) (k : Nat) (es : List Event) :
    steps (k + 1) { s with inbox := .send text :: es } =
      steps k (sessionState s (.sending .unloaded) s.mem (statusValid s.status) s.cause es) := by
  have hstart : takeEvent (.send text) { s with inbox := es, reply := .nothing } = _ :=
    takeEvent_send_of_not_fits { hs with } hidle hlayer hsome hlong
  refine (steps_cons (s := { s with inbox := .send text :: es }) rfl hstart).trans (congrArg (steps k) ?_)
  rw [sessionState, ← hs.err]
  rfl

end

section
variable {s : State} {text : List Nat} (hs : StateInv s)
include hs

/-- A text of the 8-bit code is held as it is. -/
theorem heldText_of_codes (hcodes : ∀ c ∈ text, c ≤ 255) : heldText s.params text = text := by
  have hwide : 2 ^ 8 < 2 ^ s.params.charW := Nat.pow_lt_pow_right one_lt_two hs.params.2
  exact heldText_of_lt fun c hc => (Nat.lt_succ_of_le (hcodes c hc)).trans hwide

/-- What no cell can hold is replaced, but never by a character of the 8-bit code: `ENC` finds the same index (log 20). -/
theorem exists_unencodable {c : Nat} (hc : c ∈ text) (hbig : 255 < c) :
    ∃ i, firstUnencodable 0 text = some i ∧ firstUnencodable 0 (heldText s.params text) = some i := by
  have hne : firstUnencodable 0 text ≠ none := fun hnone =>
    absurd ((firstUnencodable_eq_none_iff 0 text).mp hnone c hc) (Nat.not_le.mpr hbig)
  obtain ⟨i, hi⟩ := Option.ne_none_iff_exists'.mp hne
  exact ⟨i, hi, (firstUnencodable_heldText hs.params 0 text).trans hi⟩

end

end Sys2Proof.Laws

namespace Sys2Proof.Proofs

open Sys2Proof.Machine Sys2Proof.Laws

/-- Settles O45: each clause is a run of the stages up to the first that fails. -/
theorem sendSession : Obligations.SendSession := by
  unfold Obligations.SendSession
  intro s text hs hidle hlayer hsome
  refine ⟨fun hlong => ⟨⟨_, takeEvent_send_of_not_fits hs hidle hlayer hsome hlong, rfl, by simp, rfl⟩, ?tooLong⟩,
    fun hfit => ⟨fun hcodes hlegal hbits hwave => ?success, fun ⟨c, hc, hbig⟩ => ?encoding, fun hcodes hbits => ?bitsLong,
      fun hcodes hbits hlegal => ?config, fun hcodes hbits hlegal hwave => ?waveLong⟩⟩
  case tooLong =>
    rw [steps_send_tooLong hs hidle hlayer hsome hlong, steps_sessionState (sessionState_unloaded rfl)]
    exact congrArg Host.Outcome.next (sessionState_idle (s := { s with log := s.log ++ [.rejected] }) { hs with } hidle)
  all_goals have hsend := steps_send hs hidle hlayer hsome hfit
  case encoding =>
    obtain ⟨i, hi, hheld⟩ := exists_unencodable hs hc hbig
    have hrun := (hsend 1 [.quiet]).trans
      (steps_sessionState (sessionState_stage_fails rfl rfl (encFault_eq_encoding hheld)))
    refine ⟨_, hrun, sessionState_ended rfl, rfl, rfl, rfl, heldText_length _ _, fun j d hd hwide => ?held,
      fun j d hd hdbig hbefore => ?cause⟩
    case held =>
      change (heldText s.params text)[j]? = some d
      rw [heldText, List.getElem?_map, hd, Option.map_some, heldCode_of_lt hwide]
    case cause =>
      have hleast : ∀ l b, l < j → text[l]? = some b → b ≤ 255 := fun l b hl hb =>
        hbefore b (List.mem_of_getElem? ((List.getElem?_take_of_lt hl).trans hb))
      cases hi.symm.trans (firstUnencodable_of_least hd hdbig hleast)
      rfl
  all_goals rw [heldText_of_codes hs hcodes] at hsend
  case bitsLong =>
    have hrun := (hsend 1 [.quiet]).trans
      (steps_sessionState (sessionState_stage_fails rfl rfl (encFault_eq_capacity hcodes hbits)))
    exact ⟨_, hrun, sessionState_ended rfl, rfl, rfl, rfl⟩
  all_goals
    have hencoded (k : Nat) (es : List Event) := (hsend (k + 1) (.quiet :: es)).trans
      (steps_sessionState (sessionState_encode hcodes hbits))
  case config =>
    obtain ⟨c, hc⟩ := configFault_of_not_configLegal hlegal
    have hrun := (hencoded 1 [.quiet]).trans
      (steps_sessionState (sessionState_stage_fails rfl rfl ((modFault_eq_config_iff _ _).mpr hc)))
    exact ⟨_, hrun, sessionState_ended rfl, rfl, rfl, rfl⟩
  all_goals rw [← encodeText_length] at hwave
  case waveLong =>
    have hrun := (hencoded 1 [.quiet]).trans
      (steps_sessionState (sessionState_stage_fails rfl rfl (modFault_eq_capacity hlegal hwave)))
    exact ⟨_, hrun, sessionState_ended rfl, rfl, rfl, rfl⟩
  case success =>
    have hmodulated := (hencoded 2 [.quiet, .quiet]).trans (steps_sessionState (sessionState_modulate hlegal hwave))
    have hrun := hmodulated.trans (steps_sessionState sessionState_call)
    exact ⟨_, rfl, modulate_congr ⟨rfl, rfl, fun _ => ⟨rfl, rfl, rfl, rfl⟩⟩, rfl, hrun,
      ⟨_, sessionState_playbackDone, sessionState_ended rfl, rfl, statusValid_pack .., statusRej_pack ..⟩,
      ⟨_, sessionState_playbackFailed, sessionState_ended rfl, rfl⟩⟩

end Sys2Proof.Proofs
end

