-- ==== Sys2Proof/Proofs/RecvFamily.lean ====
section
/-!
PROOFS. A receive from its request to its end (spec/44_session.md R132, R133, R139, R169).
-/

namespace Sys2Proof.Laws

open Sys2Proof.Machine

/-! ## The capture -/

/-- The state with the call of a receive's capture made (R132). -/
def captureCalled (s : State) : State := { s with captureCalls := s.captureCalls ++ [captureCallOf s] }

/-- The state with the samples of a capture in `WAVE`. -/
def withWave (s : State) (samples : List Sample) : State := { s with mem := { s.mem with wave := samples } }

section
variable {s : State}

theorem takeEvent_recv (hs : StateInv s) (hidle : s.orch = .idle) (hlayer : s.params.hasSessionLayer = true) :
    takeEvent .recv s = .next (startRecv s) := by
  simp [takeEvent, requestRecv, hlayer, statusBusy_of_orch_idle hs hidle]

theorem takeEvent_captureDone {samples : List Sample} (hwait : s.orch = .listening)
    (hlength : samples.length = s.cfgFs * s.cfgCapdur) :
    takeEvent (.captureDone samples) s = .next (loadCapture samples s) :=
  (if_pos hwait).trans (if_pos hlength)

theorem sessionState_captureLoaded {m : Memory} {valid : Bool} {c : Option Err} {es : List Event}
    {samples : List Sample} (hlength : samples.length = s.cfgFs * s.cfgCapdur)
    (hfit : Fits s.params.waveCap samples.length) :
    takeEvent (.captureDone samples) (sessionState s .listening m valid c es) =
      .next (sessionState s (.decoding .demodulate) { m with wave := samples } valid c es) := by
  have hload := loadCapture_of_fits (s := sessionState s .listening m valid c es) hfit
  exact (takeEvent_captureDone (s := sessionState s .listening m valid c es) rfl hlength).trans (congrArg Host.Outcome.next hload)

theorem sessionState_captureUnloaded {m : Memory} {valid : Bool} {c : Option Err} {es : List Event}
    {samples : List Sample} (hlength : samples.length = s.cfgFs * s.cfgCapdur)
    (hlong : ¬ Fits s.params.waveCap samples.length) :
    takeEvent (.captureDone samples) (sessionState s .listening m valid c es) =
      .next (sessionState s (.decoding .unloaded) m valid c es) := by
  have hload := loadCapture_of_not_fits (s := sessionState s .listening m valid c es) hlong
  exact (takeEvent_captureDone (s := sessionState s .listening m valid c es) rfl hlength).trans (congrArg Host.Outcome.next hload)

/-- The windows of a capture of the length asked for (R132, R165). -/
theorem windowCount_withWave {samples : List Sample} (hlegal : ConfigLegal s)
    (hlength : samples.length = s.cfgFs * s.cfgCapdur) : windowCount (withWave s samples) = s.cfgBaud * s.cfgCapdur := by
  have hrate : spb s * s.cfgBaud = s.cfgFs := spb_mul_baud hlegal
  refine windowCount_of_full (s := withWave s samples) (spb_pos hlegal) ?_
  change samples.length = s.cfgBaud * s.cfgCapdur * spb s
  rw [hlength, ← hrate]
  ring

end

/-! ## The run of a receive -/

section
variable {s : State} (hs : StateInv s) (hidle : s.orch = .idle) (hlayer : s.params.hasSessionLayer = true)
include hs hidle hlayer

/-- A receive begins with the call of the capture. -/
theorem steps_recv (k : Nat) (es : List Event) :
    steps (k + 1) { s with inbox := .recv :: es } =
      steps k (sessionState (captureCalled s) .listening s.mem (statusValid s.status) s.cause es) := by
  have hstart : takeEvent .recv { s with inbox := es, reply := .nothing } = _ :=
    takeEvent_recv { hs with } hidle hlayer
  refine (steps_cons (s := { s with inbox := .recv :: es }) rfl hstart).trans (congrArg (steps k) ?_)
  rw [sessionState, ← hs.err]
  rfl

variable {samples : List Sample} (hlength : samples.length = s.cfgFs * s.cfgCapdur)
include hlength

theorem steps_recv_unloaded (hlong : ¬ Fits s.params.waveCap samples.length) (k : Nat) (es : List Event) :
    steps (k + 2) { s with inbox := .recv :: .captureDone samples :: es } =
      steps k (sessionState (captureCalled s) (.decoding .unloaded) s.mem (statusValid s.status) s.cause es) :=
  (steps_recv hs hidle hlayer (k + 1) _).trans (steps_sessionState (sessionState_captureUnloaded hlength hlong))

variable (hfit : Fits s.params.waveCap samples.length)
include hfit

theorem steps_recv_loaded (k : Nat) (es : List Event) :
    steps (k + 2) { s with inbox := .recv :: .captureDone samples :: es } =
      steps k (sessionState (captureCalled s) (.decoding .demodulate) { s.mem with wave := samples }
        (statusValid s.status) s.cause es) :=
  (steps_recv hs hidle hlayer (k + 1) _).trans (steps_sessionState (sessionState_captureLoaded hlength hfit))

variable (hlegal : ConfigLegal s) (hbits : Fits s.params.bitsCap (demodulate (withWave s samples)).length)
include hlegal hbits

theorem steps_recv_demodulated (k : Nat) (es : List Event) :
    steps (k + 3) { s with inbox := .recv :: .captureDone samples :: .quiet :: es } =
      steps k (sessionState (captureCalled s) (.decoding .decode)
        { s.mem with wave := samples, bits := demodulate (withWave s samples) } (statusValid s.status) none es) := by
  rw [demodulate_length] at hbits
  have hsame : SameInput .dem { captureCalled s with mem := { s.mem with wave := samples } } (withWave s samples) :=
    ⟨rfl, rfl, fun _ => ⟨rfl, rfl, rfl, rfl⟩⟩
  rw [← demodulate_congr hsame]
  rw [← windowCount_congr (hsame.config (.inr rfl)) rfl] at hbits
  exact (steps_recv_loaded hs hidle hlayer hlength hfit (k + 1) _).trans
    (steps_sessionState (sessionState_demodulate hlegal hbits))

variable (hgroups : (demodulate (withWave s samples)).length % 8 = 0)
  (htext : Fits s.params.textCap ((demodulate (withWave s samples)).length / 8))
include hgroups htext

/-- The text a receive has decoded is about to be delivered or rejected. -/
theorem steps_recv_validated (k : Nat) (es : List Event) :
    steps (k + 5) { s with inbox := .recv :: .captureDone samples :: .quiet :: .quiet :: .quiet :: es } =
      steps k (sessionState (captureCalled s) (.decoding .conclude)
        { text := decodeBits (demodulate (withWave s samples)), bits := demodulate (withWave s samples), wave := samples }
        (isValid (decodeBits (demodulate (withWave s samples)))) none es) := by
  have hdemodulated := steps_recv_demodulated hs hidle hlayer hlength hfit hlegal hbits (k + 2) (.quiet :: .quiet :: es)
  have hdecoded := hdemodulated.trans (steps_sessionState (sessionState_decode hgroups htext))
  exact hdecoded.trans (steps_sessionState sessionState_validate)

end

end Sys2Proof.Laws

namespace Sys2Proof.Proofs

open Sys2Proof.Machine Sys2Proof.Laws

/-- Settles O46: each clause is a run of the stages up to the first that fails, or to the delivery or rejection. -/
theorem recvSession : Obligations.RecvSession := by
  unfold Obligations.RecvSession
  intro s hs hidle hlayer
  refine ⟨⟨_, takeEvent_recv hs hidle hlayer, rfl, by simp, rfl, rfl⟩, ?captureFailed,
    fun samples hlength hlong => ⟨?decodes, ?rejected⟩, fun samples bits hlength hfit hbits => ?_⟩
  case captureFailed =>
    have hrun := (steps_recv hs hidle hlayer 1 [.captureFailed]).trans (steps_sessionState sessionState_captureFailed)
    exact ⟨_, hrun, sessionState_ended rfl, rfl, rfl, rfl⟩
  case decodes =>
    exact ⟨_, steps_recv_unloaded hs hidle hlayer hlength hlong 0 [], rfl, statusBusy_pack .., rfl⟩
  case rejected =>
    have hrun := (steps_recv_unloaded hs hidle hlayer hlength hlong 1 [.quiet]).trans
      (steps_sessionState (sessionState_unloaded rfl))
    have hidle' := sessionState_idle (s := { captureCalled s with log := s.log ++ [.rejected] }) (es := []) { hs with } hidle
    exact hrun.trans (congrArg Host.Outcome.next hidle')
  have hwave : bits = demodulate (withWave s samples) := hbits
  subst hwave
  have hloaded := steps_recv_loaded hs hidle hlayer hlength hfit
  refine ⟨fun hlegal => (demodulate_length _).trans (windowCount_withWave hlegal hlength),
    fun hlegal hcap hgroups htext => ?concludes, fun hillegal => ?config, fun hlegal hlong => ?bitsLong,
    fun hlegal hcap hgroups => ?malformed, fun hlegal hcap hgroups hlong => ?textLong⟩
  case config =>
    obtain ⟨c, hc⟩ := configFault_of_not_configLegal hillegal
    have hrun := (hloaded 1 [.quiet]).trans
      (steps_sessionState (sessionState_stage_fails rfl rfl ((demFault_eq_config_iff _ _).mpr hc)))
    exact ⟨_, hrun, sessionState_ended rfl, rfl, rfl, rfl⟩
  case bitsLong =>
    rw [demodulate_length] at hlong
    have hrun := (hloaded 1 [.quiet]).trans
      (steps_sessionState (sessionState_stage_fails rfl rfl (demFault_eq_capacity hlegal hlong)))
    exact ⟨_, hrun, sessionState_ended rfl, rfl, rfl, rfl⟩
  all_goals have hdemodulated := steps_recv_demodulated hs hidle hlayer hlength hfit hlegal hcap
  case malformed =>
    have hrun := (hdemodulated 1 [.quiet]).trans
      (steps_sessionState (sessionState_stage_fails rfl rfl (decFault_eq_malformed hgroups)))
    exact ⟨_, hrun, sessionState_ended rfl, rfl, rfl, rfl⟩
  case textLong =>
    have hrun := (hdemodulated 1 [.quiet]).trans
      (steps_sessionState (sessionState_stage_fails rfl rfl (decFault_eq_capacity hgroups hlong)))
    exact ⟨_, hrun, sessionState_ended rfl, rfl, rfl, rfl⟩
  case concludes =>
    have hvalidated := steps_recv_validated hs hidle hlayer hlength hfit hlegal hcap hgroups htext 1 [.quiet]
    by_cases hvalid : isValid (decodeBits (demodulate (withWave s samples))) = true ∧
        decodeBits (demodulate (withWave s samples)) ≠ []
    · have hrun := hvalidated.trans (steps_sessionState (sessionState_deliver hvalid.1 hvalid.2))
      refine ⟨_, hrun, sessionState_ended rfl, rfl, by rw [hidle]; rfl, ?flag, fun _ => ⟨rfl, rfl⟩, fun hnot => absurd ?_ hnot⟩
      all_goals rw [sessionState, statusValid_pack]
      case flag => exact isValid_iff _
      exact hvalid
    · have hrun := hvalidated.trans (steps_sessionState (sessionState_reject hvalid))
      refine ⟨_, hrun, sessionState_ended rfl, rfl, by rw [hidle]; rfl, ?flag, fun h => absurd ?_ hvalid, fun _ => ⟨rfl, rfl⟩⟩
      case flag =>
        rw [sessionState, statusValid_pack]
        exact isValid_iff _
      rwa [sessionState, statusValid_pack] at h

/-- Settles O47: 1500 windows are no whole number of characters. -/
theorem recvAtDefaultsIsMalformed : Obligations.RecvAtDefaultsIsMalformed := by
  unfold Obligations.RecvAtDefaultsIsMalformed
  intro s samples hs hidle hlayer hfs hbaud hcapdur htones hlength hwave hbits
  have hlegal : ConfigLegal s := ⟨by omega, by omega, by rw [hfs, hbaud], htones⟩
  have hlength' : samples.length = s.cfgFs * s.cfgCapdur := by rw [hlength, hfs, hcapdur]
  have hcount : (demodulate (withWave s samples)).length = 1500 := by
    rw [demodulate_length, windowCount_withWave hlegal hlength', hbaud, hcapdur]
  have hrun := steps_recv_demodulated hs hidle hlayer hlength' (hlength.symm ▸ hwave) hlegal (hcount.symm ▸ hbits) 0 []
  have hgroups : (demodulate (withWave s samples)).length % 8 ≠ 0 := by omega
  exact ⟨_, _, hrun, hcount, sessionState_stage_fails rfl rfl (decFault_eq_malformed hgroups), sessionState_ended rfl, rfl,
    rfl⟩

end Sys2Proof.Proofs
end

