-- ==== Sys2Proof/Proofs/SessionIndependence.lean ====
section
/-!
PROOFS. A session uses nothing of an earlier one (spec/10_state.md R35, spec/44_session.md R131, R132), by simulation: two
states that differ in their buffers, but not in the buffer the orchestrator reads next (`SameButBuffers`), stay so
whatever event of a session arrives.
-/

namespace Sys2Proof.Laws

open Sys2Proof.Machine

/-! ## The relation -/

/-- The buffer the orchestrator reads next, if any (R131, R133). -/
def stageInput : Orch → Option Space
  | .sending .encode => some .text
  | .sending .modulate => some .bits
  | .sending .call => some .wave
  | .decoding .demodulate => some .wave
  | .decoding .decode => some .bits
  | .decoding .validate => some .text
  | .decoding .conclude => some .text
  | _ => none

/-- Two states differ in their buffers alone, and not in the one the orchestrator reads next. -/
inductive SameButBuffers (s : State) : State → Prop
  | intro {m : Memory} (input : ∀ space, stageInput s.orch = some space → bufferOf s.mem space = bufferOf m space) :
      SameButBuffers s { s with mem := m }

theorem SameButBuffers.frame {s s' : State} (h : SameButBuffers s s') : s = { s' with mem := s.mem } := by
  cases h
  rfl

/-- Where the orchestrator reads no buffer next, any buffers will do. -/
theorem sameButBuffers_of_no_input {s : State} (m : Memory) (hnone : stageInput s.orch = none) :
    SameButBuffers s { s with mem := m } :=
  .intro fun _ h => nomatch hnone.symm.trans h

/-- A command's stage reads the command's input next. -/
theorem stageInput_of_command {o : Orch} {i : Instr} (h : stageCommand o = some i) :
    stageInput o = some (inputSpace i) := by
  obtain ⟨rfl, rfl⟩ | ⟨rfl, rfl⟩ | ⟨rfl, rfl⟩ | ⟨rfl, rfl⟩ | ⟨rfl, rfl⟩ := stageCommand_cases h <;> rfl

/-- The stage after a command reads the command's output next, or after `VAL` its input. -/
theorem stageInput_nextStage {o : Orch} {i : Instr} (h : stageCommand o = some i) :
    stageInput (nextStage o) = some ((outputSpace i).getD (inputSpace i)) := by
  obtain ⟨rfl, rfl⟩ | ⟨rfl, rfl⟩ | ⟨rfl, rfl⟩ | ⟨rfl, rfl⟩ | ⟨rfl, rfl⟩ := stageCommand_cases h <;> rfl

/-! ## The stages -/

section
variable {s : State} {m : Memory}

/-- What a command writes, in two states that agree on what it reads. -/
theorem withOutput_withMem {i : Instr} (hinput : bufferOf s.mem (inputSpace i) = bufferOf m (inputSpace i)) :
    withOutput i { s with mem := m } =
      { withOutput i s with mem := (withOutput i { s with mem := m }).mem } := by
  cases i with
  | val =>
    have htext : s.mem.text = m.text := BufferData.text.inj hinput
    simp [withOutput, setValid, htext]
  | _ => rfl

theorem sameInput_withMem {i : Instr} (hinput : bufferOf s.mem (inputSpace i) = bufferOf m (inputSpace i)) :
    SameInput i s { s with mem := m } :=
  ⟨rfl, hinput, fun _ => ⟨rfl, rfl, rfl, rfl⟩⟩

/-- The stage of a command, in two states that agree on what it reads. -/
theorem sameButBuffers_stage {i : Instr} {t t' : State} (hi : stageCommand s.orch = some i)
    (hinput : bufferOf s.mem (inputSpace i) = bufferOf m (inputSpace i)) (h : advance s = .next t)
    (h' : advance { s with mem := m } = .next t') : SameButBuffers t t' := by
  have hsame := sameInput_withMem hinput
  have hi' : stageCommand { s with mem := m }.orch = some i := hi
  rw [advance_of_stage hi] at h
  rw [advance_of_stage hi'] at h'
  have hfault := commandFault_congr hsame
  cases hcase : commandFault i s with
  | some e =>
    obtain ⟨out, hout, hexec⟩ := exec_of_fault hcase
    obtain ⟨out', hout', hexec'⟩ := exec_of_fault (hfault.symm.trans hcase)
    cases hout.symm.trans hout'
    rw [commandStage_of_failed _ hexec (statusErr_raise_ne_zero e out _)] at h
    rw [commandStage_of_failed _ hexec' (statusErr_raise_ne_zero e out _)] at h'
    cases h
    cases h'
    rw [raise_eq, raise_eq]
    exact sameButBuffers_of_no_input _ rfl
  | none =>
    have hexec := exec_of_no_fault hcase
    have hexec' := exec_of_no_fault (hfault.symm.trans hcase)
    rw [commandStage_of_ok _ hexec (by simp)] at h
    rw [commandStage_of_ok _ hexec' (by simp)] at h'
    cases h
    cases h'
    rw [withOutput_withMem hinput]
    refine .intro fun space hspace => ?_
    have hnext : some ((outputSpace i).getD (inputSpace i)) = some space := (stageInput_nextStage hi).symm.trans hspace
    cases hnext
    cases hout : outputSpace i with
    | some out => exact withOutput_congr hsame hout
    | none =>
      change bufferOf (withOutput i s).mem (inputSpace i) = bufferOf (withOutput i { s with mem := m }).mem (inputSpace i)
      rw [bufferOf_withOutput_input, bufferOf_withOutput_input, hinput]

/-- The playback is called with the same samples. -/
theorem callPlayback_withMem (hwave : s.mem.wave = m.wave) :
    callPlayback { s with mem := m } = { callPlayback s with mem := m } := by
  simp [callPlayback, hwave]

/-- The same text is delivered, or rejected. -/
theorem concludeDecoding_withMem (htext : s.mem.text = m.text) :
    concludeDecoding { s with mem := m } = { concludeDecoding s with mem := m } := by
  simp only [concludeDecoding, htext]
  split_ifs <;> rfl

theorem concludeDecoding_orch (s : State) : (concludeDecoding s).orch = .idle := by
  unfold concludeDecoding
  split_ifs <;> rfl

theorem sameButBuffers_advance {s' t t' : State} (hsame : SameButBuffers s s') (h : advance s = .next t)
    (h' : advance s' = .next t') : SameButBuffers t t' := by
  obtain @⟨m, hinput⟩ := hsame
  obtain hwait | hunloaded | ⟨i, hi⟩ | hcall | hconclude := orch_cases s.orch
  · rw [advance_of_waiting hwait] at h
    rw [advance_of_waiting (s := { s with mem := m }) hwait] at h'
    cases h
    cases h'
    exact .intro hinput
  · rw [advance_of_unloaded hunloaded] at h
    rw [advance_of_unloaded (s := { s with mem := m }) hunloaded] at h'
    cases h
    cases h'
    exact sameButBuffers_of_no_input (s := rejectSession s) m rfl
  · exact sameButBuffers_stage hi (hinput _ (stageInput_of_command hi)) h h'
  · rw [advance_of_call hcall] at h
    rw [advance_of_call (s := { s with mem := m }) hcall] at h'
    cases h
    cases h'
    have hwave : s.mem.wave = m.wave := BufferData.wave.inj (hinput .wave (by rw [hcall]; rfl))
    rw [callPlayback_withMem hwave]
    exact sameButBuffers_of_no_input m rfl
  · rw [advance_of_conclude hconclude] at h
    rw [advance_of_conclude (s := { s with mem := m }) hconclude] at h'
    cases h
    cases h'
    have htext : s.mem.text = m.text := BufferData.text.inj (hinput .text (by rw [hconclude]; rfl))
    rw [concludeDecoding_withMem htext]
    refine sameButBuffers_of_no_input m ?_
    rw [concludeDecoding_orch]
    rfl

end

/-! ## The requests and the capture -/

section
variable {s s' : State} (hsame : SameButBuffers s s')
include hsame

theorem sameButBuffers_send (text : List Nat) : SameButBuffers (requestSend text s) (requestSend text s') := by
  obtain @⟨m, hinput⟩ := hsame
  simp only [requestSend, startSend]
  split_ifs
  · exact .intro hinput
  · exact .intro hinput
  · exact .intro hinput
  · exact sameButBuffers_of_no_input (s := sendUnloaded s) m rfl
  · refine .intro (s := sendLoaded text s) (m := { m with text := heldText s.params text }) fun space hspace => ?_
    cases hspace
    rfl

theorem sameButBuffers_recv : SameButBuffers (requestRecv s) (requestRecv s') := by
  obtain @⟨m, hinput⟩ := hsame
  simp only [requestRecv]
  split_ifs
  · exact .intro hinput
  · exact .intro hinput
  · exact sameButBuffers_of_no_input (s := startRecv s) m rfl

theorem sameButBuffers_captureDone {samples : List Sample} {t t' : State} (h : captureDone samples s = .next t)
    (h' : captureDone samples s' = .next t') : SameButBuffers t t' := by
  obtain @⟨m, hinput⟩ := hsame
  simp only [captureDone, loadCapture] at h h'
  split_ifs at h h'
  · cases h
    cases h'
    exact sameButBuffers_of_no_input (s := captureUnloaded s) m rfl
  · cases h
    cases h'
    refine .intro (s := captureLoaded samples s) (m := { m with wave := samples }) fun space hspace => ?_
    cases hspace
    rfl

end

/-! ## The run of a session -/

/-- The events of a session but the failures and the end of its playback. -/
def isSessionEvent : Event → Bool
  | .quiet => true
  | .send _ => true
  | .recv => true
  | .captureDone _ => true
  | _ => false

theorem sameButBuffers_takeEvent {e : Event} {s s' t t' : State} (he : isSessionEvent e = true)
    (hsame : SameButBuffers s s') (h : takeEvent e s = .next t) (h' : takeEvent e s' = .next t') :
    SameButBuffers t t' := by
  cases e with
  | quiet => exact sameButBuffers_advance hsame h h'
  | send text => cases h; cases h'; exact sameButBuffers_send hsame text
  | recv => cases h; cases h'; exact sameButBuffers_recv hsame
  | captureDone samples => exact sameButBuffers_captureDone hsame h h'
  | _ => cases he

/-- No event touches the events still to come. -/
theorem effect_inbox {e : Event} {s t : State} (h : Effect e s t) : t.inbox = s.inbox := by
  cases h with
  | configures => rw [writeConfig_frame]
  | loads => rw [loadBuffer_frame]
  | commands _ hexec => rw [exec_frame hexec]
  | stageGoesOn _ hexec _ => rw [exec_frame hexec]; rfl
  | stageFails _ hexec _ => rw [exec_frame hexec]; rfl
  | _ => rfl

theorem exists_step_of_steps {k : Nat} {s t : State} (h : steps (k + 1) s = .next t) :
    ∃ u, step s = .next u ∧ steps k u = .next t := by
  cases hstep : step s with
  | next u => exact ⟨u, rfl, (steps_succ k hstep).symm.trans h⟩
  | fault f => simp [steps, hstep] at h
  | refused r => simp [steps, hstep] at h

theorem sameButBuffers_steps {k : Nat} {s s' t t' : State} (hsame : SameButBuffers s s')
    (hevents : ∀ e ∈ s.inbox, isSessionEvent e = true) (h : steps k s = .next t) (h' : steps k s' = .next t') :
    SameButBuffers t t' := by
  induction k generalizing s s' with
  | zero =>
    cases h
    cases h'
    exact hsame
  | succ k ih =>
    obtain ⟨u, hstep, hrest⟩ := exists_step_of_steps h
    obtain ⟨u', hstep', hrest'⟩ := exists_step_of_steps h'
    have hreceived : SameButBuffers (received s) (received s') := by
      obtain @⟨m, hinput⟩ := hsame
      exact .intro hinput
    have hnext : nextEvent s' = nextEvent s := by
      cases hsame
      rfl
    have hinbox : u.inbox = s.inbox.tail := effect_inbox (effect_of_takeEvent hstep)
    have hevent : isSessionEvent (nextEvent s) = true := by
      rw [nextEvent]
      cases hes : s.inbox with
      | nil => rfl
      | cons e es => exact hevents e (hes ▸ List.mem_cons_self)
    rw [step, hnext] at hstep'
    refine ih (sameButBuffers_takeEvent hevent hreceived hstep hstep') (fun e he => ?_) hrest hrest'
    rw [hinbox] at he
    exact hevents e (List.mem_of_mem_tail he)

end Sys2Proof.Laws

namespace Sys2Proof.Proofs

open Sys2Proof.Machine Sys2Proof.Laws

/-- Settles O55: idle, the orchestrator reads no buffer next, and the events of the two runs are a session's. -/
theorem sessionsUseNothingOfAnEarlierOne : Obligations.SessionsUseNothingOfAnEarlierOne := by
  unfold Obligations.SessionsUseNothingOfAnEarlierOne
  intro s mem hidle
  have hinput : stageInput s.orch = none := by rw [hidle]; rfl
  refine ⟨fun text t t' h h' => ?send, fun samples t t' h h' => ?recv⟩
  case send =>
    have hstart := sameButBuffers_of_no_input (s := { s with inbox := [.send text, .quiet, .quiet, .quiet] }) mem hinput
    exact (sameButBuffers_steps hstart (by simp [isSessionEvent]) h h').frame
  case recv =>
    have hstart := sameButBuffers_of_no_input
      (s := { s with inbox := [.recv, .captureDone samples, .quiet, .quiet, .quiet, .quiet] }) mem hinput
    exact (sameButBuffers_steps hstart (by simp [isSessionEvent]) h h').frame

end Sys2Proof.Proofs
end
